-- ==== Sys2Proof/Word.lean ====
section
/-! DEFINITION. The word types of the XR/17032 (spec/00_scope.md R2, R4, R7): 32-bit words, bytes, the 5-bit
register number fields of the instruction formats. -/

namespace Sys2Proof

/-- One byte of memory (20_memory R80). -/
abbrev Byte := BitVec 8

/-- A 32-bit word: a register, an address, an instruction (00_scope R2). -/
abbrev Word := BitVec 32

/-- A 5-bit general register number (10_state R20): every value names a register. -/
abbrev RegNum := BitVec 5

/-- A 5-bit control register number (10_state R47). Not every value names a register (R46). -/
abbrev CrNum := BitVec 5

end Sys2Proof
end

