-- ==== Sys2Proof/Machine/Flags.lean ====
section
/-! DEFINITION. The architecture has no condition codes (spec/10_state.md R29). What stands in their place: the test a
branch makes of one register (spec/41_branch.md R201 to R208) and the 0 or 1 a comparison writes (42_imm_operate R222,
R223; 43_reg_operate R277, R278). -/

namespace Sys2Proof.Machine

/-- BEQ (R201). -/
def isZero (v : Word) : Bool := v == 0
/-- BNE (R202). -/
def isNonzero (v : Word) : Bool := v != 0
/-- BLT (R203): the sign bit is set. -/
def isNegative (v : Word) : Bool := v[31]
/-- BGT (R204): the sign bit is clear and the register is not zero. -/
def isPositive (v : Word) : Bool := !v[31] && v != 0
/-- BLE (R205). -/
def isNotPositive (v : Word) : Bool := v[31] || v == 0
/-- BGE (R206). -/
def isNotNegative (v : Word) : Bool := !v[31]
/-- BPE (R207): bit 0 is clear. -/
def isEven (v : Word) : Bool := !v[0]
/-- BPO (R208). -/
def isOdd (v : Word) : Bool := v[0]

/-- A truth value as the word 1 or 0. -/
def truthWord (b : Bool) : Word := if b then 1 else 0

/-- The result of an unsigned less-than (R222, R277). -/
def lessUnsigned (a b : Word) : Word := truthWord (a.ult b)

/-- The result of a signed less-than (R223, R278). -/
def lessSigned (a b : Word) : Word := truthWord (a.slt b)

end Sys2Proof.Machine
end

