-- ==== Sys2Proof/Config.lean ====
section
/-! DEFINITION. What an implementation of the XR/17032 fixes, and the free values: constants with no body, so that no
proof can see what they are (spec/00_scope.md R5, spec/92_eei_decisions.md; log 1). Every use of one is wrapped in a
definition of Machine/. -/

namespace Sys2Proof.Config

/-- What a free value is drawn for. Two uses never share one value, and one use draws a fresh value at every step. -/
inductive FreeUse where
  /-- the result of a division by zero (44_reg_operate R305a, `DIV_ZERO`) -/
  | divZero
  /-- the result of the overflowing signed division (R305b, `DIVS_OVERFLOW`) -/
  | divOverflow
  /-- the result of a register shift by 32 or more (43_reg_operate R270, `SHIFT_BIG`) -/
  | bigShift
  /-- what a read of ITBPTE, DTBPTE, ITBCTRL or DTBCTRL gives (45_privileged R331; U6, U9) -/
  | crRead
  /-- the stored register 0 when RS.T goes from 0 to 1 (10_state R24) -/
  | regZero
  /-- the pc of an exception entry through an EB that is not page aligned (10_state R34; U2) -/
  | vector
  /-- the bits of RS written against MBZ (10_state R32; U4) -/
  | mbz
  /-- which of its two readings JALR with RA = RB follows (42_imm_operate R244b) -/
  | jalr
  /-- the slot and the next index of an insertion whose index is not below the TB size (10_state R42; U8) -/
  | tbIndex
  /-- whether ECAUSE keeps its value in the two special entries (60_exceptions R361, R363) -/
  | ecause
  /-- which copy of an instruction word a cached fetch sees (20_memory R121) -/
  | icache
  /-- which copy of a data word a cached load sees (20_memory R128) -/
  | dcache
  /-- what a store to ROM does (20_memory R135) -/
  | rom
  /-- what a device answers, to a fetch or to a data access (00_scope R7, 20_memory R135) -/
  | deviceValue (fetch : Bool)
  /-- whether a device refuses an access, with a bus error (00_scope R7) -/
  | deviceRefuses (fetch : Bool)
  /-- whether an access that goes through a cache reaches the device (20_memory R137) -/
  | deviceReached (fetch : Bool)
  /-- the state a reset leaves unspecified (10_state R60), by position -/
  | reset (position : Nat)
deriving DecidableEq, Repr

/-- A free word: nothing constrains it. The number is State's counter of steps. -/
opaque freeWord : Nat → FreeUse → Word

/-- A free choice between two. -/
opaque freeBool : Nat → FreeUse → Bool

/-- A free number. -/
opaque freeNat : Nat → FreeUse → Nat

/-- Free contents of a TB after a reset (10_state R60): index, tag and PTE of each entry. -/
opaque freeEntries : Nat → FreeUse → List (Nat × Word × Word)

/-- Free contents of a cache after a reset (10_state R60): a word address and an old copy of it. -/
opaque freeCopies : Nat → FreeUse → List (Nat × Word)

/-- `TRAP_EPC` (60_exceptions R359): true when SYS and BRK save the address after themselves. -/
opaque trapEpcNext : Bool

/-- `HLT_NMI_WAKE` (45_privileged R335b): whether an NMI ends a halt. -/
opaque hltNmiWake : Bool

/-- `DCACHE_DMA_COHERENT` (20_memory R128). -/
opaque dcacheDmaCoherent : Bool

/-- How far `ITB_SIZE` exceeds 5, the least size the wrap to index 4 allows (20_memory R109). A TB has at most 2^32
entries, as its index is a 32-bit register (10_state R42). -/
opaque itbExtra : Fin 4294967292

/-- How far `DTB_SIZE` exceeds 5. -/
opaque dtbExtra : Fin 4294967292

/-- `ITB_SIZE` (00_scope R5): greater than 4, otherwise free. -/
def itbSize : Nat := itbExtra.val + 5

/-- `DTB_SIZE` (00_scope R5). -/
def dtbSize : Nat := dtbExtra.val + 5

/-- How far `NMI_MASK_INSNS` exceeds 1, its least value (D32). -/
opaque nmiMaskExtra : Nat

/-- `NMI_MASK_INSNS` (60_exceptions R377, D32): the reload value of the NMI mask counter, in steps. -/
def nmiMaskInsns : Nat := nmiMaskExtra + 1

/-- How far `MAXPROC` exceeds 1. -/
opaque maxProcExtra : Nat

/-- `MAXPROC` (00_scope R5). -/
def maxProc : Nat := maxProcExtra + 1

/-- What `PROC_ID` is drawn from. -/
opaque procSeed : Nat

/-- `PROC_ID` (10_state R33): in [0, MAXPROC-1], so 0 on a uniprocessor. -/
def procId : Word := BitVec.ofNat 32 (procSeed % maxProc)

/-- `IC_LINES_LOG`, `IC_WAYS_LOG`, `IC_LINESIZE_LOG` (00_scope R5). -/
opaque icLinesLog : Nat
opaque icWaysLog : Nat
opaque icLineSizeLog : Nat

/-- `DC_LINES_LOG`, `DC_WAYS_LOG`, `DC_LINESIZE_LOG` (00_scope R5). -/
opaque dcLinesLog : Nat
opaque dcWaysLog : Nat
opaque dcLineSizeLog : Nat

/-- `CACHECTRL_READ_LAYOUT` (10_state R44): how the three logarithms stand in the word read. -/
opaque cacheReadLayout : Nat → Nat → Nat → Word

end Sys2Proof.Config
end

