-- ==== Sys2Proof/Machine/State.lean ====
section
/-! DEFINITION. The state of one XR/17032 processor and of the memory it sees, as plain data (spec/10_state.md), the
exceptions it can take (spec/60_exceptions.md R350), the ways a step of the model stops, and the state after reset
(R60). -/

namespace Sys2Proof.Machine

/-- The three access widths, by the assembler's names (20_memory R82): 1, 2 and 4 bytes. -/
inductive Width where
  | byte | int | long
deriving DecidableEq, Repr

/-- What an access is for (20_memory R86). -/
inductive AccessKind where
  | fetch | read | write
deriving DecidableEq, Repr

/-- The two translation buffers (10_state R50). -/
inductive TbSel where
  | itb | dtb
deriving DecidableEq, Repr

/-- One TB entry: 64 bits, tag (ASID 31:20, VPN 19:0) and PTE (20_memory R97). -/
structure TbEntry where
  tag : Word
  pte : Word
deriving DecidableEq, Repr

/-- A used entry and its index. An index that no slot has is an unused entry (20_memory R102). -/
structure TbSlot where
  index : Nat
  entry : TbEntry
deriving DecidableEq, Repr

/-- The used entries of a TB, by strictly rising index. -/
abbrev Tb := List TbSlot

/-- An older version of the aligned word at a physical address, which a cache may still hold (10_state R51). -/
structure StaleCopy where
  addr : Nat
  word : Word
deriving DecidableEq, Repr

/-- What owns a part of the physical address space (00_scope R5 `PhysMem`, 20_memory R135). -/
inductive RegionKind where
  /-- ordinary memory -/
  | ram
  /-- read-only memory -/
  | rom
  /-- device registers (20_memory R137), and whether reading them has side effects (00_scope R5) -/
  | device (readEffects : Bool)
  /-- nothing answers: a bus error -/
  | empty
deriving DecidableEq, Repr

/-- A range of physical addresses and its owner. -/
structure Region where
  base : Nat
  size : Nat
  kind : RegionKind
deriving DecidableEq, Repr

/-- `PTE_LAYOUT` (00_scope R5, 20_memory R96): the bits of the five flags of a PTE, and the lowest bit of its 20-bit
physical page number. -/
structure PteLayout where
  v : Fin 32
  w : Fin 32
  k : Fin 32
  n : Fin 32
  g : Fin 32
  pfn : Fin 13
deriving DecidableEq, Repr

/-- The spec's default of `PTE_LAYOUT` (20_memory R96), from general knowledge: V, W, K, N, G from bit 0 up, then the page
number (log 10). -/
def PteLayout.usual : PteLayout := ⟨0, 1, 2, 3, 4, 5⟩

/-- An access that a device answered (20_memory R123, R137). -/
structure DeviceAccess where
  kind : AccessKind
  addr : Word
  width : Width
  /-- the value read, or the low bytes stored -/
  value : Word
  /-- whether it can change the device: a store, or a read of a register whose reads have side effects -/
  effect : Bool
deriving DecidableEq, Repr

/-- The bytes of the physical address space, in one canonical form (see `Memory.wf` in Machine/Memory.lean). -/
structure Memory where
  cells : List Host.Cell
deriving DecidableEq, Repr

/-- One move of the environment (00_scope R7). The fifth move, answering or refusing an access, is the list of regions,
and for a device the free values of `deviceAnswer`. -/
inductive EnvMove where
  /-- the external interrupt request is asserted or deasserted (60_exceptions R372) -/
  | interruptLine (level : Bool)
  /-- an NMI is requested (60_exceptions R376) -/
  | nmi
  /-- the processor is reset (70_reset_and_hazards R420) -/
  | reset
  /-- another processor stores (60_exceptions R404) -/
  | processorStore (pa : Word) (width : Width) (value : Word)
  /-- a device writes memory (20_memory R128) -/
  | deviceStore (pa : Word) (width : Width) (value : Word)
deriving DecidableEq, Repr

/-- The twelve exception causes (60_exceptions R350). -/
inductive Cause where
  | int | sys | bus | nmi | brk | inv | prv | una | pgf | pfw | itb | dtb
deriving DecidableEq, Repr

/-- An exception with what its entry needs (60_exceptions R356 to R363). -/
inductive Exc where
  /-- INT, SYS, NMI, BRK, INV, PRV: no address -/
  | plain (c : Cause)
  /-- BUS, with the physical address that failed -/
  | bus (pa : Word)
  /-- UNA, with the unaligned virtual address -/
  | una (va : Word)
  /-- a page fault on a virtual address: PGF, or PFW for a write -/
  | pageFault (kind : AccessKind) (va : Word)
  /-- a TB miss on a virtual address: ITB for a fetch, otherwise DTB -/
  | tbMiss (kind : AccessKind) (va : Word)
deriving DecidableEq, Repr

/-- The 24 control registers that are not absent (10_state R48). -/
inductive CtrlReg where
  | rs | whami | eb | epc | ebadaddr | tbmissaddr | tbpc
  | scratch0 | scratch1 | scratch2 | scratch3 | scratch4
  | tbPte (b : TbSel) | tbTag (b : TbSel) | tbIndex (b : TbSel) | tbCtrl (b : TbSel)
  | cacheCtrl (b : TbSel) | tbAddr (b : TbSel)
deriving DecidableEq, Repr

/-- Where the source itself calls a behaviour undefined or unpredictable and gives no effect among its choices, the
model stops. (Every fault the manual describes is an exception the machine takes, a next state.) All are safe: no
claim about a run through one can be proved. -/
inductive Fault where
  /-- MFCR or MTCR in kernel mode naming an absent control register: "undefined behavior if read or written"
  (10_state R46, U1). Raised by execMfcr and execMtcr. Safe. -/
  | absentControlRegister (number : CrNum)
  /-- A translation while the TB's current ASID is 0xFFF and RS.M = 1: "unpredictable results" (10_state R41,
  20_memory R102, U7). Raised by `translateVa`. Safe. -/
  | reservedAsid
  /-- A write of command 00 or 01 to ICACHECTRL or DCACHECTRL: "unpredictable results" (20_memory R125, U10). Raised by
  `cacheCommand`. Safe. -/
  | unpredictableCacheCommand
deriving DecidableEq, Repr

/-- Where the spec gives no effect to a form, the model refuses it. All are safe. -/
inductive Refusal where
  /-- the instruction has no meaning in this model yet; raised by exec's arms only. Safe. -/
  | notModelled (mnemonic : String)
  /-- MTCR to WHAMI: "The sources do not say what a write does" (10_state R33, U5). Raised by `writeControl`. Safe. -/
  | whamiWrite
  /-- More than one TB entry matches one lookup (20_memory R104). Raised by `translateVa`. Safe. -/
  | severalTbMatches
  /-- TB command 00 or cache command 10 with a non-zero bit among 11:2 (20_memory R111, R125; D30). Raised by
  `tbCommand` and `cacheCommand`. Safe. -/
  | commandBits
deriving DecidableEq, Repr

/-- The whole state. -/
structure State where
  /-- the address of the instruction being executed (10_state R26) -/
  pc : Word
  /-- the stored general registers; number 0 is the hidden one (R20 to R24) -/
  regs : Vector Word 32
  /-- control register 0, processor status (R30 to R32) -/
  rs : Word
  /-- control register 1, processor id (R33) -/
  whami : Word
  /-- control register 5, exception block base (R34) -/
  eb : Word
  /-- control register 6, saved pc (R35) -/
  epc : Word
  /-- control register 7, bad address (R36) -/
  ebadaddr : Word
  /-- control register 9, address of the last non-nested TB miss (R37) -/
  tbmissaddr : Word
  /-- control register 10, pc of the last non-nested TB miss (R38) -/
  tbpc : Word
  /-- control registers 11 to 15 (R39) -/
  scratch0 : Word
  scratch1 : Word
  scratch2 : Word
  scratch3 : Word
  scratch4 : Word
  /-- control registers 17 and 25 (R41) -/
  itbTag : Word
  dtbTag : Word
  /-- control registers 18 and 26 (R42) -/
  itbIndex : Word
  dtbIndex : Word
  /-- control registers 21 and 29 (R45) -/
  itbAddr : Word
  dtbAddr : Word
  /-- the translation buffers (R50) -/
  itb : Tb
  dtb : Tb
  /-- the older versions of words the Icache may hold (R51; 20_memory R121) -/
  icacheStale : List StaleCopy
  /-- the older versions of words the Dcache may hold (R51; 20_memory R128) -/
  dcacheStale : List StaleCopy
  /-- the LL/SC reservation (R52) -/
  locked : Bool
  lockedAddr : Word
  /-- the TB-miss kind latch (R53) -/
  missWasWrite : Bool
  /-- the NMI mask counter (R54) -/
  nmiMask : Nat
  /-- halted by HLT (R55) -/
  halted : Bool
  /-- physical memory (20_memory R80) -/
  mem : Memory
  /-- the platform's physical map (00_scope R5); what no region covers is RAM -/
  regions : List Region
  /-- the implementation's PTE layout, an argument of the model (00_scope R5; 20_memory R96); no step changes it -/
  pteLayout : PteLayout
  /-- the external interrupt request as the processor samples it (R57) -/
  intLine : Bool
  /-- the NMI requests that have not been delivered: each gives one exception (R57; 60_exceptions R376, R377) -/
  nmiPending : Nat
  /-- the environment's coming moves, one batch for each instruction boundary (00_scope R7) -/
  inputs : List (List EnvMove)
  /-- the model's own record of the accesses devices answered, the latest first (20_memory R137; log 8) -/
  deviceLog : List DeviceAccess
  /-- the model's own counter that numbers the free values (log 1) -/
  fresh : Nat
deriving DecidableEq, Repr

/-- The three outcomes of a step. -/
abbrev Result := Host.Outcome State Fault Refusal

/-- What a part of an instruction can answer: a value, an exception to take, or a stop of the model. -/
inductive Access (α : Type) where
  | ok (a : α)
  | trap (e : Exc)
  | fault (f : Fault)
  | refused (r : Refusal)
deriving DecidableEq, Repr

/-- The reset pc (10_state R60). -/
def resetPc : Word := 0xFFFE1000

/-- The machine right after reset (10_state R60, 70_reset_and_hazards R420): pc and RS as stated, not halted, WHAMI the
processor's id. Every other value is the model's choice (log 2, 3, 4, 6, 7, 8, 10, 32): zero, nothing used, nothing stale,
nothing pending. -/
def State.reset : State where
  pc := resetPc
  regs := Vector.replicate 32 0
  rs := 0
  whami := Config.procId
  eb := 0
  epc := 0
  ebadaddr := 0
  tbmissaddr := 0
  tbpc := 0
  scratch0 := 0
  scratch1 := 0
  scratch2 := 0
  scratch3 := 0
  scratch4 := 0
  itbTag := 0
  dtbTag := 0
  itbIndex := 0
  dtbIndex := 0
  itbAddr := 0
  dtbAddr := 0
  itb := []
  dtb := []
  icacheStale := []
  dcacheStale := []
  locked := false
  lockedAddr := 0
  missWasWrite := false
  nmiMask := 0
  halted := false
  mem := ⟨[]⟩
  regions := []
  pteLayout := PteLayout.usual
  intLine := false
  nmiPending := 0
  inputs := []
  deviceLog := []
  fresh := 0

end Sys2Proof.Machine
end

