-- ==== Sys2Proof/Syntax.lean ====
section
/-! DEFINITION. The instructions of the XR/17032 as syntax: one constructor per row of spec/opcode_table.json, in the
table's order (spec/30_encoding.md R160). Operands are the fields of the encoding, pulled apart and named. -/

namespace Sys2Proof

/-- The four shift types (30_encoding R156). -/
inductive ShiftType where
  | lsh | rsh | ash | ror
deriving DecidableEq, Repr

/-- The shifted operand `RC xSH IMM5` of the 0x39 group (43_reg_operate R260). -/
structure ShiftedReg where
  /-- REG C, the register shifted -/
  rc : RegNum
  /-- SHIFT, the shift type -/
  kind : ShiftType
  /-- SHAMT, the amount, 0 to 31 -/
  amount : BitVec 5
deriving DecidableEq, Repr

/-- The 61 instructions. -/
inductive Instr where
  -- jump format (40_jump)
  | j (imm : BitVec 29)
  | jal (imm : BitVec 29)
  -- branch format (41_branch)
  | beq (ra : RegNum) (imm : BitVec 21)
  | bne (ra : RegNum) (imm : BitVec 21)
  | blt (ra : RegNum) (imm : BitVec 21)
  | bgt (ra : RegNum) (imm : BitVec 21)
  | ble (ra : RegNum) (imm : BitVec 21)
  | bge (ra : RegNum) (imm : BitVec 21)
  | bpe (ra : RegNum) (imm : BitVec 21)
  | bpo (ra : RegNum) (imm : BitVec 21)
  -- immediate operate, 100 group (42_imm_operate, section 1)
  | addi (ra rb : RegNum) (imm : BitVec 16)
  | subi (ra rb : RegNum) (imm : BitVec 16)
  | slti (ra rb : RegNum) (imm : BitVec 16)
  | sltiSigned (ra rb : RegNum) (imm : BitVec 16)
  | andi (ra rb : RegNum) (imm : BitVec 16)
  | xori (ra rb : RegNum) (imm : BitVec 16)
  | ori (ra rb : RegNum) (imm : BitVec 16)
  | lui (ra rb : RegNum) (imm : BitVec 16)
  -- loads with immediate offset: RA <- [RB + IMM16]
  | loadByte (ra rb : RegNum) (imm : BitVec 16)
  | loadInt (ra rb : RegNum) (imm : BitVec 16)
  | loadLong (ra rb : RegNum) (imm : BitVec 16)
  -- stores with immediate offset: [RA + IMM16] <- RB
  | storeByte (ra rb : RegNum) (imm : BitVec 16)
  | storeInt (ra rb : RegNum) (imm : BitVec 16)
  | storeLong (ra rb : RegNum) (imm : BitVec 16)
  -- stores of a small immediate: [RA + IMM16] <- IMM5
  | storeByteSmall (ra : RegNum) (small : BitVec 5) (imm : BitVec 16)
  | storeIntSmall (ra : RegNum) (small : BitVec 5) (imm : BitVec 16)
  | storeLongSmall (ra : RegNum) (small : BitVec 5) (imm : BitVec 16)
  | jalr (ra rb : RegNum) (imm : BitVec 16)
  -- loads with register offset: RA <- [RB + RC xSH IMM5]
  | loadByteX (ra rb : RegNum) (sc : ShiftedReg)
  | loadIntX (ra rb : RegNum) (sc : ShiftedReg)
  | loadLongX (ra rb : RegNum) (sc : ShiftedReg)
  -- stores with register offset: [RB + RC xSH IMM5] <- RA
  | storeByteX (ra rb : RegNum) (sc : ShiftedReg)
  | storeIntX (ra rb : RegNum) (sc : ShiftedReg)
  | storeLongX (ra rb : RegNum) (sc : ShiftedReg)
  -- shifts by register: RA <- RC xSH RB
  | lsh (ra rc rb : RegNum)
  | rsh (ra rc rb : RegNum)
  | ash (ra rc rb : RegNum)
  | ror (ra rc rb : RegNum)
  -- register arithmetic and logic: RA <- RB op (RC xSH IMM5)
  | add (ra rb : RegNum) (sc : ShiftedReg)
  | sub (ra rb : RegNum) (sc : ShiftedReg)
  | slt (ra rb : RegNum) (sc : ShiftedReg)
  | sltSigned (ra rb : RegNum) (sc : ShiftedReg)
  | and (ra rb : RegNum) (sc : ShiftedReg)
  | xor (ra rb : RegNum) (sc : ShiftedReg)
  | or (ra rb : RegNum) (sc : ShiftedReg)
  | nor (ra rb : RegNum) (sc : ShiftedReg)
  -- register operate 0x31 (44_reg_operate)
  | mul (ra rb rc : RegNum)
  | div (ra rb rc : RegNum)
  | divSigned (ra rb rc : RegNum)
  | mod (ra rb rc : RegNum)
  | ll (ra rb : RegNum)
  | sc (ra rb rc : RegNum)
  | pause
  | mb
  | wmb
  | brk
  | sys
  -- register operate 0x29, privileged (45_privileged)
  | mfcr (ra : RegNum) (cr : CrNum)
  | mtcr (cr : CrNum) (rb : RegNum)
  | hlt
  | rfe
deriving DecidableEq, Repr

end Sys2Proof
end

