-- ==== Sys2Proof/Machine/Operands.lean ====
section
/-! DEFINITION. Operand forms: how immediates are widened (spec/30_encoding.md R158) and how a register is shifted
(R156, R157; 43_reg_operate R260, R270). -/

namespace Sys2Proof.Machine

/-- IMM16 zero-extended. -/
def zext16 (imm : BitVec 16) : Word := imm.zeroExtend 32

/-- IMM16 sign-extended. -/
def sext16 (imm : BitVec 16) : Word := imm.signExtend 32

/-- IMM16 in the high half (LUI). -/
def upper16 (imm : BitVec 16) : Word := imm ++ 0#16

/-- IMM16 as the offset of a load or store: zero-extended and scaled by the access size. -/
def scaledOffset (w : Width) (imm : BitVec 16) : Word :=
  match w with
  | .byte => zext16 imm
  | .int => zext16 imm <<< 1
  | .long => zext16 imm <<< 2

/-- IMM16 as JALR's offset: sign-extended, then two places left. -/
def jalrOffset (imm : BitVec 16) : Word := sext16 imm <<< 2

/-- IMM5 as the data of a small-immediate store: sign-extended (42_imm_operate R238). -/
def smallData (small : BitVec 5) : Word := small.signExtend 32

/-- IMM21 as a branch offset: sign-extended, then two places left (41_branch R200). -/
def branchOffset (imm : BitVec 21) : Word := imm.signExtend 32 <<< 2

/-- The target of a jump: IMM29 two places left, bit 31 from the pc (40_jump R190). -/
def jumpTarget (pc : Word) (imm : BitVec 29) : Word := pc.extractLsb' 31 1 ++ imm ++ 0#2

/-- `Shift(t, v, a)` for amounts 0 to 31 (30_encoding R157). -/
def shiftBy (t : ShiftType) (v : Word) (a : BitVec 5) : Word :=
  match t with
  | .lsh => v <<< a.toNat
  | .rsh => v >>> a.toNat
  | .ash => v.sshiftRight a.toNat
  | .ror => v.rotateRight a.toNat

/-- A shift by a register's contents (43_reg_operate R270): for 32 or more the result is free (`SHIFT_BIG`, log 13). -/
def shiftByWord (n : Nat) (t : ShiftType) (v amount : Word) : Word :=
  if amount < 32 then shiftBy t v (amount.extractLsb' 0 5) else Config.freeWord n .bigShift

end Sys2Proof.Machine
end

