-- ==== Sys2Proof/Machine/Memory.lean ====
section
/-! DEFINITION. Physical memory: bytes, little-endian words (spec/20_memory.md R80 to R82), the platform's map (R135),
and the older copies the caches may hold (R121, R128). -/

namespace Sys2Proof.Machine

/-- What a byte that no cell lists reads as (log 6: DESIGN CHOICE, the spec gives memory no contents). -/
def Memory.background : Byte := 0

/-- The byte a list of cells holds at an address. -/
def Memory.lookup : List Host.Cell → Nat → Byte
  | [], _ => Memory.background
  | (b, v) :: rest, a => if b = a then v else Memory.lookup rest a

/-- Putting one byte into a list of cells that rises by address; the background value is held by no cell. -/
def Memory.update : List Host.Cell → Nat → Byte → List Host.Cell
  | [], a, v => if v = Memory.background then [] else [(a, v)]
  | (b, u) :: rest, a, v =>
    if a < b then
      if v = Memory.background then (b, u) :: rest else (a, v) :: (b, u) :: rest
    else if a = b then
      if v = Memory.background then rest else (a, v) :: rest
    else (b, u) :: Memory.update rest a v

/-- The canonical form: addresses strictly rise, and no cell holds the background value. -/
abbrev Memory.wf (m : Memory) : Prop :=
  m.cells.Pairwise (fun c d => c.1 < d.1) ∧ ∀ c ∈ m.cells, c.2 ≠ Memory.background

/-- Reading one byte. -/
def Memory.read (m : Memory) (a : Nat) : Byte := Memory.lookup m.cells a

/-- Writing one byte. -/
def Memory.write (m : Memory) (a : Nat) (v : Byte) : Memory := ⟨Memory.update m.cells a v⟩

/-- The number of bytes of an access (20_memory R82). -/
def Width.bytes : Width → Nat
  | .byte => 1
  | .int => 2
  | .long => 4

/-- The low `8 n` bits of a word, for a width of `n` bytes. -/
def Width.mask : Width → Word
  | .byte => 0x000000FF
  | .int => 0x0000FFFF
  | .long => 0xFFFFFFFF

/-- The little-endian value of the bytes at an address (20_memory R81), zero-extended to a word. -/
def Memory.readLE (m : Memory) (a : Nat) : Width → Word
  | .byte => (m.read a).zeroExtend 32
  | .int => (m.read (a + 1) ++ m.read a).zeroExtend 32
  | .long => m.read (a + 3) ++ m.read (a + 2) ++ m.read (a + 1) ++ m.read a

/-- Storing the low bytes of a word, little-endian (20_memory R81, R89). -/
def Memory.writeLE (m : Memory) (a : Nat) (w : Width) (v : Word) : Memory :=
  match w with
  | .byte => m.write a (v.extractLsb' 0 8)
  | .int => (m.write a (v.extractLsb' 0 8)).write (a + 1) (v.extractLsb' 8 8)
  | .long =>
    (((m.write a (v.extractLsb' 0 8)).write (a + 1) (v.extractLsb' 8 8)).write (a + 2) (v.extractLsb' 16 8)).write
      (a + 3) (v.extractLsb' 24 8)

/-- The address of the aligned word that holds a byte address. -/
def wordBase (a : Nat) : Nat := a / 4 * 4

/-- Whether an address is a multiple of the access size (20_memory R83). -/
def Width.aligned (w : Width) (a : Word) : Bool :=
  match w with
  | .byte => true
  | .int => a.extractLsb' 0 1 == 0
  | .long => a.extractLsb' 0 2 == 0

/-- The largest aligned address not above an address. -/
def Width.alignDown (w : Width) (a : Word) : Word :=
  match w with
  | .byte => a
  | .int => a.extractLsb' 1 31 ++ 0#1
  | .long => a.extractLsb' 2 30 ++ 0#2

/-- The owner of the aligned word that holds a physical address: the first region that covers it, else RAM (log 7). -/
def regionAt : List Region → Nat → RegionKind
  | [], _ => .ram
  | r :: rest, a => if r.base ≤ wordBase a ∧ wordBase a < r.base + r.size then r.kind else regionAt rest a

/-- The older versions a cache may hold of the aligned word at a physical address. -/
def staleWords (copies : List StaleCopy) (a : Nat) : List Word :=
  (copies.filter (fun c => c.addr == wordBase a)).map StaleCopy.word

/-- One of the current word and its older versions, chosen by a free number (20_memory R121, R128). -/
def chooseCopy (n : Nat) (current : Word) (older : List Word) : Word :=
  (current :: older).getD (n % (older.length + 1)) current

/-- The part of a word that an access at address `a` sees, zero-extended. -/
def lane (word : Word) (a : Nat) (w : Width) : Word := (word >>> (8 * (a % 4))) &&& w.mask

/-- A word with the part at address `a` replaced. -/
def putLane (word : Word) (a : Nat) (w : Width) (v : Word) : Word :=
  (word &&& ~~~(w.mask <<< (8 * (a % 4)))) ||| ((v &&& w.mask) <<< (8 * (a % 4)))

/-- Remembering that a cache may still hold `old` at a word that now holds `new`. -/
def noteStale (copies : List StaleCopy) (a : Nat) (old new : Word) : List StaleCopy :=
  if old = new ∨ ⟨wordBase a, old⟩ ∈ copies then copies else ⟨wordBase a, old⟩ :: copies

/-- This processor's own store goes into its own older copies too: it always sees its own stores (20_memory R130a). -/
def storeIntoStale (copies : List StaleCopy) (a : Nat) (w : Width) (v : Word) : List StaleCopy :=
  copies.map fun c => if c.addr = wordBase a then ⟨c.addr, putLane c.word a w v⟩ else c

/-- Without the copies of one page frame (20_memory R125, command 10). -/
def dropFrame (copies : List StaleCopy) (frame : Nat) : List StaleCopy :=
  copies.filter fun c => c.addr / 4096 != frame

end Sys2Proof.Machine
end

