-- ==== Sys2Proof/Machine/Tb.lean ====
section
/-! DEFINITION. The translation buffers (spec/20_memory.md R95 to R113): PTE and tag fields, lookup, insertion,
invalidation, and translation of an address. -/

namespace Sys2Proof.Machine

/-! The bit positions of a PTE are the parameter PTE_LAYOUT (00_scope R5, 20_memory R96; log 10), the argument `l`. -/

/-- V, the translation is valid. -/
def pteV (l : PteLayout) (pte : Word) : Bool := pte.getLsbD l.v
/-- W, the page is writable. -/
def pteW (l : PteLayout) (pte : Word) : Bool := pte.getLsbD l.w
/-- K, kernel mode only. -/
def pteK (l : PteLayout) (pte : Word) : Bool := pte.getLsbD l.k
/-- N, bypass the caches. -/
def pteN (l : PteLayout) (pte : Word) : Bool := pte.getLsbD l.n
/-- G, matches regardless of the ASID. -/
def pteG (l : PteLayout) (pte : Word) : Bool := pte.getLsbD l.g
/-- The physical page number. -/
def ptePfn (l : PteLayout) (pte : Word) : BitVec 20 := pte.extractLsb' l.pfn 20

/-- The virtual page number of an address (R95). -/
def vpnOf (va : Word) : BitVec 20 := va.extractLsb' 12 20
/-- The byte offset of an address (R95). -/
def pageOffset (va : Word) : BitVec 12 := va.extractLsb' 0 12
/-- The ASID of a tag (10_state R41). -/
def tagAsid (tag : Word) : BitVec 12 := tag.extractLsb' 20 12
/-- The VPN of a tag (10_state R41). -/
def tagVpn (tag : Word) : BitVec 20 := tag.extractLsb' 0 20

/-- The size of a TB (00_scope R5). -/
def tbSize : TbSel → Nat
  | .itb => Config.itbSize
  | .dtb => Config.dtbSize

/-- Whether a used entry matches a page under the current ASID (R101). V takes no part. -/
def TbEntry.hit (l : PteLayout) (e : TbEntry) (vpn : BitVec 20) (asid : BitVec 12) : Bool :=
  tagVpn e.tag == vpn && (pteG l e.pte || tagAsid e.tag == asid)

/-- The entries that match (R100). -/
def Tb.hits (l : PteLayout) (tb : Tb) (vpn : BitVec 20) (asid : BitVec 12) : List TbEntry :=
  (tb.map TbSlot.entry).filter fun e => e.hit l vpn asid

/-- The entry at an index becomes used with new contents (R108). -/
def Tb.put : Tb → Nat → TbEntry → Tb
  | [], i, e => [⟨i, e⟩]
  | x :: rest, i, e =>
    if i < x.index then ⟨i, e⟩ :: x :: rest
    else if i = x.index then ⟨i, e⟩ :: rest
    else x :: Tb.put rest i e

/-- Indices strictly rise and lie below the size. -/
abbrev Tb.wf (tb : Tb) (size : Nat) : Prop :=
  tb.Pairwise (fun x y => x.index < y.index) ∧ ∀ x ∈ tb, x.index < size

/-- A TB with free contents, as a reset leaves it (10_state R60). -/
def Tb.ofFree (size : Nat) (l : List (Nat × Word × Word)) : Tb :=
  (l.filter fun x => x.1 < size).foldl (fun tb x => tb.put x.1 ⟨x.2.1, x.2.2⟩) []

/-- An invalidation command (R111): the entries that stay used. Command 00 takes the page in bits 31:12 and needs bits
11:2 zero (D30, log 27). -/
def tbCommand (l : PteLayout) (tb : Tb) (v : Word) : Access Tb :=
  match v.extractLsb' 0 2 with
  | 3#2 => .ok []
  | 2#2 => .ok (tb.filter fun x => x.index < 4 || pteG l x.entry.pte)
  | 1#2 => .ok (tb.filter fun x => x.index < 4)
  | _ =>
    if v.extractLsb' 2 10 = 0 then .ok (tb.filter fun x => tagVpn x.entry.tag != vpnOf v)
    else .refused .commandBits

/-- Which TB translates an access (R98). -/
def AccessKind.tb : AccessKind → TbSel
  | .fetch => .itb
  | .read => .dtb
  | .write => .dtb

/-- Whether a matching PTE allows an access, in usermode or not (R103). -/
def suitable (l : PteLayout) (pte : Word) (kind : AccessKind) (user : Bool) : Bool :=
  pteV l pte && !(pteK l pte && user) && !(kind == .write && !pteW l pte)

/-- The physical address of a page's offset (R96, R100). -/
def physOf (l : PteLayout) (pte va : Word) : Word := ptePfn l pte ++ pageOffset va

end Sys2Proof.Machine
end

