-- ==== Sys2Proof/Machine/Ops.lean ====
section
/-! DEFINITION. The shared operations: registers under the zero-register rule (spec/10_state.md R22, R23), the fields
of RS (R30 to R32), taking an exception (spec/60_exceptions.md R355 to R365) and returning from one
(spec/45_privileged_101001.md R336), memory accesses with their checks (spec/20_memory.md R86 to R104, R120 to R128,
R135), and reading and writing control registers (45_privileged R331, R332). -/

namespace Sys2Proof.Machine

/-! ## RS -/

/-- RS.U: usermode (R31). -/
def State.bitU (s : State) : Bool := s.rs[0]
/-- RS.I: external interrupts enabled. -/
def State.bitI (s : State) : Bool := s.rs[1]
/-- RS.M: paged virtual addressing enabled. -/
def State.bitM (s : State) : Bool := s.rs[2]
/-- RS.T: a TB miss is in progress. -/
def State.bitT (s : State) : Bool := s.rs[3]
/-- RS.ECAUSE (R30). -/
def State.ecause (s : State) : BitVec 4 := s.rs.extractLsb' 28 4

/-- RS with another ECAUSE. -/
def rsWithCause (code : BitVec 4) (rs : Word) : Word := code ++ rs.extractLsb' 0 28

/-- RS after a normal exception entry (60_exceptions R356 to R358): ECAUSE set, both saved levels pushed by one, U and I
cleared, the rest of the current mode kept. -/
def rsEntered (code : BitVec 4) (rs : Word) : Word :=
  code ++ rs.extractLsb' 24 4 ++ rs.extractLsb' 0 16 ++ rs.extractLsb' 2 6 ++ 0#2

/-- RS after the pop of RFE (45_privileged R336): bits 23:8 move to 15:0, 23:16 become zero, 31:24 stay. -/
def rsPopped (rs : Word) : Word := rs.extractLsb' 24 8 ++ 0#8 ++ rs.extractLsb' 8 16

/-- The MBZ bits of RS that a software write may not set (R30, U4): 27:24 and 7:4. -/
def rsMbz : Word := 0x0F0000F0

/-- RS as software's write of `v` leaves it (10_state R32): every bit as written, but a bit written 1 where MBZ stands
is free (log 22). -/
def rsWritten (n : Nat) (v : Word) : Word :=
  if v &&& rsMbz = 0 then v else v &&& ~~~(v &&& rsMbz &&& Config.freeWord n .mbz)

/-- A new RS. When T goes from 0 to 1 the stored register 0 becomes a free value (R24). -/
def State.setRs (s : State) (rs : Word) : State :=
  { s with
    rs := rs
    regs :=
      if !s.bitT && rs[3] then s.regs.set 0 (Config.freeWord s.fresh .regZero) else s.regs }

/-! ## General registers and the pc -/

/-- Whether a register number means the wired zero: register 0 while RS.T is clear (R22). -/
def State.wired (s : State) (r : RegNum) : Bool := r == 0 && !s.bitT

/-- `x[r]` (R22): the wired zero reads as zero. -/
def State.readReg (s : State) (r : RegNum) : Word :=
  if s.wired r then 0 else s.regs[r.toNat]'r.isLt

/-- `x[r] <- v` (R23): a write to the wired zero is ignored. -/
def State.writeReg (s : State) (r : RegNum) (v : Word) : State :=
  { s with regs := if s.wired r then s.regs else s.regs.set r.toNat v r.isLt }

/-- The next sequential pc, modulo 2^32 (R27, R28). -/
def State.nextPc (s : State) : Word := s.pc + 4

/-- `pc <- pc + 4` (R27). -/
def State.advance (s : State) : State := { s with pc := s.nextPc }

/-- `pc <- target`. -/
def State.goto (s : State) (target : Word) : State := { s with pc := target }

/-- The NMI mask counter is reloaded (60_exceptions R377). -/
def State.reloadNmiMask (s : State) : State := { s with nmiMask := Config.nmiMaskInsns }

/-! ## Taking an exception -/

/-- The ECAUSE codes (60_exceptions R350). -/
def Cause.code : Cause → BitVec 4
  | .int => 1
  | .sys => 2
  | .bus => 4
  | .nmi => 5
  | .brk => 6
  | .inv => 7
  | .prv => 8
  | .una => 9
  | .pgf => 12
  | .pfw => 13
  | .itb => 14
  | .dtb => 15

/-- The cause of a page fault: PFW for a write, PGF for a read or a fetch (60_exceptions R362; 20_memory R86). -/
def pageFaultCause (write : Bool) : Cause := if write then .pfw else .pgf

/-- The cause of a TB miss (60_exceptions R379). -/
def tbMissCause : TbSel → Cause
  | .itb => .itb
  | .dtb => .dtb

/-- The address of the handler (60_exceptions R355): `EB | ECAUSE << 8`. With an EB that is not page aligned "garbage
may be loaded into PC": a free value (10_state R34, U2, log 21). -/
def vectorOf (c : Cause) (s : State) : Word :=
  if s.eb.extractLsb' 0 12 = 0 then s.eb ||| (c.code.zeroExtend 32 <<< 8) else Config.freeWord s.fresh .vector

/-- The pc a normal entry saves (60_exceptions R359): the instruction's own address; for INT and NMI pc is the next
instruction that has not executed; for SYS and BRK the parameter TRAP_EPC (log 20). -/
def savedPc (c : Cause) (s : State) : Word :=
  match c with
  | .sys | .brk => if Config.trapEpcNext then s.nextPc else s.pc
  | .int | .bus | .nmi | .inv | .prv | .una | .pgf | .pfw | .itb | .dtb => s.pc

/-- Normal exception entry (60_exceptions R356), with the bad address where the cause has one (R365). -/
def normalEntry (c : Cause) (bad : Option Word) (s : State) : State :=
  { s with
    epc := savedPc c s
    ebadaddr := bad.getD s.ebadaddr
    rs := rsEntered c.code s.rs
    pc := vectorOf c s
    nmiMask := Config.nmiMaskInsns
    halted := false }

/-- What a miss writes for the handler's help whatever T is (20_memory R113): the VPN into xTBTAG and the offset of the
PTE into xTBADDR. -/
def noteMiss (b : TbSel) (va : Word) (s : State) : State :=
  match b with
  | .itb =>
    { s with
      itbTag := tagAsid s.itbTag ++ vpnOf va
      itbAddr := s.itbAddr.extractLsb' 22 10 ++ vpnOf va ++ 0#2 }
  | .dtb =>
    { s with
      dtbTag := tagAsid s.dtbTag ++ vpnOf va
      dtbAddr := s.dtbAddr.extractLsb' 22 10 ++ vpnOf va ++ 0#2 }

/-- RS in the two special entries, which do not push: ECAUSE is either kept or set (60_exceptions R361, R363; D9). -/
def rsSpecial (c : Cause) (s : State) : Word :=
  if Config.freeBool s.fresh .ecause then s.rs else rsWithCause c.code s.rs

/-- TB miss entry with RS.T = 0 (60_exceptions R360). -/
def firstMissEntry (kind : AccessKind) (va : Word) (s : State) : State :=
  { (noteMiss kind.tb va s).setRs (rsEntered (tbMissCause kind.tb).code s.rs ||| 8) with
    tbmissaddr := va
    tbpc := s.pc
    missWasWrite := kind == .write
    pc := vectorOf (tbMissCause kind.tb) s
    nmiMask := Config.nmiMaskInsns }

/-- TB miss entry with RS.T = 1 (60_exceptions R361): nothing is pushed or saved. -/
def nestedMissEntry (kind : AccessKind) (va : Word) (s : State) : State :=
  { noteMiss kind.tb va s with
    rs := rsSpecial (tbMissCause kind.tb) s
    pc := vectorOf (tbMissCause kind.tb) s
    nmiMask := Config.nmiMaskInsns }

/-- Page fault entry with RS.T = 1 (60_exceptions R363): it looks like a fault on the address that first missed. -/
def nestedFaultEntry (s : State) : State :=
  { s with
    ebadaddr := s.tbmissaddr
    epc := s.tbpc
    rs := rsSpecial (pageFaultCause s.missWasWrite) s &&& ~~~8
    pc := vectorOf (pageFaultCause s.missWasWrite) s
    nmiMask := Config.nmiMaskInsns }

/-- Taking an exception: the one operation every entry goes through (60_exceptions R356 to R365). -/
def takeException (e : Exc) (s : State) : State :=
  match e with
  | .plain c => normalEntry c none s
  | .bus pa => normalEntry .bus (some pa) s
  | .una va => normalEntry .una (some va) s
  | .pageFault kind va =>
    if s.bitT then nestedFaultEntry s else normalEntry (pageFaultCause (kind == .write)) (some va) s
  | .tbMiss kind va => if s.bitT then nestedMissEntry kind va s else firstMissEntry kind va s

/-- Return from exception (45_privileged R336). -/
def returnFromException (s : State) : State :=
  { s.setRs (rsPopped s.rs) with
    pc := if s.bitT then s.tbpc else s.epc
    locked := false }

/-! ## How an access ends -/

/-- One access after another. -/
def Access.bind {α β : Type} (r : Access α) (k : α → Access β) : Access β :=
  match r with
  | .ok a => k a
  | .trap e => .trap e
  | .fault f => .fault f
  | .refused r => .refused r

/-- An access that an instruction ends with: the continuation on a value, the exception's entry from the unchanged
state (20_memory R91, 60_exceptions R352), or the stop. -/
def Access.finish {α : Type} (r : Access α) (s : State) (k : α → Result) : Result :=
  match r with
  | .ok a => k a
  | .trap e => .next (takeException e s)
  | .fault f => .fault f
  | .refused r => .refused r

/-! ## Translation -/

/-- The used entries of a TB. -/
def State.tbOf (s : State) : TbSel → Tb
  | .itb => s.itb
  | .dtb => s.dtb

/-- xTBTAG. -/
def State.tagOf (s : State) : TbSel → Word
  | .itb => s.itbTag
  | .dtb => s.dtbTag

/-- The end of a translation that found one entry (20_memory R100, R103). -/
def translateBy (e : TbEntry) (va : Word) (kind : AccessKind) (s : State) : Access (Word × Bool) :=
  if suitable s.pteLayout e.pte kind s.bitU then .ok (physOf s.pteLayout e.pte va, pteN s.pteLayout e.pte)
  else .trap (.pageFault kind va)

/-- `Translate(va, kind)` (20_memory R100): the physical address and whether the access bypasses the caches. -/
def translateVa (va : Word) (kind : AccessKind) (s : State) : Access (Word × Bool) :=
  if s.bitM then
    if tagAsid (s.tagOf kind.tb) = 0xFFF then .fault .reservedAsid
    else
      match (s.tbOf kind.tb).hits s.pteLayout (vpnOf va) (tagAsid (s.tagOf kind.tb)) with
      | [] => .trap (.tbMiss kind va)
      | [e] => translateBy e va kind s
      | _ :: _ :: _ => .refused .severalTbMatches
  else .ok (va, decide (0xC0000000 ≤ va))

/-- The checks of an access before the bus (20_memory R87): alignment, then translation. -/
def resolve (va : Word) (w : Width) (kind : AccessKind) (s : State) : Access (Word × Bool) :=
  if w.aligned va then translateVa va kind s else .trap (.una va)

/-! ## Physical accesses -/

/-- What a read of memory sees, through a cache that may hold `copies` (20_memory R121, R128), or around it. -/
def seenThrough (copies : List StaleCopy) (n : Nat) (mem : Memory) (pa : Word) (w : Width) (bypass : Bool) : Word :=
  match (if bypass then [] else staleWords copies pa.toNat) with
  | [] => mem.readLE pa.toNat w
  | o :: older => lane (chooseCopy n (mem.readLE (wordBase pa.toNat) .long) (o :: older)) pa.toNat w

/-- The state after a device answered an access. One that bypasses the caches reaches the device exactly once (20_memory
R123, R137); one that goes through a cache, which R137 forbids software, reaches it or not (log 8). -/
def noteDevice (a : DeviceAccess) (bypass : Bool) (s : State) : State :=
  if bypass || Config.freeBool s.fresh (.deviceReached (a.kind == .fetch)) then
    { s with deviceLog := a :: s.deviceLog }
  else s

/-- A device's answer to an access (00_scope R7, 20_memory R135; log 8): the environment completes it or refuses it with a
bus error. -/
def deviceAnswer (a : DeviceAccess) (bypass : Bool) (s : State) : Access (Word × State) :=
  if Config.freeBool s.fresh (.deviceRefuses (a.kind == .fetch)) then .trap (.bus a.addr)
  else .ok (a.value, noteDevice a bypass s)

/-- The value a device gives a read of a width (log 8). -/
def deviceValue (fetch : Bool) (w : Width) (s : State) : Word :=
  Config.freeWord s.fresh (.deviceValue fetch) &&& w.mask

/-- `PhysRead` (20_memory R135): the value, and the state after the access. -/
def physRead (pa : Word) (w : Width) (bypass : Bool) (s : State) : Access (Word × State) :=
  match regionAt s.regions pa.toNat with
  | .empty => .trap (.bus pa)
  | .device effect => deviceAnswer ⟨.read, pa, w, deviceValue false w s, effect⟩ bypass s
  | .ram | .rom => .ok (seenThrough s.dcacheStale (Config.freeNat s.fresh .dcache) s.mem pa w bypass, s)

/-- `PhysFetch` (20_memory R135, R121): the word, and the state after the access. -/
def physFetch (pa : Word) (bypass : Bool) (s : State) : Access (Word × State) :=
  match regionAt s.regions pa.toNat with
  | .empty => .trap (.bus pa)
  | .device effect => deviceAnswer ⟨.fetch, pa, .long, deviceValue true .long s, effect⟩ bypass s
  | .ram | .rom => .ok (seenThrough s.icacheStale (Config.freeNat s.fresh .icache) s.mem pa .long bypass, s)

/-- Memory after a store by any agent: the bytes change and the Icache may keep the old word (20_memory R121). -/
def State.storeBytes (s : State) (pa : Nat) (w : Width) (v : Word) : State :=
  { s with
    mem := s.mem.writeLE pa w v
    icacheStale :=
      noteStale s.icacheStale pa (s.mem.readLE (wordBase pa) .long)
        ((s.mem.writeLE pa w v).readLE (wordBase pa) .long) }

/-- This processor's store to memory: it also goes into what its Dcache holds (20_memory R130a). -/
def State.ownStore (s : State) (pa : Nat) (w : Width) (v : Word) : State :=
  { s.storeBytes pa w v with dcacheStale := storeIntoStale s.dcacheStale pa w v }

/-- `PhysWrite` (20_memory R135): the state after the access. What a store to ROM does is not stated: it is either
discarded or a bus error (log 9). -/
def physWrite (pa : Word) (w : Width) (v : Word) (bypass : Bool) (s : State) : Access State :=
  match regionAt s.regions pa.toNat with
  | .empty => .trap (.bus pa)
  | .device _ => (deviceAnswer ⟨.write, pa, w, v &&& w.mask, true⟩ bypass s).bind fun p => .ok p.2
  | .rom => if Config.freeBool s.fresh .rom then .trap (.bus pa) else .ok s
  | .ram => .ok (s.ownStore pa.toNat w v)

/-! ## Data accesses -/

/-- `MemRead(va, n)`, zero-extended (20_memory R88; 42_imm_operate R230 `LOAD_EXTEND`, log 11), and the state after it. -/
def memRead (va : Word) (w : Width) (s : State) : Access (Word × State) :=
  (resolve va w .read s).bind fun p => physRead p.1 w p.2 s

/-- `MemWrite(va, n, v)` (20_memory R89): the state after the store. -/
def memWrite (va : Word) (w : Width) (v : Word) (s : State) : Access State :=
  (resolve va w .write s).bind fun p => physWrite p.1 w v p.2 s

/-! ## Control registers -/

/-- The register a control register number names; none where the number is absent (10_state R46, R48). -/
def CtrlReg.ofNum (n : CrNum) : Option CtrlReg :=
  match n with
  | 0#5 => some .rs
  | 1#5 => some .whami
  | 5#5 => some .eb
  | 6#5 => some .epc
  | 7#5 => some .ebadaddr
  | 9#5 => some .tbmissaddr
  | 10#5 => some .tbpc
  | 11#5 => some .scratch0
  | 12#5 => some .scratch1
  | 13#5 => some .scratch2
  | 14#5 => some .scratch3
  | 15#5 => some .scratch4
  | 16#5 => some (.tbPte .itb)
  | 17#5 => some (.tbTag .itb)
  | 18#5 => some (.tbIndex .itb)
  | 19#5 => some (.tbCtrl .itb)
  | 20#5 => some (.cacheCtrl .itb)
  | 21#5 => some (.tbAddr .itb)
  | 24#5 => some (.tbPte .dtb)
  | 25#5 => some (.tbTag .dtb)
  | 26#5 => some (.tbIndex .dtb)
  | 27#5 => some (.tbCtrl .dtb)
  | 28#5 => some (.cacheCtrl .dtb)
  | 29#5 => some (.tbAddr .dtb)
  | _ => none

/-- What ICACHECTRL and DCACHECTRL read as: a constant of the implementation (10_state R44). -/
def cacheGeometry : TbSel → Word
  | .itb => Config.cacheReadLayout Config.icLinesLog Config.icWaysLog Config.icLineSizeLog
  | .dtb => Config.cacheReadLayout Config.dcLinesLog Config.dcWaysLog Config.dcLineSizeLog

/-- The value MFCR reads (45_privileged R331). xTBPTE and xTBCTRL read as a free value (U6, U9). -/
def readControl (c : CtrlReg) (s : State) : Word :=
  match c with
  | .rs => s.rs
  | .whami => s.whami
  | .eb => s.eb
  | .epc => s.epc
  | .ebadaddr => s.ebadaddr
  | .tbmissaddr => s.tbmissaddr
  | .tbpc => s.tbpc
  | .scratch0 => s.scratch0
  | .scratch1 => s.scratch1
  | .scratch2 => s.scratch2
  | .scratch3 => s.scratch3
  | .scratch4 => s.scratch4
  | .tbPte _ => Config.freeWord s.fresh .crRead
  | .tbTag b => s.tagOf b
  | .tbIndex .itb => s.itbIndex
  | .tbIndex .dtb => s.dtbIndex
  | .tbCtrl _ => Config.freeWord s.fresh .crRead
  | .cacheCtrl b => cacheGeometry b
  | .tbAddr .itb => s.itbAddr
  | .tbAddr .dtb => s.dtbAddr

/-- A TB and its index after an insertion (20_memory R108): FIFO replacement, wrapping to 4. With an index that is not
below the size the target and the next index are free (U8, log 23). -/
def insertion (tb : Tb) (size : Nat) (index : Word) (e : TbEntry) (n : Nat) : Tb × Word :=
  if index.toNat < size then
    (tb.put index.toNat e, if index.toNat + 1 = size then 4 else index + 1)
  else if Config.freeNat n .tbIndex < size then
    (tb.put (Config.freeNat n .tbIndex) e, Config.freeWord n .tbIndex)
  else (tb, Config.freeWord n .tbIndex)

/-- A write to ITBPTE or DTBPTE (20_memory R108). -/
def insertEntry (b : TbSel) (v : Word) (s : State) : State :=
  match b with
  | .itb =>
    let r := insertion s.itb (tbSize .itb) s.itbIndex ⟨s.itbTag, v⟩ s.fresh
    { s with itb := r.1, itbIndex := r.2 }
  | .dtb =>
    let r := insertion s.dtb (tbSize .dtb) s.dtbIndex ⟨s.dtbTag, v⟩ s.fresh
    { s with dtb := r.1, dtbIndex := r.2 }

/-- A write to ITBCTRL or DTBCTRL (20_memory R111). -/
def commandTb (b : TbSel) (v : Word) (s : State) : Access State :=
  match b with
  | .itb => (tbCommand s.pteLayout s.itb v).bind fun tb => .ok { s with itb := tb }
  | .dtb => (tbCommand s.pteLayout s.dtb v).bind fun tb => .ok { s with dtb := tb }

/-- A cache invalidation command on the copies a cache holds (20_memory R125): 11 all, 10 one page frame in bits 31:12
(D30), the others unpredictable (U10). -/
def cacheCommand (copies : List StaleCopy) (v : Word) : Access (List StaleCopy) :=
  match v.extractLsb' 0 2 with
  | 3#2 => .ok []
  | 2#2 =>
    if v.extractLsb' 2 10 = 0 then .ok (dropFrame copies (v.extractLsb' 12 20).toNat) else .refused .commandBits
  | _ => .fault .unpredictableCacheCommand

/-- A write to ICACHECTRL or DCACHECTRL. -/
def commandCache (b : TbSel) (v : Word) (s : State) : Access State :=
  match b with
  | .itb => (cacheCommand s.icacheStale v).bind fun c => .ok { s with icacheStale := c }
  | .dtb => (cacheCommand s.dcacheStale v).bind fun c => .ok { s with dcacheStale := c }

/-- What MTCR does to the register it names (45_privileged R332). -/
def writeControl (c : CtrlReg) (v : Word) (s : State) : Access State :=
  match c with
  | .rs => .ok (s.setRs (rsWritten s.fresh v))
  | .whami => .refused .whamiWrite
  | .eb => .ok { s with eb := v }
  | .epc => .ok { s with epc := v }
  | .ebadaddr => .ok { s with ebadaddr := v }
  | .tbmissaddr => .ok { s with tbmissaddr := v }
  | .tbpc => .ok { s with tbpc := v }
  | .scratch0 => .ok { s with scratch0 := v }
  | .scratch1 => .ok { s with scratch1 := v }
  | .scratch2 => .ok { s with scratch2 := v }
  | .scratch3 => .ok { s with scratch3 := v }
  | .scratch4 => .ok { s with scratch4 := v }
  | .tbPte b => .ok (insertEntry b v s)
  | .tbTag .itb => .ok { s with itbTag := v }
  | .tbTag .dtb => .ok { s with dtbTag := v }
  | .tbIndex .itb => .ok { s with itbIndex := v }
  | .tbIndex .dtb => .ok { s with dtbIndex := v }
  | .tbCtrl b => commandTb b v s
  | .cacheCtrl b => commandCache b v s
  | .tbAddr .itb => .ok { s with itbAddr := v }
  | .tbAddr .dtb => .ok { s with dtbAddr := v }

/-! ## Shapes of meanings -/

/-- An instruction that writes one register and goes on. -/
def writeAndAdvance (ra : RegNum) (v : Word) (s : State) : Result := .next (s.writeReg ra v).advance

/-- A load (42_imm_operate R230): the access, then the register, then the pc. -/
def loadInto (ra : RegNum) (va : Word) (w : Width) (s : State) : Result :=
  (memRead va w s).finish s fun p => writeAndAdvance ra p.1 p.2

/-- A store (42_imm_operate R234). -/
def storeFrom (va : Word) (w : Width) (v : Word) (s : State) : Result :=
  (memWrite va w v s).finish s fun t => .next t.advance

/-- A conditional branch (41_branch R200). -/
def branchIf (taken : Bool) (imm : BitVec 21) (s : State) : Result :=
  .next (s.goto (if taken then s.pc + branchOffset imm else s.nextPc))

/-- An instruction of opcode 0x29 (45_privileged R330): PRV in usermode. -/
def privileged (s : State) (k : Result) : Result :=
  if s.bitU then .next (takeException (.plain .prv) s) else k

/-- The shifted register C (43_reg_operate R260). -/
def State.shifted (s : State) (sc : ShiftedReg) : Word := shiftBy sc.kind (s.readReg sc.rc) sc.amount

end Sys2Proof.Machine
end

