-- ==== Sys2Proof/Machine/Branch.lean ====
section
/-! DEFINITION. The eight branches (spec/41_branch.md). The test reads the register under the zero-register rule. -/

namespace Sys2Proof.Machine

/-- BEQ (R201). -/
def execBeq (ra : RegNum) (imm : BitVec 21) (s : State) : Result := branchIf (isZero (s.readReg ra)) imm s

/-- BNE (R202). -/
def execBne (ra : RegNum) (imm : BitVec 21) (s : State) : Result := branchIf (isNonzero (s.readReg ra)) imm s

/-- BLT (R203). -/
def execBlt (ra : RegNum) (imm : BitVec 21) (s : State) : Result := branchIf (isNegative (s.readReg ra)) imm s

/-- BGT (R204). -/
def execBgt (ra : RegNum) (imm : BitVec 21) (s : State) : Result := branchIf (isPositive (s.readReg ra)) imm s

/-- BLE (R205). -/
def execBle (ra : RegNum) (imm : BitVec 21) (s : State) : Result := branchIf (isNotPositive (s.readReg ra)) imm s

/-- BGE (R206). -/
def execBge (ra : RegNum) (imm : BitVec 21) (s : State) : Result := branchIf (isNotNegative (s.readReg ra)) imm s

/-- BPE (R207). -/
def execBpe (ra : RegNum) (imm : BitVec 21) (s : State) : Result := branchIf (isEven (s.readReg ra)) imm s

/-- BPO (R208). -/
def execBpo (ra : RegNum) (imm : BitVec 21) (s : State) : Result := branchIf (isOdd (s.readReg ra)) imm s

end Sys2Proof.Machine
end

