-- ==== Sys2Proof/Machine/ImmOperate.lean ====
section
/-! DEFINITION. Arithmetic and logic with an immediate, and JALR (spec/42_imm_operate.md, sections 1 and 4). -/

namespace Sys2Proof.Machine

/-- ADDI (R220). -/
def execAddi (ra rb : RegNum) (imm : BitVec 16) (s : State) : Result :=
  writeAndAdvance ra (s.readReg rb + zext16 imm) s

/-- SUBI (R221). -/
def execSubi (ra rb : RegNum) (imm : BitVec 16) (s : State) : Result :=
  writeAndAdvance ra (s.readReg rb - zext16 imm) s

/-- SLTI (R222). -/
def execSlti (ra rb : RegNum) (imm : BitVec 16) (s : State) : Result :=
  writeAndAdvance ra (lessUnsigned (s.readReg rb) (zext16 imm)) s

/-- SLTI SIGNED (R223). -/
def execSltiSigned (ra rb : RegNum) (imm : BitVec 16) (s : State) : Result :=
  writeAndAdvance ra (lessSigned (s.readReg rb) (sext16 imm)) s

/-- ANDI (R224). -/
def execAndi (ra rb : RegNum) (imm : BitVec 16) (s : State) : Result :=
  writeAndAdvance ra (s.readReg rb &&& zext16 imm) s

/-- XORI (R225). -/
def execXori (ra rb : RegNum) (imm : BitVec 16) (s : State) : Result :=
  writeAndAdvance ra (s.readReg rb ^^^ zext16 imm) s

/-- ORI (R226). -/
def execOri (ra rb : RegNum) (imm : BitVec 16) (s : State) : Result :=
  writeAndAdvance ra (s.readReg rb ||| zext16 imm) s

/-- LUI (R227). -/
def execLui (ra rb : RegNum) (imm : BitVec 16) (s : State) : Result :=
  writeAndAdvance ra (s.readReg rb ||| upper16 imm) s

/-- The target and the link of JALR (R243). With RA = RB, where the link is really written, the spec leaves open whether
Register B is read before or after the link (R244b): the base is then one of the two, freely (log 14). -/
def jalrBase (ra rb : RegNum) (s : State) : Word :=
  if ra = rb ∧ s.wired ra = false ∧ Config.freeBool s.fresh .jalr = true then s.nextPc else s.readReg rb

/-- JALR (R243). The target is not forced to alignment (R244a). -/
def execJalr (ra rb : RegNum) (imm : BitVec 16) (s : State) : Result :=
  .next ((s.writeReg ra s.nextPc).goto (jalrBase ra rb s + jalrOffset imm))

end Sys2Proof.Machine
end

