-- ==== Sys2Proof/Machine/Jump.lean ====
section
/-! DEFINITION. J and JAL (spec/40_jump.md). -/

namespace Sys2Proof.Machine

/-- J (R190): bit 31 of the target is the pc's. -/
def execJ (imm : BitVec 29) (s : State) : Result := .next (s.goto (jumpTarget s.pc imm))

/-- JAL (R191): the link goes to register 31, whatever RS.T is. -/
def execJal (imm : BitVec 29) (s : State) : Result :=
  .next ((s.writeReg 31 s.nextPc).goto (jumpTarget s.pc imm))

end Sys2Proof.Machine
end

