-- ==== Sys2Proof/Machine/LoadStore.lean ====
section
/-! DEFINITION. Loads and stores (spec/42_imm_operate.md, sections 2 and 3; spec/43_reg_operate_111001.md, section 1). -/

namespace Sys2Proof.Machine

/-- Load Byte, Immediate Offset (R231). -/
def execLoadByte (ra rb : RegNum) (imm : BitVec 16) (s : State) : Result :=
  loadInto ra (s.readReg rb + scaledOffset .byte imm) .byte s

/-- Load Int, Immediate Offset (R232). -/
def execLoadInt (ra rb : RegNum) (imm : BitVec 16) (s : State) : Result :=
  loadInto ra (s.readReg rb + scaledOffset .int imm) .int s

/-- Load Long, Immediate Offset (R233). -/
def execLoadLong (ra rb : RegNum) (imm : BitVec 16) (s : State) : Result :=
  loadInto ra (s.readReg rb + scaledOffset .long imm) .long s

/-- Store Byte, Immediate Offset (R235): RA is the base, RB the data. -/
def execStoreByte (ra rb : RegNum) (imm : BitVec 16) (s : State) : Result :=
  storeFrom (s.readReg ra + scaledOffset .byte imm) .byte (s.readReg rb) s

/-- Store Int, Immediate Offset (R236): RA is the base, RB the data. -/
def execStoreInt (ra rb : RegNum) (imm : BitVec 16) (s : State) : Result :=
  storeFrom (s.readReg ra + scaledOffset .int imm) .int (s.readReg rb) s

/-- Store Long, Immediate Offset (R237): RA is the base, RB the data. -/
def execStoreLong (ra rb : RegNum) (imm : BitVec 16) (s : State) : Result :=
  storeFrom (s.readReg ra + scaledOffset .long imm) .long (s.readReg rb) s

/-- Store Byte, Small Immediate (R239). -/
def execStoreByteSmall (ra : RegNum) (small : BitVec 5) (imm : BitVec 16) (s : State) : Result :=
  storeFrom (s.readReg ra + scaledOffset .byte imm) .byte (smallData small) s

/-- Store Int, Small Immediate (R240). -/
def execStoreIntSmall (ra : RegNum) (small : BitVec 5) (imm : BitVec 16) (s : State) : Result :=
  storeFrom (s.readReg ra + scaledOffset .int imm) .int (smallData small) s

/-- Store Long, Small Immediate (R241). -/
def execStoreLongSmall (ra : RegNum) (small : BitVec 5) (imm : BitVec 16) (s : State) : Result :=
  storeFrom (s.readReg ra + scaledOffset .long imm) .long (smallData small) s

/-- Load Byte, Register Offset (R261): the offset is not scaled. -/
def execLoadByteX (ra rb : RegNum) (sc : ShiftedReg) (s : State) : Result :=
  loadInto ra (s.readReg rb + s.shifted sc) .byte s

/-- Load Int, Register Offset (R262): the offset is not scaled. -/
def execLoadIntX (ra rb : RegNum) (sc : ShiftedReg) (s : State) : Result :=
  loadInto ra (s.readReg rb + s.shifted sc) .int s

/-- Load Long, Register Offset (R263): the offset is not scaled. -/
def execLoadLongX (ra rb : RegNum) (sc : ShiftedReg) (s : State) : Result :=
  loadInto ra (s.readReg rb + s.shifted sc) .long s

/-- Store Byte, Register Offset (R264): RB is the base, RA the data. -/
def execStoreByteX (ra rb : RegNum) (sc : ShiftedReg) (s : State) : Result :=
  storeFrom (s.readReg rb + s.shifted sc) .byte (s.readReg ra) s

/-- Store Int, Register Offset (R265): RB is the base, RA the data. -/
def execStoreIntX (ra rb : RegNum) (sc : ShiftedReg) (s : State) : Result :=
  storeFrom (s.readReg rb + s.shifted sc) .int (s.readReg ra) s

/-- Store Long, Register Offset (R266): RB is the base, RA the data. -/
def execStoreLongX (ra rb : RegNum) (sc : ShiftedReg) (s : State) : Result :=
  storeFrom (s.readReg rb + s.shifted sc) .long (s.readReg ra) s

end Sys2Proof.Machine
end

