-- ==== Sys2Proof/Machine/MulDiv.lean ====
section
/-! DEFINITION. Multiply and divide (spec/44_reg_operate_110001.md, section 1). -/

namespace Sys2Proof.Machine

/-- The unsigned quotient; free for a zero divisor (R302, R305a, log 12). -/
def quotient (n : Nat) (a b : Word) : Word := if b = 0 then Config.freeWord n .divZero else a.udiv b

/-- The unsigned remainder; free for a zero divisor (R304, R305a). -/
def remainder (n : Nat) (a b : Word) : Word := if b = 0 then Config.freeWord n .divZero else a.umod b

/-- The signed quotient, rounded toward zero; free for a zero divisor and for the one quotient that does not fit
(R303, R305). -/
def signedQuotient (n : Nat) (a b : Word) : Word :=
  if b = 0 then Config.freeWord n .divZero
  else if a = 0x80000000 ∧ b = 0xFFFFFFFF then Config.freeWord n .divOverflow
  else a.sdiv b

/-- MUL (R301): the low 32 bits of the product. -/
def execMul (ra rb rc : RegNum) (s : State) : Result :=
  writeAndAdvance ra (s.readReg rb * s.readReg rc) s

/-- DIV (R302). -/
def execDiv (ra rb rc : RegNum) (s : State) : Result :=
  writeAndAdvance ra (quotient s.fresh (s.readReg rb) (s.readReg rc)) s

/-- DIV SIGNED (R303). -/
def execDivSigned (ra rb rc : RegNum) (s : State) : Result :=
  writeAndAdvance ra (signedQuotient s.fresh (s.readReg rb) (s.readReg rc)) s

/-- MOD (R304). -/
def execMod (ra rb rc : RegNum) (s : State) : Result :=
  writeAndAdvance ra (remainder s.fresh (s.readReg rb) (s.readReg rc)) s

end Sys2Proof.Machine
end

