-- ==== Sys2Proof/Machine/Privileged.lean ====
section
/-! DEFINITION. The privileged instructions, opcode 0x29 (spec/45_privileged_101001.md). -/

namespace Sys2Proof.Machine

/-- MFCR (R331). -/
def execMfcr (ra : RegNum) (cr : CrNum) (s : State) : Result :=
  privileged s <|
    match CtrlReg.ofNum cr with
    | some c => .next (s.writeReg ra (readControl c s)).reloadNmiMask.advance
    | none => .fault (.absentControlRegister cr)

/-- MTCR (R332): in force from the next instruction on (R333). -/
def execMtcr (cr : CrNum) (rb : RegNum) (s : State) : Result :=
  privileged s <|
    match CtrlReg.ofNum cr with
    | some c => (writeControl c (s.readReg rb) s).finish s fun t => .next t.reloadNmiMask.advance
    | none => .fault (.absentControlRegister cr)

/-- HLT (R334). -/
def execHlt (s : State) : Result := privileged s (.next { s.advance with halted := true })

/-- RFE (R336). -/
def execRfe (s : State) : Result := privileged s (.next (returnFromException s))

end Sys2Proof.Machine
end

