-- ==== Sys2Proof/Machine/RegOperate.lean ====
section
/-! DEFINITION. Shifts by register, arithmetic, comparison and logic of opcode 0x39 (spec/43_reg_operate_111001.md, sections 2 and 3). -/

namespace Sys2Proof.Machine

/-- LSH RA, RC, RB (R271, R270): register C shifted by register B. -/
def execLsh (ra rc rb : RegNum) (s : State) : Result :=
  writeAndAdvance ra (shiftByWord s.fresh .lsh (s.readReg rc) (s.readReg rb)) s

/-- RSH RA, RC, RB (R272, R270): register C shifted by register B. -/
def execRsh (ra rc rb : RegNum) (s : State) : Result :=
  writeAndAdvance ra (shiftByWord s.fresh .rsh (s.readReg rc) (s.readReg rb)) s

/-- ASH RA, RC, RB (R273, R270): register C shifted by register B. -/
def execAsh (ra rc rb : RegNum) (s : State) : Result :=
  writeAndAdvance ra (shiftByWord s.fresh .ash (s.readReg rc) (s.readReg rb)) s

/-- ROR RA, RC, RB (R274, R270): register C shifted by register B. -/
def execRor (ra rc rb : RegNum) (s : State) : Result :=
  writeAndAdvance ra (shiftByWord s.fresh .ror (s.readReg rc) (s.readReg rb)) s

/-- ADD (R275). -/
def execAdd (ra rb : RegNum) (sc : ShiftedReg) (s : State) : Result :=
  writeAndAdvance ra (s.readReg rb + s.shifted sc) s

/-- SUB (R276). -/
def execSub (ra rb : RegNum) (sc : ShiftedReg) (s : State) : Result :=
  writeAndAdvance ra (s.readReg rb - s.shifted sc) s

/-- SLT (R277). -/
def execSlt (ra rb : RegNum) (sc : ShiftedReg) (s : State) : Result :=
  writeAndAdvance ra (lessUnsigned (s.readReg rb) (s.shifted sc)) s

/-- SLT SIGNED (R278). -/
def execSltSigned (ra rb : RegNum) (sc : ShiftedReg) (s : State) : Result :=
  writeAndAdvance ra (lessSigned (s.readReg rb) (s.shifted sc)) s

/-- AND (R279). -/
def execAnd (ra rb : RegNum) (sc : ShiftedReg) (s : State) : Result :=
  writeAndAdvance ra (s.readReg rb &&& s.shifted sc) s

/-- XOR (R280). -/
def execXor (ra rb : RegNum) (sc : ShiftedReg) (s : State) : Result :=
  writeAndAdvance ra (s.readReg rb ^^^ s.shifted sc) s

/-- OR (R281). -/
def execOr (ra rb : RegNum) (sc : ShiftedReg) (s : State) : Result :=
  writeAndAdvance ra (s.readReg rb ||| s.shifted sc) s

/-- NOR (R282). -/
def execNor (ra rb : RegNum) (sc : ShiftedReg) (s : State) : Result :=
  writeAndAdvance ra (~~~(s.readReg rb ||| s.shifted sc)) s

end Sys2Proof.Machine
end

