-- ==== Sys2Proof/Machine/Sync.lean ====
section
/-! DEFINITION. Load locked and store conditional, hints and barriers, software exceptions (spec/44_reg_operate_110001.md, sections 2 to 4). -/

namespace Sys2Proof.Machine

/-- LL (R308): the load, and the reservation on the physical address it read. -/
def execLl (ra rb : RegNum) (s : State) : Result :=
  (resolve (s.readReg rb) .long .read s).finish s fun p =>
    (physRead p.1 .long p.2 s).finish s fun r =>
      writeAndAdvance ra r.1 { r.2 with locked := true, lockedAddr := p.1 }

/-- SC (R309): the store only while the flag is set, then the flag's value as 1 or 0. The address is not compared and
the flag is not cleared. -/
def execSc (ra rb rc : RegNum) (s : State) : Result :=
  if s.locked then
    (memWrite (s.readReg rb) .long (s.readReg rc) s).finish s fun t => writeAndAdvance ra (truthWord true) t
  else writeAndAdvance ra (truthWord false) s

/-- PAUSE (R310): no architectural effect. -/
def execPause (s : State) : Result := .next s.advance

/-- MB (R311): orders accesses as other agents see them; nothing one processor can show (log 40). -/
def execMb (s : State) : Result := .next s.advance

/-- WMB (R312): as MB, for stores. -/
def execWmb (s : State) : Result := .next s.advance

/-- BRK (R313). -/
def execBrk (s : State) : Result := .next (takeException (.plain .brk) s)

/-- SYS (R314). -/
def execSys (s : State) : Result := .next (takeException (.plain .sys) s)

end Sys2Proof.Machine
end

