-- ==== Sys2Proof/Machine/Dispatch.lean ====
section
/-! DEFINITION. Every instruction's meaning, one arm each. -/

namespace Sys2Proof.Machine

/-- The meaning of an instruction. -/
def exec (i : Instr) (s : State) : Host.Outcome State Fault Refusal :=
  match i with
  | .j imm => Sys2Proof.Machine.execJ imm s
  | .jal imm => Sys2Proof.Machine.execJal imm s
  | .beq ra imm => Sys2Proof.Machine.execBeq ra imm s
  | .bne ra imm => Sys2Proof.Machine.execBne ra imm s
  | .blt ra imm => Sys2Proof.Machine.execBlt ra imm s
  | .bgt ra imm => Sys2Proof.Machine.execBgt ra imm s
  | .ble ra imm => Sys2Proof.Machine.execBle ra imm s
  | .bge ra imm => Sys2Proof.Machine.execBge ra imm s
  | .bpe ra imm => Sys2Proof.Machine.execBpe ra imm s
  | .bpo ra imm => Sys2Proof.Machine.execBpo ra imm s
  | .addi ra rb imm => Sys2Proof.Machine.execAddi ra rb imm s
  | .subi ra rb imm => Sys2Proof.Machine.execSubi ra rb imm s
  | .slti ra rb imm => Sys2Proof.Machine.execSlti ra rb imm s
  | .sltiSigned ra rb imm => Sys2Proof.Machine.execSltiSigned ra rb imm s
  | .andi ra rb imm => Sys2Proof.Machine.execAndi ra rb imm s
  | .xori ra rb imm => Sys2Proof.Machine.execXori ra rb imm s
  | .ori ra rb imm => Sys2Proof.Machine.execOri ra rb imm s
  | .lui ra rb imm => Sys2Proof.Machine.execLui ra rb imm s
  | .loadByte ra rb imm => Sys2Proof.Machine.execLoadByte ra rb imm s
  | .loadInt ra rb imm => Sys2Proof.Machine.execLoadInt ra rb imm s
  | .loadLong ra rb imm => Sys2Proof.Machine.execLoadLong ra rb imm s
  | .storeByte ra rb imm => Sys2Proof.Machine.execStoreByte ra rb imm s
  | .storeInt ra rb imm => Sys2Proof.Machine.execStoreInt ra rb imm s
  | .storeLong ra rb imm => Sys2Proof.Machine.execStoreLong ra rb imm s
  | .storeByteSmall ra small imm => Sys2Proof.Machine.execStoreByteSmall ra small imm s
  | .storeIntSmall ra small imm => Sys2Proof.Machine.execStoreIntSmall ra small imm s
  | .storeLongSmall ra small imm => Sys2Proof.Machine.execStoreLongSmall ra small imm s
  | .jalr ra rb imm => Sys2Proof.Machine.execJalr ra rb imm s
  | .loadByteX ra rb sc => Sys2Proof.Machine.execLoadByteX ra rb sc s
  | .loadIntX ra rb sc => Sys2Proof.Machine.execLoadIntX ra rb sc s
  | .loadLongX ra rb sc => Sys2Proof.Machine.execLoadLongX ra rb sc s
  | .storeByteX ra rb sc => Sys2Proof.Machine.execStoreByteX ra rb sc s
  | .storeIntX ra rb sc => Sys2Proof.Machine.execStoreIntX ra rb sc s
  | .storeLongX ra rb sc => Sys2Proof.Machine.execStoreLongX ra rb sc s
  | .lsh ra rc rb => Sys2Proof.Machine.execLsh ra rc rb s
  | .rsh ra rc rb => Sys2Proof.Machine.execRsh ra rc rb s
  | .ash ra rc rb => Sys2Proof.Machine.execAsh ra rc rb s
  | .ror ra rc rb => Sys2Proof.Machine.execRor ra rc rb s
  | .add ra rb sc => Sys2Proof.Machine.execAdd ra rb sc s
  | .sub ra rb sc => Sys2Proof.Machine.execSub ra rb sc s
  | .slt ra rb sc => Sys2Proof.Machine.execSlt ra rb sc s
  | .sltSigned ra rb sc => Sys2Proof.Machine.execSltSigned ra rb sc s
  | .and ra rb sc => Sys2Proof.Machine.execAnd ra rb sc s
  | .xor ra rb sc => Sys2Proof.Machine.execXor ra rb sc s
  | .or ra rb sc => Sys2Proof.Machine.execOr ra rb sc s
  | .nor ra rb sc => Sys2Proof.Machine.execNor ra rb sc s
  | .mul ra rb rc => Sys2Proof.Machine.execMul ra rb rc s
  | .div ra rb rc => Sys2Proof.Machine.execDiv ra rb rc s
  | .divSigned ra rb rc => Sys2Proof.Machine.execDivSigned ra rb rc s
  | .mod ra rb rc => Sys2Proof.Machine.execMod ra rb rc s
  | .ll ra rb => Sys2Proof.Machine.execLl ra rb s
  | .sc ra rb rc => Sys2Proof.Machine.execSc ra rb rc s
  | .pause => Sys2Proof.Machine.execPause s
  | .mb => Sys2Proof.Machine.execMb s
  | .wmb => Sys2Proof.Machine.execWmb s
  | .brk => Sys2Proof.Machine.execBrk s
  | .sys => Sys2Proof.Machine.execSys s
  | .mfcr ra cr => Sys2Proof.Machine.execMfcr ra cr s
  | .mtcr cr rb => Sys2Proof.Machine.execMtcr cr rb s
  | .hlt => Sys2Proof.Machine.execHlt s
  | .rfe => Sys2Proof.Machine.execRfe s

end Sys2Proof.Machine
end

