-- ==== Sys2Proof/Machine/Environment.lean ====
section
/-! DEFINITION. What the environment does to the processor (spec/00_scope.md R7): its moves, reset (spec/70_reset_and_hazards.md R420), and
the interrupts taken at an instruction boundary (spec/60_exceptions.md R354, R372, R376, R377). -/

namespace Sys2Proof.Machine

/-- Reset while running (70_reset R420, log 34): RS, pc and the halted state as stated; everything else the processor
holds is unspecified (10_state R60), so it becomes free. WHAMI is the processor's id; memory, the platform and the
request lines are not the processor's. -/
def resetSignal (s : State) : State :=
  { s with
    pc := resetPc
    rs := 0
    halted := false
    regs := Vector.ofFn fun i : Fin 32 => Config.freeWord s.fresh (.reset i.val)
    eb := Config.freeWord s.fresh (.reset 32)
    epc := Config.freeWord s.fresh (.reset 33)
    ebadaddr := Config.freeWord s.fresh (.reset 34)
    tbmissaddr := Config.freeWord s.fresh (.reset 35)
    tbpc := Config.freeWord s.fresh (.reset 36)
    scratch0 := Config.freeWord s.fresh (.reset 37)
    scratch1 := Config.freeWord s.fresh (.reset 38)
    scratch2 := Config.freeWord s.fresh (.reset 39)
    scratch3 := Config.freeWord s.fresh (.reset 40)
    scratch4 := Config.freeWord s.fresh (.reset 41)
    itbTag := Config.freeWord s.fresh (.reset 42)
    dtbTag := Config.freeWord s.fresh (.reset 43)
    itbIndex := Config.freeWord s.fresh (.reset 44)
    dtbIndex := Config.freeWord s.fresh (.reset 45)
    itbAddr := Config.freeWord s.fresh (.reset 46)
    dtbAddr := Config.freeWord s.fresh (.reset 47)
    itb := Tb.ofFree (tbSize .itb) (Config.freeEntries s.fresh (.reset 48))
    dtb := Tb.ofFree (tbSize .dtb) (Config.freeEntries s.fresh (.reset 49))
    icacheStale := (Config.freeCopies s.fresh (.reset 50)).map fun c => ⟨c.1, c.2⟩
    dcacheStale := (Config.freeCopies s.fresh (.reset 51)).map fun c => ⟨c.1, c.2⟩
    locked := Config.freeBool s.fresh (.reset 52)
    lockedAddr := Config.freeWord s.fresh (.reset 53)
    missWasWrite := Config.freeBool s.fresh (.reset 54)
    nmiMask := Config.freeNat s.fresh (.reset 55) }

/-- Another processor's store (60_exceptions R404): RAM changes, this Dcache follows (20_memory R127), and the locked
flag is cleared when the store falls into the locked word (D25). Where the address is not RAM nothing changes here but the
flag, and a misaligned address counts as the aligned one below it: the spec states neither, the model's choice (log 47). -/
def otherProcessorStore (pa : Word) (w : Width) (v : Word) (s : State) : State :=
  let a := (w.alignDown pa).toNat
  let t := if regionAt s.regions a = .ram then s.ownStore a w v else s
  { t with locked := s.locked && wordBase s.lockedAddr.toNat != wordBase a }

/-- A device's write to RAM: unless the platform keeps it coherent, the Dcache may keep the old word (20_memory R128). -/
def State.deviceBytes (s : State) (a : Nat) (w : Width) (v : Word) : State :=
  if Config.dcacheDmaCoherent then s.ownStore a w v
  else
    { s.storeBytes a w v with
      dcacheStale :=
        noteStale s.dcacheStale a (s.mem.readLE (wordBase a) .long) ((s.mem.writeLE a w v).readLE (wordBase a) .long) }

/-- A device's write (20_memory R128). The locked flag is not touched (60_exceptions R404). Where the address is not RAM
nothing changes here, and a misaligned address counts as the aligned one below it: the spec states neither, the model's
choice (log 47). -/
def deviceWrite (pa : Word) (w : Width) (v : Word) (s : State) : State :=
  let a := (w.alignDown pa).toNat
  if regionAt s.regions a = .ram then s.deviceBytes a w v else s

/-- One move of the environment (00_scope R7). -/
def applyMove (m : EnvMove) (s : State) : State :=
  match m with
  | .interruptLine level => { s with intLine := level }
  | .nmi => { s with nmiPending := s.nmiPending + 1 }
  | .reset => resetSignal s
  | .processorStore pa w v => otherProcessorStore pa w v s
  | .deviceStore pa w v => deviceWrite pa w v s

/-- The moves of one batch, in order. -/
def applyMoves : List EnvMove → State → State
  | [], s => s
  | m :: rest, s => applyMoves rest (applyMove m s)

/-- The start of a step: a fresh number for the free values, and the environment's moves at this boundary. -/
def beginStep (s : State) : State :=
  match s.inputs with
  | [] => { s with fresh := s.fresh + 1 }
  | batch :: rest => applyMoves batch { s with fresh := s.fresh + 1, inputs := rest }

/-- An NMI is taken (60_exceptions R376, R377): requested, and the mask counter is zero. Whether it ends a halt is the
parameter HLT_NMI_WAKE (45_privileged R335b, log 33). -/
def nmiDeliverable (s : State) : Bool := s.nmiPending != 0 && s.nmiMask == 0 && (!s.halted || Config.hltNmiWake)

/-- An external interrupt is taken (60_exceptions R372): requested, and RS.I is set. -/
def intDeliverable (s : State) : Bool := s.intLine && s.bitI

/-- The entry of an NMI: one request gives one exception (60_exceptions R376). -/
def takeNmi (s : State) : State := takeException (.plain .nmi) { s with nmiPending := s.nmiPending - 1 }

/-- The entry of an external interrupt: the request stays asserted (60_exceptions R372). -/
def takeInt (s : State) : State := takeException (.plain .int) s

/-- The NMI mask counter goes down by one at every step that is no masking event (60_exceptions R377, log 31). -/
def tickNmi (s : State) : State := { s with nmiMask := s.nmiMask - 1 }

end Sys2Proof.Machine
end

