-- ==== Sys2Proof/Decode.lean ====
section
/-! DEFINITION. Decoding and encoding (spec/30_encoding.md R150 to R164, R180). The decoder is total: every word is an
instruction or is rejected by name. Fields an instruction does not use are ignored (R163). -/

namespace Sys2Proof

/-- Why a word is no instruction (30_encoding R162). -/
inductive DecodeError where
  /-- a 6-bit opcode the map of R159 leaves unassigned -/
  | unassignedOpcode (op : BitVec 6)
  /-- opcode 0x39 with the unassigned function code 0xC (43_reg_operate R283) -/
  | unassignedFunct39 (funct : BitVec 4)
  /-- opcode 0x31 with an unassigned function code (44_reg_operate R315) -/
  | unassignedFunct31 (funct : BitVec 4)
  /-- opcode 0x29 with an unassigned function code (45_privileged R338); PRV in usermode -/
  | unassignedFunct29 (funct : BitVec 4)
  /-- not four bytes (R150); no fetch produces this -/
  | notFourBytes
deriving DecidableEq, Repr

/-- OPCODE, bits 5:0 (R153 to R155). -/
def opField (w : Word) : BitVec 6 := w.extractLsb' 0 6
/-- REG A, bits 10:6. -/
def raField (w : Word) : RegNum := w.extractLsb' 6 5
/-- REG B, bits 15:11. -/
def rbField (w : Word) : RegNum := w.extractLsb' 11 5
/-- REG C, bits 20:16. -/
def rcField (w : Word) : RegNum := w.extractLsb' 16 5
/-- SHAMT, bits 25:21. -/
def shamtField (w : Word) : BitVec 5 := w.extractLsb' 21 5
/-- SHIFT, bits 27:26. -/
def shiftField (w : Word) : BitVec 2 := w.extractLsb' 26 2
/-- FUNCT, bits 31:28. -/
def functField (w : Word) : BitVec 4 := w.extractLsb' 28 4
/-- IMM16, bits 31:16 (R154). -/
def imm16Field (w : Word) : BitVec 16 := w.extractLsb' 16 16
/-- IMM21, bits 31:11 (R153). -/
def imm21Field (w : Word) : BitVec 21 := w.extractLsb' 11 21
/-- IMM29, bits 31:3 (R152). -/
def imm29Field (w : Word) : BitVec 29 := w.extractLsb' 3 29

/-- The shift type a SHIFT field stands for (R156). -/
def ShiftType.ofBits (b : BitVec 2) : ShiftType :=
  if b = 0 then .lsh else if b = 1 then .rsh else if b = 2 then .ash else .ror

/-- The SHIFT field of a shift type (R156). -/
def ShiftType.toBits : ShiftType → BitVec 2
  | .lsh => 0
  | .rsh => 1
  | .ash => 2
  | .ror => 3

/-- The shifted operand of a 0x39 word (43_reg_operate R260). -/
def shiftedField (w : Word) : ShiftedReg := ⟨rcField w, ShiftType.ofBits (shiftField w), shamtField w⟩

/-- Branch format: all eight opcodes xxx101 are assigned (R159). -/
def decodeBranch (w : Word) : Except DecodeError Instr :=
  match opField w with
  | 0x3D#6 => .ok (.beq (raField w) (imm21Field w))
  | 0x35#6 => .ok (.bne (raField w) (imm21Field w))
  | 0x2D#6 => .ok (.blt (raField w) (imm21Field w))
  | 0x25#6 => .ok (.bgt (raField w) (imm21Field w))
  | 0x1D#6 => .ok (.ble (raField w) (imm21Field w))
  | 0x15#6 => .ok (.bge (raField w) (imm21Field w))
  | 0x0D#6 => .ok (.bpe (raField w) (imm21Field w))
  | 0x05#6 => .ok (.bpo (raField w) (imm21Field w))
  | op => .error (.unassignedOpcode op)

/-- Immediate operate format (R154, R159). -/
def decodeImm (w : Word) : Except DecodeError Instr :=
  match opField w with
  | 0x3C#6 => .ok (.addi (raField w) (rbField w) (imm16Field w))
  | 0x34#6 => .ok (.subi (raField w) (rbField w) (imm16Field w))
  | 0x2C#6 => .ok (.slti (raField w) (rbField w) (imm16Field w))
  | 0x24#6 => .ok (.sltiSigned (raField w) (rbField w) (imm16Field w))
  | 0x1C#6 => .ok (.andi (raField w) (rbField w) (imm16Field w))
  | 0x14#6 => .ok (.xori (raField w) (rbField w) (imm16Field w))
  | 0x0C#6 => .ok (.ori (raField w) (rbField w) (imm16Field w))
  | 0x04#6 => .ok (.lui (raField w) (rbField w) (imm16Field w))
  | 0x3B#6 => .ok (.loadByte (raField w) (rbField w) (imm16Field w))
  | 0x33#6 => .ok (.loadInt (raField w) (rbField w) (imm16Field w))
  | 0x2B#6 => .ok (.loadLong (raField w) (rbField w) (imm16Field w))
  | 0x3A#6 => .ok (.storeByte (raField w) (rbField w) (imm16Field w))
  | 0x32#6 => .ok (.storeInt (raField w) (rbField w) (imm16Field w))
  | 0x2A#6 => .ok (.storeLong (raField w) (rbField w) (imm16Field w))
  | 0x1A#6 => .ok (.storeByteSmall (raField w) (rbField w) (imm16Field w))
  | 0x12#6 => .ok (.storeIntSmall (raField w) (rbField w) (imm16Field w))
  | 0x0A#6 => .ok (.storeLongSmall (raField w) (rbField w) (imm16Field w))
  | 0x38#6 => .ok (.jalr (raField w) (rbField w) (imm16Field w))
  | op => .error (.unassignedOpcode op)

/-- Opcode 0x39, function code 0x8: the SHIFT field selects the mnemonic, SHAMT is ignored (43_reg_operate R270). -/
def decodeShift (w : Word) : Instr :=
  match ShiftType.ofBits (shiftField w) with
  | .lsh => .lsh (raField w) (rcField w) (rbField w)
  | .rsh => .rsh (raField w) (rcField w) (rbField w)
  | .ash => .ash (raField w) (rcField w) (rbField w)
  | .ror => .ror (raField w) (rcField w) (rbField w)

/-- Register operate, opcode 0x39 (R161). -/
def decode39 (w : Word) : Except DecodeError Instr :=
  match functField w with
  | 0xF#4 => .ok (.loadByteX (raField w) (rbField w) (shiftedField w))
  | 0xE#4 => .ok (.loadIntX (raField w) (rbField w) (shiftedField w))
  | 0xD#4 => .ok (.loadLongX (raField w) (rbField w) (shiftedField w))
  | 0xB#4 => .ok (.storeByteX (raField w) (rbField w) (shiftedField w))
  | 0xA#4 => .ok (.storeIntX (raField w) (rbField w) (shiftedField w))
  | 0x9#4 => .ok (.storeLongX (raField w) (rbField w) (shiftedField w))
  | 0x8#4 => .ok (decodeShift w)
  | 0x7#4 => .ok (.add (raField w) (rbField w) (shiftedField w))
  | 0x6#4 => .ok (.sub (raField w) (rbField w) (shiftedField w))
  | 0x5#4 => .ok (.slt (raField w) (rbField w) (shiftedField w))
  | 0x4#4 => .ok (.sltSigned (raField w) (rbField w) (shiftedField w))
  | 0x3#4 => .ok (.and (raField w) (rbField w) (shiftedField w))
  | 0x2#4 => .ok (.xor (raField w) (rbField w) (shiftedField w))
  | 0x1#4 => .ok (.or (raField w) (rbField w) (shiftedField w))
  | 0x0#4 => .ok (.nor (raField w) (rbField w) (shiftedField w))
  | f => .error (.unassignedFunct39 f)

/-- Register operate, opcode 0x31 (R161; PAUSE is 0x6, 90_conflicts C2). -/
def decode31 (w : Word) : Except DecodeError Instr :=
  match functField w with
  | 0xF#4 => .ok (.mul (raField w) (rbField w) (rcField w))
  | 0xD#4 => .ok (.div (raField w) (rbField w) (rcField w))
  | 0xC#4 => .ok (.divSigned (raField w) (rbField w) (rcField w))
  | 0xB#4 => .ok (.mod (raField w) (rbField w) (rcField w))
  | 0x9#4 => .ok (.ll (raField w) (rbField w))
  | 0x8#4 => .ok (.sc (raField w) (rbField w) (rcField w))
  | 0x6#4 => .ok .pause
  | 0x3#4 => .ok .mb
  | 0x2#4 => .ok .wmb
  | 0x1#4 => .ok .brk
  | 0x0#4 => .ok .sys
  | f => .error (.unassignedFunct31 f)

/-- Register operate, opcode 0x29 (R161). The control register number is in REG C (45_privileged R331, R332). -/
def decode29 (w : Word) : Except DecodeError Instr :=
  match functField w with
  | 0xF#4 => .ok (.mfcr (raField w) (rcField w))
  | 0xE#4 => .ok (.mtcr (rcField w) (rbField w))
  | 0xC#4 => .ok .hlt
  | 0xB#4 => .ok .rfe
  | f => .error (.unassignedFunct29 f)

/-- Register operate format (R155): three of its eight opcodes are assigned. -/
def decodeReg (w : Word) : Except DecodeError Instr :=
  match opField w with
  | 0x39#6 => decode39 w
  | 0x31#6 => decode31 w
  | 0x29#6 => decode29 w
  | op => .error (.unassignedOpcode op)

/-- The decode procedure of R164: the low three bits select the format (R151). -/
def decode (w : Word) : Except DecodeError Instr :=
  match w.extractLsb' 0 3 with
  | 7#3 => .ok (.jal (imm29Field w))
  | 6#3 => .ok (.j (imm29Field w))
  | 5#3 => decodeBranch w
  | 1#3 => decodeReg w
  | _ => decodeImm w

/-- Four bytes as the little-endian word they store (20_memory R81). -/
def wordOfBytes (b0 b1 b2 b3 : Byte) : Word := b3 ++ b2 ++ b1 ++ b0

/-- The bytes of a word in the order memory holds them, the lowest address first (20_memory R81). -/
def bytesOfWord (w : Word) : List Byte :=
  [w.extractLsb' 0 8, w.extractLsb' 8 8, w.extractLsb' 16 8, w.extractLsb' 24 8]

/-- Decoding the bytes of an instruction as memory holds them. -/
def decodeBytes : List Byte → Except DecodeError Instr
  | [b0, b1, b2, b3] => decode (wordOfBytes b0 b1 b2 b3)
  | _ => .error .notFourBytes

/-- The word of `nbits` bits `w`, numbered as spec/opcode_table.json numbers it: an XR/17032 instruction is one word
of 32 bits, so the bits above `nbits` are zero. -/
def tableWord (nbits w : Nat) : Word := BitVec.ofNat 32 (w % 2 ^ nbits)

/-- What the decoder reads from an instruction given as the opcode table gives it. -/
def decodeTableWord (nbits w : Nat) : Option Instr :=
  match decodeBytes (bytesOfWord (tableWord nbits w)) with
  | .ok i => some i
  | .error _ => none

/-- Jump format (R180). -/
def encJump (op : BitVec 3) (imm : BitVec 29) : Word := imm ++ op

/-- Branch format (R180). -/
def encBranch (op : BitVec 6) (ra : RegNum) (imm : BitVec 21) : Word := imm ++ ra ++ op

/-- Immediate operate format (R180). -/
def encImm (op : BitVec 6) (ra rb : RegNum) (imm : BitVec 16) : Word := imm ++ rb ++ ra ++ op

/-- Register operate format (R180). -/
def encReg (op : BitVec 6) (funct : BitVec 4) (ra rb : RegNum) (sc : ShiftedReg) : Word :=
  funct ++ sc.kind.toBits ++ sc.amount ++ sc.rc ++ rb ++ ra ++ op

/-- Register C without a shift: SHIFT and SHAMT zero, the canonical form where they are unused (R163). -/
def plainReg (rc : RegNum) : ShiftedReg := ⟨rc, .lsh, 0⟩

/-- The canonical word of an instruction: every unused field zero (R163, R180). -/
def encode : Instr → Word
  | .j imm => encJump 6 imm
  | .jal imm => encJump 7 imm
  | .beq ra imm => encBranch 0x3D ra imm
  | .bne ra imm => encBranch 0x35 ra imm
  | .blt ra imm => encBranch 0x2D ra imm
  | .bgt ra imm => encBranch 0x25 ra imm
  | .ble ra imm => encBranch 0x1D ra imm
  | .bge ra imm => encBranch 0x15 ra imm
  | .bpe ra imm => encBranch 0x0D ra imm
  | .bpo ra imm => encBranch 0x05 ra imm
  | .addi ra rb imm => encImm 0x3C ra rb imm
  | .subi ra rb imm => encImm 0x34 ra rb imm
  | .slti ra rb imm => encImm 0x2C ra rb imm
  | .sltiSigned ra rb imm => encImm 0x24 ra rb imm
  | .andi ra rb imm => encImm 0x1C ra rb imm
  | .xori ra rb imm => encImm 0x14 ra rb imm
  | .ori ra rb imm => encImm 0x0C ra rb imm
  | .lui ra rb imm => encImm 0x04 ra rb imm
  | .loadByte ra rb imm => encImm 0x3B ra rb imm
  | .loadInt ra rb imm => encImm 0x33 ra rb imm
  | .loadLong ra rb imm => encImm 0x2B ra rb imm
  | .storeByte ra rb imm => encImm 0x3A ra rb imm
  | .storeInt ra rb imm => encImm 0x32 ra rb imm
  | .storeLong ra rb imm => encImm 0x2A ra rb imm
  | .storeByteSmall ra small imm => encImm 0x1A ra small imm
  | .storeIntSmall ra small imm => encImm 0x12 ra small imm
  | .storeLongSmall ra small imm => encImm 0x0A ra small imm
  | .jalr ra rb imm => encImm 0x38 ra rb imm
  | .loadByteX ra rb sc => encReg 0x39 0xF ra rb sc
  | .loadIntX ra rb sc => encReg 0x39 0xE ra rb sc
  | .loadLongX ra rb sc => encReg 0x39 0xD ra rb sc
  | .storeByteX ra rb sc => encReg 0x39 0xB ra rb sc
  | .storeIntX ra rb sc => encReg 0x39 0xA ra rb sc
  | .storeLongX ra rb sc => encReg 0x39 0x9 ra rb sc
  | .lsh ra rc rb => encReg 0x39 0x8 ra rb ⟨rc, .lsh, 0⟩
  | .rsh ra rc rb => encReg 0x39 0x8 ra rb ⟨rc, .rsh, 0⟩
  | .ash ra rc rb => encReg 0x39 0x8 ra rb ⟨rc, .ash, 0⟩
  | .ror ra rc rb => encReg 0x39 0x8 ra rb ⟨rc, .ror, 0⟩
  | .add ra rb sc => encReg 0x39 0x7 ra rb sc
  | .sub ra rb sc => encReg 0x39 0x6 ra rb sc
  | .slt ra rb sc => encReg 0x39 0x5 ra rb sc
  | .sltSigned ra rb sc => encReg 0x39 0x4 ra rb sc
  | .and ra rb sc => encReg 0x39 0x3 ra rb sc
  | .xor ra rb sc => encReg 0x39 0x2 ra rb sc
  | .or ra rb sc => encReg 0x39 0x1 ra rb sc
  | .nor ra rb sc => encReg 0x39 0x0 ra rb sc
  | .mul ra rb rc => encReg 0x31 0xF ra rb (plainReg rc)
  | .div ra rb rc => encReg 0x31 0xD ra rb (plainReg rc)
  | .divSigned ra rb rc => encReg 0x31 0xC ra rb (plainReg rc)
  | .mod ra rb rc => encReg 0x31 0xB ra rb (plainReg rc)
  | .ll ra rb => encReg 0x31 0x9 ra rb (plainReg 0)
  | .sc ra rb rc => encReg 0x31 0x8 ra rb (plainReg rc)
  | .pause => encReg 0x31 0x6 0 0 (plainReg 0)
  | .mb => encReg 0x31 0x3 0 0 (plainReg 0)
  | .wmb => encReg 0x31 0x2 0 0 (plainReg 0)
  | .brk => encReg 0x31 0x1 0 0 (plainReg 0)
  | .sys => encReg 0x31 0x0 0 0 (plainReg 0)
  | .mfcr ra cr => encReg 0x29 0xF ra 0 (plainReg cr)
  | .mtcr cr rb => encReg 0x29 0xE 0 rb (plainReg cr)
  | .hlt => encReg 0x29 0xC 0 0 (plainReg 0)
  | .rfe => encReg 0x29 0xB 0 0 (plainReg 0)

end Sys2Proof
end

