-- ==== Sys2Proof/Machine/Fetch.lean ====
section
/-! DEFINITION. Fetching and decoding the instruction at pc (spec/20_memory.md R90; spec/60_exceptions.md R353). -/

namespace Sys2Proof.Machine

/-- `Fetch(pc)` (20_memory R90): the word, and the state after the access. -/
def fetchWord (s : State) : Access (Word × State) :=
  (resolve s.pc .long .fetch s).bind fun p => physFetch p.1 p.2 s

/-- The exception a word that is no instruction raises (30_encoding R162, 45_privileged R330): PRV for any word of opcode
0x29 in usermode, otherwise INV. -/
def decodeTrap (e : DecodeError) (s : State) : Exc :=
  match e with
  | .unassignedFunct29 _ => .plain (if s.bitU then .prv else .inv)
  | .unassignedOpcode _ => .plain .inv
  | .unassignedFunct39 _ => .plain .inv
  | .unassignedFunct31 _ => .plain .inv
  | .notFourBytes => .plain .inv

/-- Decoding a fetched word. -/
def decodeFetched (w : Word) (s : State) : Access Instr :=
  match decodeBytes (bytesOfWord w) with
  | .ok i => .ok i
  | .error e => .trap (decodeTrap e s)

/-- The instruction at pc. -/
def fetchInstr (s : State) : Access Instr := (fetchWord s).bind fun p => decodeFetched p.1 p.2

/-- Where the next fetch reads physical memory: the translated pc, or pc itself where the translation does not answer. -/
def fetchAddress (s : State) : Word :=
  match translateVa s.pc .fetch s with
  | .ok p => p.1
  | .trap _ => s.pc
  | .fault _ => s.pc
  | .refused _ => s.pc

/-- A state in which a word stands where the next instruction is fetched, and in which nothing keeps the next step from
fetching it: no older copy in the Icache, no halt, no request or move of the environment. -/
def placeWord (s : State) (w : Word) : State :=
  let a := (fetchAddress s).toNat
  { s with
    mem := s.mem.writeLE a .long w
    icacheStale := s.icacheStale.filter fun c => c.addr != wordBase a
    halted := false
    intLine := false
    nmiPending := 0
    inputs := [] }

end Sys2Proof.Machine
end

