-- ==== Sys2Proof/Machine/Step.lean ====
section
/-! DEFINITION. One step of the machine (spec/60_exceptions.md R353, R354), and where a program's next word is placed. -/

namespace Sys2Proof.Machine

/-- Fetch, decode and execute one instruction, or take the exception its fetch or decoding raises. -/
def runInstruction (s : State) : Result :=
  (fetchWord s).finish s fun p => (decodeFetched p.1 p.2).finish p.2 fun i => exec i p.2

/-- One step: the environment's moves, then NMI, then the external interrupt, then the halt, then an instruction
(60_exceptions R354, 45_privileged R334). -/
def step (s : State) : Host.Outcome State Fault Refusal :=
  let t := beginStep s
  if nmiDeliverable t then .next (takeNmi t)
  else if intDeliverable t then .next (takeInt t)
  else if t.halted then .next (tickNmi t)
  else runInstruction (tickNmi t)

/-- `s` with the instruction `w` of `nbits` bits where step fetches its next instruction (log 41). -/
def State.withFetchWord (s : State) (nbits w : Nat) : State := placeWord s (tableWord nbits w)

end Sys2Proof.Machine
end

