-- ==== Sys2Proof/Machine/Pseudo.lean ====
section
/-! DEFINITION. The assembler's pseudo-instructions and their expansions (spec/30_encoding.md R166, R170 to R179). They
have no encoding of their own: each is a list of core instructions. -/

namespace Sys2Proof.Machine

/-- The pseudo-instructions the handbook lists. -/
inductive Pseudo where
  /-- `B IMM21` (R170) -/
  | b (imm : BitVec 21)
  /-- `RET` (R171) -/
  | ret
  /-- `JR RA` (R172) -/
  | jr (ra : RegNum)
  /-- `MOV RA, RB` (R173) -/
  | mov (ra rb : RegNum)
  /-- `LI RA, IMM16` (R174) -/
  | li (ra : RegNum) (imm : BitVec 16)
  /-- `LA RA, IMM32` (R175) -/
  | la (ra : RegNum) (imm : Word)
  /-- `NOP` (R176) -/
  | nop
  /-- `LSHI/RSHI/ASHI/RORI RA, RB, IMM5` (R177) -/
  | shiftImm (kind : ShiftType) (ra rb : RegNum) (amount : BitVec 5)
  /-- `MOV RA, BYTE/INT/LONG [IMM32]` (R178) -/
  | loadAt (w : Width) (ra : RegNum) (address : Word)
  /-- `MOV BYTE/INT/LONG [IMM32], RA, TMP=RB` (R179) -/
  | storeAt (w : Width) (address : Word) (ra tmp : RegNum)
deriving DecidableEq, Repr

/-- The upper half of a 32-bit operand. -/
def upperHalf (v : Word) : BitVec 16 := v.extractLsb' 16 16

/-- The lower half of a 32-bit operand. -/
def lowerHalf (v : Word) : BitVec 16 := v.extractLsb' 0 16

/-- A written byte offset as the field of an access (R166): divided by the access size. An offset that is not a multiple
of the size, which R166 excludes without saying what an assembler does with it, loses its low bits: the model's choice
(log 48). -/
def offsetField (w : Width) (offset : BitVec 16) : BitVec 16 :=
  match w with
  | .byte => offset
  | .int => offset >>> 1
  | .long => offset >>> 2

/-- The load of a width with immediate offset. -/
def loadImm (w : Width) (ra rb : RegNum) (imm : BitVec 16) : Instr :=
  match w with
  | .byte => .loadByte ra rb imm
  | .int => .loadInt ra rb imm
  | .long => .loadLong ra rb imm

/-- The store of a width with immediate offset. -/
def storeImm (w : Width) (ra rb : RegNum) (imm : BitVec 16) : Instr :=
  match w with
  | .byte => .storeByte ra rb imm
  | .int => .storeInt ra rb imm
  | .long => .storeLong ra rb imm

/-- The core instructions a pseudo-instruction stands for. -/
def expand : Pseudo → List Instr
  | .b imm => [.beq 0 imm]
  | .ret => [.jalr 0 31 0]
  | .jr ra => [.jalr 0 ra 0]
  | .mov ra rb => [.add ra rb ⟨0, .lsh, 0⟩]
  | .li ra imm => [.addi ra 0 imm]
  | .la ra imm => [.lui ra 0 (upperHalf imm), .ori ra ra (lowerHalf imm)]
  | .nop => [.addi 0 0 0]
  | .shiftImm kind ra rb amount => [.add ra 0 ⟨rb, kind, amount⟩]
  | .loadAt w ra address =>
    [.lui ra 0 (upperHalf address), loadImm w ra ra (offsetField w (lowerHalf address))]
  | .storeAt w address ra tmp =>
    [.lui tmp 0 (upperHalf address), storeImm w tmp ra (offsetField w (lowerHalf address))]

end Sys2Proof.Machine
end

