-- ==== Sys2Proof/Safety.lean ====
section
/-! DEFINITION. The terms the claims use: runs and what keeps them going, the invariant of the model's data, and what an
instruction leaves unchanged. -/

namespace Sys2Proof.Machine

/-! ## Runs -/

/-- The machine can go on: step answers a next state, not a stop of the model. -/
def State.goesOn (s : State) : Prop := ∃ t, step s = .next t

/-- A run of any length: no stop of the model lies on it. -/
def State.runsSafely (s : State) : Prop := ∀ n, ∃ t, Sys2Proof.core.run n s = .next t

/-- One state leads to another by some number of steps. -/
inductive Reaches : State → State → Prop where
  | refl (s : State) : Reaches s s
  | step {s t u : State} (first : Machine.step s = .next t) (rest : Reaches t u) : Reaches s u

/-- Executing core instructions one after the other, as straight-line code. -/
def execList : List Instr → State → Result
  | [], s => .next s
  | i :: rest, s =>
    match exec i s with
    | .next t => execList rest t
    | .fault f => .fault f
    | .refused r => .refused r

/-! ## The invariant of the model's data -/

/-- Memory and both TBs stand in their canonical forms; every TB index lies below the TB's size. -/
def Inv (s : State) : Prop := s.mem.wf ∧ s.itb.wf Config.itbSize ∧ s.dtb.wf Config.dtbSize

/-! ## Frames -/

/-- Nothing differs but the pc. -/
def OnlyPc (s t : State) : Prop := t = { s with pc := t.pc } ∧ ∀ a, t.mem.read a = s.mem.read a

/-- Register `ra` holds `v` afterwards, unless it is the wired zero register (10_state R23); every other register, every
byte of memory and all other state but the pc are unchanged. -/
def WritesReg (ra : RegNum) (v : Word) (s t : State) : Prop :=
  t.readReg ra = (if s.wired ra then 0 else v) ∧
  (∀ r, r ≠ ra → t.readReg r = s.readReg r) ∧
  (∀ (i : Nat) (h : i < 32), i ≠ ra.toNat ∨ s.wired ra = true → t.regs[i] = s.regs[i]) ∧
  (∀ a, t.mem.read a = s.mem.read a) ∧
  t = { s with pc := t.pc, regs := t.regs }

/-- The instruction completes: it writes register `ra` with a value that has the property, and goes on to pc + 4. -/
def Completes (i : Instr) (s : State) (ra : RegNum) (value : Word → Prop) : Prop :=
  ∃ v t, exec i s = .next t ∧ value v ∧ WritesReg ra v s t ∧ t.pc = s.pc + 4

/-- The bytes `a, a + 1, ...` of an access of width `w` hold `v`, the low byte first (20_memory R81). -/
def HoldsLE (m : Memory) (a : Nat) (w : Width) (v : Word) : Prop :=
  ∀ k, k < w.bytes → (m.read (a + k)).toNat = v.toNat / 256 ^ k % 256

/-- Byte `k` of a word, the low one first. -/
def byteOf (v : Word) (k : Nat) : Nat := v.toNat / 256 ^ k % 256

/-- A store at `a` changed memory from `m` to `m'`, and a cache that does not follow it keeps what it could hold and, where
the aligned word changed, may also hold the word replaced, and nothing more (20_memory R121, R128). -/
def KeepsOldWord (a : Nat) (m m' : Memory) (old new : List StaleCopy) : Prop :=
  (∀ c ∈ old, c ∈ new) ∧
  (∀ c ∈ new, c ∈ old ∨ c.addr = a / 4 * 4 ∧ HoldsLE m (a / 4 * 4) .long c.word) ∧
  ((∃ k, k < 4 ∧ m'.read (a / 4 * 4 + k) ≠ m.read (a / 4 * 4 + k)) →
    ∃ c ∈ new, c.addr = a / 4 * 4 ∧ HoldsLE m (a / 4 * 4) .long c.word)

/-- What a store of `v` makes of an older copy in a cache that follows it: in a copy of its word the stored bytes change,
every other copy stays (20_memory R127, R130a). -/
def FollowsStore (a : Nat) (w : Width) (v : Word) (c d : StaleCopy) : Prop :=
  d.addr = c.addr ∧
  (c.addr ≠ a / 4 * 4 → d.word = c.word) ∧
  (c.addr = a / 4 * 4 → ∀ k, k < 4 →
    byteOf d.word k =
      if a ≤ a / 4 * 4 + k ∧ a / 4 * 4 + k < a + w.bytes then byteOf v (a / 4 * 4 + k - a) else byteOf c.word k)

/-- What a store of `v` at `a` does to memory and the caches: the bytes from `a` hold its low bytes, every other byte is
unchanged, the Icache may keep the word replaced (20_memory R121), and this Dcache's copies follow. -/
def StoresBytes (a : Nat) (w : Width) (v : Word) (s t : State) : Prop :=
  HoldsLE t.mem a w v ∧
  (∀ b, b < a ∨ a + w.bytes ≤ b → t.mem.read b = s.mem.read b) ∧
  KeepsOldWord a s.mem t.mem s.icacheStale t.icacheStale ∧
  List.Forall₂ (FollowsStore a w v) s.dcacheStale t.dcacheStale

/-- The store completes: what it does to memory and the caches, the pc goes on to pc + 4, and no register and nothing else
changes. -/
def StoresAt (i : Instr) (s : State) (a : Nat) (w : Width) (data : Word) : Prop :=
  ∃ t, exec i s = .next t ∧ StoresBytes a w data s t ∧ (∀ r, t.readReg r = s.readReg r) ∧
    t = { s with pc := s.pc + 4, mem := t.mem, icacheStale := t.icacheStale, dcacheStale := t.dcacheStale }

/-- Every control register but those of the TBs' help, the exception registers and RS: what no exception entry and no
unprivileged instruction writes (10_state R33, R34, R39, R42). -/
def SameSoftwareRegisters (s t : State) : Prop :=
  t.whami = s.whami ∧ t.eb = s.eb ∧ t.scratch0 = s.scratch0 ∧ t.scratch1 = s.scratch1 ∧ t.scratch2 = s.scratch2 ∧
  t.scratch3 = s.scratch3 ∧ t.scratch4 = s.scratch4 ∧ t.itbIndex = s.itbIndex ∧ t.dtbIndex = s.dtbIndex

/-- Every control register, both TBs, the halted state and the NMI counter: what only kernel mode may change
(60_exceptions R391). -/
def SamePrivileged (s t : State) : Prop :=
  SameSoftwareRegisters s t ∧ t.rs = s.rs ∧ t.epc = s.epc ∧ t.ebadaddr = s.ebadaddr ∧
  t.tbmissaddr = s.tbmissaddr ∧ t.tbpc = s.tbpc ∧ t.itbTag = s.itbTag ∧ t.dtbTag = s.dtbTag ∧
  t.itbAddr = s.itbAddr ∧ t.dtbAddr = s.dtbAddr ∧ t.itb = s.itb ∧ t.dtb = s.dtb ∧
  t.missWasWrite = s.missWasWrite ∧ t.halted = s.halted ∧ t.nmiMask = s.nmiMask

/-! ## Instructions by what they do -/

/-- The instruction stores to memory when it completes. -/
def isStore : Instr → Bool
  | .storeByte _ _ _ | .storeInt _ _ _ | .storeLong _ _ _ => true
  | .storeByteSmall _ _ _ | .storeIntSmall _ _ _ | .storeLongSmall _ _ _ => true
  | .storeByteX _ _ _ | .storeIntX _ _ _ | .storeLongX _ _ _ => true
  | .sc _ _ _ => true
  | _ => false

/-- The register an instruction writes when it completes: RA, or 31 for JAL (10_state R25). -/
def destOf : Instr → Option RegNum
  | .jal _ => some 31
  | .addi ra _ _ | .subi ra _ _ | .slti ra _ _ | .sltiSigned ra _ _ => some ra
  | .andi ra _ _ | .xori ra _ _ | .ori ra _ _ | .lui ra _ _ => some ra
  | .loadByte ra _ _ | .loadInt ra _ _ | .loadLong ra _ _ => some ra
  | .jalr ra _ _ => some ra
  | .loadByteX ra _ _ | .loadIntX ra _ _ | .loadLongX ra _ _ => some ra
  | .lsh ra _ _ | .rsh ra _ _ | .ash ra _ _ | .ror ra _ _ => some ra
  | .add ra _ _ | .sub ra _ _ | .slt ra _ _ | .sltSigned ra _ _ => some ra
  | .and ra _ _ | .xor ra _ _ | .or ra _ _ | .nor ra _ _ => some ra
  | .mul ra _ _ | .div ra _ _ | .divSigned ra _ _ | .mod ra _ _ => some ra
  | .ll ra _ | .sc ra _ _ => some ra
  | .mfcr ra _ => some ra
  | _ => none

/-- The six loads: destination, effective address, width (42_imm_operate R231 to R233, 43_reg_operate R261 to R263). -/
def loadOf (s : State) : Instr → Option (RegNum × Word × Width)
  | .loadByte ra rb imm => some (ra, s.readReg rb + BitVec.ofNat 32 imm.toNat, .byte)
  | .loadInt ra rb imm => some (ra, s.readReg rb + BitVec.ofNat 32 (imm.toNat * 2), .int)
  | .loadLong ra rb imm => some (ra, s.readReg rb + BitVec.ofNat 32 (imm.toNat * 4), .long)
  | .loadByteX ra rb sc => some (ra, s.readReg rb + s.shifted sc, .byte)
  | .loadIntX ra rb sc => some (ra, s.readReg rb + s.shifted sc, .int)
  | .loadLongX ra rb sc => some (ra, s.readReg rb + s.shifted sc, .long)
  | _ => none

/-- The nine stores: effective address, width, data (42_imm_operate R235 to R241, 43_reg_operate R264 to R266). -/
def storeOf (s : State) : Instr → Option (Word × Width × Word)
  | .storeByte ra rb imm => some (s.readReg ra + BitVec.ofNat 32 imm.toNat, .byte, s.readReg rb)
  | .storeInt ra rb imm => some (s.readReg ra + BitVec.ofNat 32 (imm.toNat * 2), .int, s.readReg rb)
  | .storeLong ra rb imm => some (s.readReg ra + BitVec.ofNat 32 (imm.toNat * 4), .long, s.readReg rb)
  | .storeByteSmall ra small imm =>
    some (s.readReg ra + BitVec.ofNat 32 imm.toNat, .byte, BitVec.ofInt 32 small.toInt)
  | .storeIntSmall ra small imm =>
    some (s.readReg ra + BitVec.ofNat 32 (imm.toNat * 2), .int, BitVec.ofInt 32 small.toInt)
  | .storeLongSmall ra small imm =>
    some (s.readReg ra + BitVec.ofNat 32 (imm.toNat * 4), .long, BitVec.ofInt 32 small.toInt)
  | .storeByteX ra rb sc => some (s.readReg rb + s.shifted sc, .byte, s.readReg ra)
  | .storeIntX ra rb sc => some (s.readReg rb + s.shifted sc, .int, s.readReg ra)
  | .storeLongX ra rb sc => some (s.readReg rb + s.shifted sc, .long, s.readReg ra)
  | _ => none

/-- A branch completes: the pc moves by four times the signed offset when the condition holds, modulo 2^32, else by 4;
nothing else changes (41_branch R200). -/
def Branches (i : Instr) (s : State) (imm : BitVec 21) (cond : Prop) : Prop :=
  ∃ t, exec i s = .next t ∧ OnlyPc s t ∧
    (cond → (t.pc.toNat : Int) = ((s.pc.toNat : Int) + 4 * imm.toInt) % 2 ^ 32) ∧
    (¬cond → t.pc.toNat = (s.pc.toNat + 4) % 2 ^ 32)

/-- What a shift by 0 to 31 makes of a word, as numbers (30_encoding R157). -/
def ShiftsTo (kind : ShiftType) (v : Word) (a : Nat) (r : Word) : Prop :=
  match kind with
  | .lsh => r.toNat = v.toNat * 2 ^ a % 2 ^ 32
  | .rsh => r.toNat = v.toNat / 2 ^ a
  | .ash => r.toInt = v.toInt / 2 ^ a
  | .ror => r.toNat = v.toNat / 2 ^ a + v.toNat % 2 ^ a * 2 ^ (32 - a)

/-! ## Words -/

/-- The branch word (30_encoding R180). -/
def branchNumber (op : Nat) (ra : RegNum) (imm : BitVec 21) : Nat := imm.toNat * 2 ^ 11 + ra.toNat * 2 ^ 6 + op

/-- The immediate operate word (30_encoding R180). -/
def immNumber (op : Nat) (ra rb : RegNum) (imm : BitVec 16) : Nat :=
  imm.toNat * 2 ^ 16 + rb.toNat * 2 ^ 11 + ra.toNat * 2 ^ 6 + op

/-- The number of a shift type (30_encoding R156). -/
def shiftNumber : ShiftType → Nat
  | .lsh => 0
  | .rsh => 1
  | .ash => 2
  | .ror => 3

/-- The register operate word (30_encoding R180). -/
def regNumber (op funct : Nat) (ra rb : RegNum) (sc : ShiftedReg) : Nat :=
  funct * 2 ^ 28 + shiftNumber sc.kind * 2 ^ 26 + sc.amount.toNat * 2 ^ 21 + sc.rc.toNat * 2 ^ 16 + rb.toNat * 2 ^ 11 +
    ra.toNat * 2 ^ 6 + op

/-! ## Accesses -/

/-- The data access an instruction makes: address, width and kind. SC makes one only while the locked flag is set
(44_reg_operate R309). -/
def accessOf (s : State) (i : Instr) : Option (Word × Width × AccessKind) :=
  match loadOf s i, storeOf s i with
  | some (_, va, w), _ => some (va, w, .read)
  | none, some (va, w, _) => some (va, w, .write)
  | none, none =>
    match i with
    | .ll _ rb => some (s.readReg rb, .long, .read)
    | .sc _ rb _ => if s.locked then some (s.readReg rb, .long, .write) else none
    | _ => none

/-- A physical address that memory answers: RAM or ROM (20_memory R135). -/
def OrdinaryMemory (s : State) (pa : Word) : Prop :=
  regionAt s.regions pa.toNat = .ram ∨ regionAt s.regions pa.toNat = .rom

/-- What a read of `w.bytes` bytes may give: the bytes of memory, or, where the access goes through a cache that may
hold an older copy of the aligned word, the bytes of such a copy (20_memory R81, R121, R128). -/
def ReadsAs (copies : List StaleCopy) (m : Memory) (pa : Word) (w : Width) (bypass : Bool) (v : Word) : Prop :=
  v.toNat < 256 ^ w.bytes ∧
  (HoldsLE m pa.toNat w v ∨
    bypass = false ∧ ∃ c ∈ copies, c.addr = pa.toNat / 4 * 4 ∧
      v.toNat = c.word.toNat / 256 ^ (pa.toNat % 4) % 256 ^ w.bytes)

/-- What a device's answer leaves of the record of device accesses: an access that bypasses the caches reached the device
exactly once; one that goes through a cache may not have reached it (20_memory R123, R137; log 8). -/
def LogsAccess (access : DeviceAccess) (bypass : Bool) (old new : List DeviceAccess) : Prop :=
  new = access :: old ∨ bypass = false ∧ new = old

/-- An access that reaches no RAM completes with the value `v`: a load and LL read it, a store and SC stored it; nothing
else changes but the record of device accesses, the reservation of LL, and register A of SC, which takes 1. -/
def CompletesElsewhere (i : Instr) (s : State) (pa v : Word) (log : List DeviceAccess) : Prop :=
  (∀ ra va w, loadOf s i = some (ra, va, w) →
    ∃ t, exec i s = .next t ∧ WritesReg ra v { s with deviceLog := log } t ∧ t.pc = s.pc + 4) ∧
  (∀ va w data, storeOf s i = some (va, w, data) →
    v.toNat = data.toNat % 256 ^ w.bytes ∧ exec i s = .next { s with pc := s.pc + 4, deviceLog := log }) ∧
  (∀ ra rb, i = .ll ra rb →
    ∃ t, exec i s = .next t ∧ WritesReg ra v { s with deviceLog := log, locked := true, lockedAddr := pa } t ∧
      t.pc = s.pc + 4) ∧
  (∀ ra rb rc, i = .sc ra rb rc →
    v = s.readReg rc ∧ ∃ t, exec i s = .next t ∧ WritesReg ra 1 { s with deviceLog := log } t ∧ t.pc = s.pc + 4)

/-- A used entry matches an address under the tag register of its TB (20_memory R101), by the numbers. -/
def Matches (l : PteLayout) (x : TbSlot) (va tag : Word) : Prop :=
  x.entry.tag.toNat % 2 ^ 20 = va.toNat / 2 ^ 12 ∧
  (x.entry.pte.getLsbD l.g = true ∨ x.entry.tag.toNat / 2 ^ 20 = tag.toNat / 2 ^ 20)

/-- A PTE allows an access (20_memory R103): V, not K in usermode, W for a write. -/
def Allows (l : PteLayout) (pte : Word) (kind : AccessKind) (user : Bool) : Prop :=
  pte.getLsbD l.v = true ∧ (pte.getLsbD l.k = true → user = false) ∧
    (kind = .write → pte.getLsbD l.w = true)

/-- The physical address of a virtual one in the page of a PTE (20_memory R96, R100), by the numbers. -/
def InPageOf (l : PteLayout) (pte va pa : Word) : Prop :=
  pa.toNat = pte.toNat / 2 ^ l.pfn.val % 2 ^ 20 * 2 ^ 12 + va.toNat % 2 ^ 12

/-! ## Exceptions -/

/-- RS after a push (60_exceptions R356 to R358): the new ECAUSE, both saved levels moved up, U and I clear, the rest of
the current mode and bits 27:24 as they were, but T set where the entry is a TB miss. -/
def Pushed (code : BitVec 4) (setT : Bool) (old new : Word) : Prop :=
  new.extractLsb' 28 4 = code ∧
  new.extractLsb' 24 4 = old.extractLsb' 24 4 ∧
  new.extractLsb' 8 16 = old.extractLsb' 0 16 ∧
  new.extractLsb' 4 4 = old.extractLsb' 4 4 ∧
  new.getLsbD 3 = (setT || old.getLsbD 3) ∧
  new.getLsbD 2 = old.getLsbD 2 ∧
  new.getLsbD 1 = false ∧
  new.getLsbD 0 = false

/-- The pc at a handler (60_exceptions R355): EB plus 256 times the code, where EB is page aligned. -/
def AtVector (code : BitVec 4) (s t : State) : Prop :=
  s.eb.toNat % 4096 = 0 → t.pc.toNat = s.eb.toNat + 256 * code.toNat

/-- The normal entry (60_exceptions R356) with a saved pc and, for the causes that have one, a bad address; nothing else
changes. -/
def NormalEntry (code : BitVec 4) (saved : Word) (bad : Option Word) (s t : State) : Prop :=
  t.epc = saved ∧
  t.ebadaddr = bad.getD s.ebadaddr ∧
  Pushed code false s.rs t.rs ∧
  AtVector code s t ∧
  t.nmiMask = Config.nmiMaskInsns ∧
  t.halted = false ∧
  (∀ a, t.mem.read a = s.mem.read a) ∧
  t = { s with
    epc := t.epc, ebadaddr := t.ebadaddr, rs := t.rs, pc := t.pc, nmiMask := t.nmiMask, halted := t.halted }

/-- MFCR of a control register completes: the value read has the property, register RA takes it, the NMI mask counter is
reloaded, nothing else changes (45_privileged R331). -/
def ReadsControl (s : State) (ra : RegNum) (n : CrNum) (value : Word → Prop) : Prop :=
  ∃ v t, exec (.mfcr ra n) s = .next t ∧ value v ∧
    WritesReg ra v { s with nmiMask := Config.nmiMaskInsns } t ∧ t.pc = s.pc + 4

/-- The tag register of the TB that missed holds the missed page and its ASID as before; its address register holds the
offset of the PTE below its base bits; those of the other TB are unchanged (20_memory R113). -/
def NotesMiss (b : TbSel) (va : Word) (s t : State) : Prop :=
  match b with
  | .itb =>
    t.itbTag.toNat = s.itbTag.toNat / 2 ^ 20 * 2 ^ 20 + va.toNat / 2 ^ 12 ∧
    t.itbAddr.toNat = s.itbAddr.toNat / 2 ^ 22 * 2 ^ 22 + va.toNat / 2 ^ 12 * 4 ∧
    t.dtbTag = s.dtbTag ∧ t.dtbAddr = s.dtbAddr
  | .dtb =>
    t.dtbTag.toNat = s.dtbTag.toNat / 2 ^ 20 * 2 ^ 20 + va.toNat / 2 ^ 12 ∧
    t.dtbAddr.toNat = s.dtbAddr.toNat / 2 ^ 22 * 2 ^ 22 + va.toNat / 2 ^ 12 * 4 ∧
    t.itbTag = s.itbTag ∧ t.itbAddr = s.itbAddr

end Sys2Proof.Machine
end

