-- ==== Sys2Proof/WellFormed.lean ====
section
/-! DEFINITION. Well-formed instructions. The operand types already hold every field to its width, so no check is
needed for the encoding's sake; what is left are the operand values to which the spec gives no effect, or no settled
one (log 46). The decoder accepts them (their words are assigned); a program should not hold them. -/

namespace Sys2Proof

/-- The control register numbers that name a register (10_state R46, R48). -/
def CrNum.isDefined (n : CrNum) : Bool :=
  !(n == 2 || n == 3 || n == 4 || n == 8 || n == 22 || n == 23 || n == 30 || n == 31)

/-- `true` when the spec gives the instruction's operands a settled effect in kernel mode:
MFCR and MTCR name a control register that is not absent (R46), MTCR does not name WHAMI (10_state R33), and JALR does
not link into the register it jumps through (42_imm_operate R244b). -/
def Instr.wellFormed : Instr → Bool
  | .mfcr _ cr => cr.isDefined
  | .mtcr cr _ => cr.isDefined && cr != 1
  | .jalr ra rb _ => ra != rb || ra == 0
  | .j _ | .jal _ => true
  | .beq _ _ | .bne _ _ | .blt _ _ | .bgt _ _ | .ble _ _ | .bge _ _ | .bpe _ _ | .bpo _ _ => true
  | .addi _ _ _ | .subi _ _ _ | .slti _ _ _ | .sltiSigned _ _ _ => true
  | .andi _ _ _ | .xori _ _ _ | .ori _ _ _ | .lui _ _ _ => true
  | .loadByte _ _ _ | .loadInt _ _ _ | .loadLong _ _ _ => true
  | .storeByte _ _ _ | .storeInt _ _ _ | .storeLong _ _ _ => true
  | .storeByteSmall _ _ _ | .storeIntSmall _ _ _ | .storeLongSmall _ _ _ => true
  | .loadByteX _ _ _ | .loadIntX _ _ _ | .loadLongX _ _ _ => true
  | .storeByteX _ _ _ | .storeIntX _ _ _ | .storeLongX _ _ _ => true
  | .lsh _ _ _ | .rsh _ _ _ | .ash _ _ _ | .ror _ _ _ => true
  | .add _ _ _ | .sub _ _ _ | .slt _ _ _ | .sltSigned _ _ _ => true
  | .and _ _ _ | .xor _ _ _ | .or _ _ _ | .nor _ _ _ => true
  | .mul _ _ _ | .div _ _ _ | .divSigned _ _ _ | .mod _ _ _ => true
  | .ll _ _ | .sc _ _ _ => true
  | .pause | .mb | .wmb | .brk | .sys | .hlt | .rfe => true

end Sys2Proof
end

