-- ==== Sys2Proof/Certificates/Slice0/Obligations.lean ====
section
/-! DEFINITION. The statements about the model, one definition each; OBLIGATIONS.json lists them with their rules. The
terms they use are in Safety.lean. -/

open Sys2Proof Sys2Proof.Machine

/-! ## Encoding -/

/-- Decoding the bytes of an instruction's word gives the instruction back, with every operand at every value
(30_encoding R150, R163, R164). -/
def Obligations.DecodeUndoesEncode : Prop :=
  ∀ i : Instr, decodeBytes (bytesOfWord (encode i)) = .ok i

/-- The four formulas of R180, as numbers. The field positions of the jump and branch formats, whose figures are lost, are
inferred (30_encoding R152, R153; log 42). -/
def Obligations.EncodingFormulas : Prop :=
  ∀ (op3 : BitVec 3) (op : BitVec 6) (funct : BitVec 4) (ra rb : RegNum) (sc : ShiftedReg) (imm29 : BitVec 29)
    (imm21 : BitVec 21) (imm16 : BitVec 16),
    (encJump op3 imm29).toNat = imm29.toNat * 2 ^ 3 + op3.toNat ∧
    (encBranch op ra imm21).toNat = branchNumber op.toNat ra imm21 ∧
    (encImm op ra rb imm16).toNat = immNumber op.toNat ra rb imm16 ∧
    (encReg op funct ra rb sc).toNat = regNumber op.toNat funct.toNat ra rb sc

/-- With all operand fields zero every instruction's word is the `match` word of R160, and that word decodes to it. -/
def Obligations.MatchWordsOfTheTable : Prop :=
  ∀ p ∈ ([
    (.j 0, 0x00000006), (.jal 0, 0x00000007),
    (.beq 0 0, 0x0000003D), (.bne 0 0, 0x00000035), (.blt 0 0, 0x0000002D), (.bgt 0 0, 0x00000025),
    (.ble 0 0, 0x0000001D), (.bge 0 0, 0x00000015), (.bpe 0 0, 0x0000000D), (.bpo 0 0, 0x00000005),
    (.addi 0 0 0, 0x0000003C), (.subi 0 0 0, 0x00000034), (.slti 0 0 0, 0x0000002C), (.sltiSigned 0 0 0, 0x00000024),
    (.andi 0 0 0, 0x0000001C), (.xori 0 0 0, 0x00000014), (.ori 0 0 0, 0x0000000C), (.lui 0 0 0, 0x00000004),
    (.loadByte 0 0 0, 0x0000003B), (.loadInt 0 0 0, 0x00000033), (.loadLong 0 0 0, 0x0000002B),
    (.storeByte 0 0 0, 0x0000003A), (.storeInt 0 0 0, 0x00000032), (.storeLong 0 0 0, 0x0000002A),
    (.storeByteSmall 0 0 0, 0x0000001A), (.storeIntSmall 0 0 0, 0x00000012), (.storeLongSmall 0 0 0, 0x0000000A),
    (.jalr 0 0 0, 0x00000038),
    (.loadByteX 0 0 (plainReg 0), 0xF0000039), (.loadIntX 0 0 (plainReg 0), 0xE0000039),
    (.loadLongX 0 0 (plainReg 0), 0xD0000039),
    (.storeByteX 0 0 (plainReg 0), 0xB0000039), (.storeIntX 0 0 (plainReg 0), 0xA0000039),
    (.storeLongX 0 0 (plainReg 0), 0x90000039),
    (.lsh 0 0 0, 0x80000039), (.rsh 0 0 0, 0x84000039), (.ash 0 0 0, 0x88000039), (.ror 0 0 0, 0x8C000039),
    (.add 0 0 (plainReg 0), 0x70000039), (.sub 0 0 (plainReg 0), 0x60000039), (.slt 0 0 (plainReg 0), 0x50000039),
    (.sltSigned 0 0 (plainReg 0), 0x40000039), (.and 0 0 (plainReg 0), 0x30000039),
    (.xor 0 0 (plainReg 0), 0x20000039), (.or 0 0 (plainReg 0), 0x10000039), (.nor 0 0 (plainReg 0), 0x00000039),
    (.mul 0 0 0, 0xF0000031), (.div 0 0 0, 0xD0000031), (.divSigned 0 0 0, 0xC0000031), (.mod 0 0 0, 0xB0000031),
    (.ll 0 0, 0x90000031), (.sc 0 0 0, 0x80000031), (.pause, 0x60000031), (.mb, 0x30000031), (.wmb, 0x20000031),
    (.brk, 0x10000031), (.sys, 0x00000031),
    (.mfcr 0 0, 0xF0000029), (.mtcr 0 0, 0xE0000029), (.hlt, 0xC0000029), (.rfe, 0xB0000029)] : List (Instr × Word)),
    encode p.1 = p.2 ∧ decode p.2 = .ok p.1

/-- The decoder rejects a word exactly when R162 lists its opcode, or its opcode and function code, as unassigned. That
these words are the invalid ones is the spec's own choice (D13; log 35). -/
def Obligations.RejectedWordsAreTheUnassignedOnes : Prop :=
  ∀ w : Word, (∃ e, decode w = .error e) ↔
    w.toNat % 64 ∈ [0x00, 0x01, 0x02, 0x03, 0x08, 0x09, 0x0B, 0x10, 0x11, 0x13, 0x18, 0x19, 0x1B, 0x20, 0x21, 0x22,
      0x23, 0x28, 0x30] ∨
    w.toNat % 64 = 0x39 ∧ w.toNat / 2 ^ 28 = 0xC ∨
    w.toNat % 64 = 0x31 ∧ w.toNat / 2 ^ 28 ∈ [0xE, 0xA, 0x7, 0x5, 0x4] ∨
    w.toNat % 64 = 0x29 ∧ w.toNat / 2 ^ 28 ∈ [0xD, 0xA, 0x9, 0x8, 0x7, 0x6, 0x5, 0x4, 0x3, 0x2, 0x1, 0x0]

/-- Fields an instruction does not use do not matter to its decoding (30_encoding R163; log 35). -/
def Obligations.UnusedFieldsAreIgnored : Prop :=
  ∀ (ra rb : RegNum) (sc : ShiftedReg),
    decode (encReg 0x31 0xF ra rb sc) = .ok (.mul ra rb sc.rc) ∧
    decode (encReg 0x31 0xD ra rb sc) = .ok (.div ra rb sc.rc) ∧
    decode (encReg 0x31 0xC ra rb sc) = .ok (.divSigned ra rb sc.rc) ∧
    decode (encReg 0x31 0xB ra rb sc) = .ok (.mod ra rb sc.rc) ∧
    decode (encReg 0x31 0x9 ra rb sc) = .ok (.ll ra rb) ∧
    decode (encReg 0x31 0x8 ra rb sc) = .ok (.sc ra rb sc.rc) ∧
    decode (encReg 0x31 0x6 ra rb sc) = .ok .pause ∧
    decode (encReg 0x31 0x3 ra rb sc) = .ok .mb ∧
    decode (encReg 0x31 0x2 ra rb sc) = .ok .wmb ∧
    decode (encReg 0x31 0x1 ra rb sc) = .ok .brk ∧
    decode (encReg 0x31 0x0 ra rb sc) = .ok .sys ∧
    decode (encReg 0x29 0xF ra rb sc) = .ok (.mfcr ra sc.rc) ∧
    decode (encReg 0x29 0xE ra rb sc) = .ok (.mtcr sc.rc rb) ∧
    decode (encReg 0x29 0xC ra rb sc) = .ok .hlt ∧
    decode (encReg 0x29 0xB ra rb sc) = .ok .rfe ∧
    decode (encReg 0x39 0x8 ra rb ⟨sc.rc, .lsh, sc.amount⟩) = .ok (.lsh ra sc.rc rb) ∧
    decode (encReg 0x39 0x8 ra rb ⟨sc.rc, .rsh, sc.amount⟩) = .ok (.rsh ra sc.rc rb) ∧
    decode (encReg 0x39 0x8 ra rb ⟨sc.rc, .ash, sc.amount⟩) = .ok (.ash ra sc.rc rb) ∧
    decode (encReg 0x39 0x8 ra rb ⟨sc.rc, .ror, sc.amount⟩) = .ok (.ror ra sc.rc rb)

/-! ## Fetch, step, registers, reset -/

/-- A pc that is not a multiple of four raises UNA; a fetch's exception is taken; a fetched word that is no instruction
raises INV, or PRV where it is of opcode 0x29 in usermode (20_memory R90, 30_encoding R162, 45_privileged R338;
logs 16, 17, 35). The pc saved and that T and bits 7:4 of RS stay are the spec's own choices (60_exceptions R358, R359;
logs 19, 20). -/
def Obligations.FetchAndDecodeExceptions : Prop :=
  ∀ s : State,
    (s.pc.toNat % 4 ≠ 0 → ∃ t, runInstruction s = .next t ∧ NormalEntry 9 s.pc (some s.pc) s t) ∧
    (∀ e, fetchWord s = .trap e → runInstruction s = .next (takeException e s)) ∧
    (∀ w u e, fetchWord s = .ok (w, u) → decode w = .error e →
      ∃ t, runInstruction s = .next t ∧
        NormalEntry (if w.toNat % 64 = 0x29 ∧ s.bitU = true then 8 else 7) s.pc none u t)

/-- When the environment does nothing, no interrupt is taken, the processor is not halted, and the four bytes at the
pc's physical address decode to an instruction of which the Icache holds no older copy, a step is that instruction's
execution, after the model's counter (log 1) has moved on and the NMI counter has ticked (log 31). -/
def Obligations.StepRunsTheDecodedInstruction : Prop :=
  ∀ (s : State) (pa : Word) (bypass : Bool) (i : Instr),
    s.inputs = [] → (s.nmiPending = 0 ∨ s.nmiMask ≠ 0) → (s.intLine = false ∨ s.bitI = false) →
    s.halted = false → s.pc.toNat % 4 = 0 → translateVa s.pc .fetch s = .ok (pa, bypass) → OrdinaryMemory s pa →
    (bypass = true ∨ ∀ c ∈ s.icacheStale, c.addr ≠ pa.toNat / 4 * 4) →
    decodeBytes [s.mem.read pa.toNat, s.mem.read (pa.toNat + 1), s.mem.read (pa.toNat + 2),
      s.mem.read (pa.toNat + 3)] = .ok i →
    step s = exec i { s with fresh := s.fresh + 1, nmiMask := s.nmiMask - 1 }

/-- The zero-register rule (10_state R22, R23): register 0 is wired to zero while RS.T is clear and a real register while
it is set; every other register holds what is written. -/
def Obligations.ZeroRegisterRule : Prop :=
  ∀ (s : State) (r q : RegNum) (v : Word),
    (s.bitT = false → s.readReg 0 = 0 ∧ (s.writeReg 0 v).regs = s.regs) ∧
    (r ≠ 0 ∨ s.bitT = true →
      s.readReg r = s.regs[r.toNat]'r.isLt ∧ (s.writeReg r v).regs[r.toNat]'r.isLt = v ∧
        (s.writeReg r v).readReg r = v) ∧
    (q ≠ r → (s.writeReg r v).readReg q = s.readReg q)

/-- Reset, at the start and during a run (70_reset R420): RS is zero and the pc 0xFFFE1000, so kernel mode, interrupts and
translation off, register 0 zero, both saved modes and ECAUSE zero; a halt ends. WHAMI is the processor's id, below
MAXPROC (10_state R33, R60): an opaque constant, the model's choice (log 5). -/
def Obligations.ResetState : Prop :=
  (∀ s : State, s = State.reset ∨ (∃ r, s = applyMove .reset r) →
    s.pc = 0xFFFE1000 ∧ s.rs = 0 ∧ s.bitU = false ∧ s.bitI = false ∧ s.bitM = false ∧ s.bitT = false ∧
    s.readReg 0 = 0 ∧ s.rs.extractLsb' 8 8 = 0 ∧ s.rs.extractLsb' 16 8 = 0 ∧ s.ecause = 0 ∧ s.halted = false) ∧
  State.reset.whami = Config.procId ∧ Config.procId.toNat < Config.maxProc

/-! ## Jumps and branches -/

/-- J and JAL (40_jump R190, R191). The field positions of their words are inferred (log 42). -/
def Obligations.JumpTargets : Prop :=
  ∀ (s : State) (imm : BitVec 29),
    ((encode (.j imm)).toNat = imm.toNat * 2 ^ 3 + 6 ∧
      ∃ t, exec (.j imm) s = .next t ∧ OnlyPc s t ∧ t.pc.toNat = imm.toNat * 4 + s.pc.toNat / 2 ^ 31 * 2 ^ 31) ∧
    ((encode (.jal imm)).toNat = imm.toNat * 2 ^ 3 + 7 ∧
      ∃ t, exec (.jal imm) s = .next t ∧ WritesReg 31 (BitVec.ofNat 32 (s.pc.toNat + 4)) s t ∧
        t.readReg 31 = BitVec.ofNat 32 (s.pc.toNat + 4) ∧
        t.pc.toNat = imm.toNat * 4 + s.pc.toNat / 2 ^ 31 * 2 ^ 31)

/-- The eight branches (41_branch R200 to R208). The field positions of their words are inferred (30_encoding R153;
log 42). -/
def Obligations.BranchConditions : Prop :=
  ∀ (s : State) (ra : RegNum) (imm : BitVec 21),
    ((encode (.beq ra imm)).toNat = branchNumber 0x3D ra imm ∧ Branches (.beq ra imm) s imm ((s.readReg ra).toNat = 0)) ∧
    ((encode (.bne ra imm)).toNat = branchNumber 0x35 ra imm ∧ Branches (.bne ra imm) s imm ((s.readReg ra).toNat ≠ 0)) ∧
    ((encode (.blt ra imm)).toNat = branchNumber 0x2D ra imm ∧ Branches (.blt ra imm) s imm ((s.readReg ra).toInt < 0)) ∧
    ((encode (.bgt ra imm)).toNat = branchNumber 0x25 ra imm ∧ Branches (.bgt ra imm) s imm (0 < (s.readReg ra).toInt)) ∧
    ((encode (.ble ra imm)).toNat = branchNumber 0x1D ra imm ∧ Branches (.ble ra imm) s imm ((s.readReg ra).toInt ≤ 0)) ∧
    ((encode (.bge ra imm)).toNat = branchNumber 0x15 ra imm ∧ Branches (.bge ra imm) s imm (0 ≤ (s.readReg ra).toInt)) ∧
    ((encode (.bpe ra imm)).toNat = branchNumber 0x0D ra imm ∧
      Branches (.bpe ra imm) s imm ((s.readReg ra).toNat % 2 = 0)) ∧
    ((encode (.bpo ra imm)).toNat = branchNumber 0x05 ra imm ∧
      Branches (.bpo ra imm) s imm ((s.readReg ra).toNat % 2 = 1))

/-- JALR where it does not link into the register it jumps through, or discards the link (42_imm_operate R243). -/
def Obligations.JalrTarget : Prop :=
  ∀ (s : State) (ra rb : RegNum) (imm : BitVec 16),
    (encode (.jalr ra rb imm)).toNat = immNumber 0x38 ra rb imm ∧
    (ra ≠ rb ∨ ra = 0 ∧ s.bitT = false →
      ∃ t, exec (.jalr ra rb imm) s = .next t ∧ WritesReg ra (BitVec.ofNat 32 (s.pc.toNat + 4)) s t ∧
        (t.pc.toNat : Int) = (((s.readReg rb).toNat : Int) + 4 * imm.toInt) % 2 ^ 32)

/-- JALR that links into the register it jumps through (42_imm_operate R244b): the model's choice (log 14) is that the
base is the register's old value or the link, undetermined. -/
def Obligations.JalrThroughItsLinkRegister : Prop :=
  ∀ (s : State) (ra : RegNum) (imm : BitVec 16), ra ≠ 0 ∨ s.bitT = true →
    ∃ t, exec (.jalr ra ra imm) s = .next t ∧ WritesReg ra (BitVec.ofNat 32 (s.pc.toNat + 4)) s t ∧
      ((t.pc.toNat : Int) = (((s.readReg ra).toNat : Int) + 4 * imm.toInt) % 2 ^ 32 ∨
        (t.pc.toNat : Int) = ((s.pc.toNat : Int) + 4 + 4 * imm.toInt) % 2 ^ 32)

/-! ## Arithmetic and logic -/

/-- ADDI, SUBI, SLTI, SLTI SIGNED (42_imm_operate R220 to R223). -/
def Obligations.ImmediateArithmetic : Prop :=
  ∀ (s : State) (ra rb : RegNum) (imm : BitVec 16),
    ((encode (.addi ra rb imm)).toNat = immNumber 0x3C ra rb imm ∧
      Completes (.addi ra rb imm) s ra fun v => v.toNat = ((s.readReg rb).toNat + imm.toNat) % 2 ^ 32) ∧
    ((encode (.subi ra rb imm)).toNat = immNumber 0x34 ra rb imm ∧
      Completes (.subi ra rb imm) s ra fun v =>
        (v.toNat : Int) = (((s.readReg rb).toNat : Int) - (imm.toNat : Int)) % 2 ^ 32) ∧
    ((encode (.slti ra rb imm)).toNat = immNumber 0x2C ra rb imm ∧
      Completes (.slti ra rb imm) s ra fun v => v.toNat = if (s.readReg rb).toNat < imm.toNat then 1 else 0) ∧
    ((encode (.sltiSigned ra rb imm)).toNat = immNumber 0x24 ra rb imm ∧
      Completes (.sltiSigned ra rb imm) s ra fun v => v.toNat = if (s.readReg rb).toInt < imm.toInt then 1 else 0)

/-- ANDI, XORI, ORI, LUI, bit by bit (42_imm_operate R224 to R227). -/
def Obligations.ImmediateLogic : Prop :=
  ∀ (s : State) (ra rb : RegNum) (imm : BitVec 16),
    ((encode (.andi ra rb imm)).toNat = immNumber 0x1C ra rb imm ∧
      Completes (.andi ra rb imm) s ra fun v =>
        ∀ k, k < 32 → v.getLsbD k = ((s.readReg rb).getLsbD k && imm.toNat.testBit k)) ∧
    ((encode (.xori ra rb imm)).toNat = immNumber 0x14 ra rb imm ∧
      Completes (.xori ra rb imm) s ra fun v =>
        ∀ k, k < 32 → v.getLsbD k = ((s.readReg rb).getLsbD k != imm.toNat.testBit k)) ∧
    ((encode (.ori ra rb imm)).toNat = immNumber 0x0C ra rb imm ∧
      Completes (.ori ra rb imm) s ra fun v =>
        ∀ k, k < 32 → v.getLsbD k = ((s.readReg rb).getLsbD k || imm.toNat.testBit k)) ∧
    ((encode (.lui ra rb imm)).toNat = immNumber 0x04 ra rb imm ∧
      Completes (.lui ra rb imm) s ra fun v =>
        ∀ k, k < 32 → v.getLsbD k = ((s.readReg rb).getLsbD k || (imm.toNat * 2 ^ 16).testBit k))

/-- The four shifts by 0 to 31, as numbers (30_encoding R157; log 43). -/
def Obligations.ShiftMeaning : Prop :=
  ∀ (kind : ShiftType) (v : Word) (a : BitVec 5), ShiftsTo kind v a.toNat (shiftBy kind v a)

/-- ADD, SUB, SLT, SLT SIGNED on register B and the shifted register C (43_reg_operate R260, R275 to
R278; what the shifts do, log 43). -/
def Obligations.RegisterArithmetic : Prop :=
  ∀ (s : State) (ra rb : RegNum) (sc : ShiftedReg), ∃ c : Word,
    ShiftsTo sc.kind (s.readReg sc.rc) sc.amount.toNat c ∧
    Completes (.add ra rb sc) s ra (fun v => v.toNat = ((s.readReg rb).toNat + c.toNat) % 2 ^ 32) ∧
    Completes (.sub ra rb sc) s ra
      (fun v => (v.toNat : Int) = (((s.readReg rb).toNat : Int) - (c.toNat : Int)) % 2 ^ 32) ∧
    Completes (.slt ra rb sc) s ra (fun v => v.toNat = if (s.readReg rb).toNat < c.toNat then 1 else 0) ∧
    Completes (.sltSigned ra rb sc) s ra (fun v => v.toNat = if (s.readReg rb).toInt < c.toInt then 1 else 0)

/-- AND, XOR, OR, NOR on register B and the shifted register C, bit by bit (43_reg_operate R260,
R279 to R282; what the shifts do, log 43). -/
def Obligations.RegisterLogic : Prop :=
  ∀ (s : State) (ra rb : RegNum) (sc : ShiftedReg), ∃ c : Word,
    ShiftsTo sc.kind (s.readReg sc.rc) sc.amount.toNat c ∧
    Completes (.and ra rb sc) s ra
      (fun v => ∀ k, k < 32 → v.getLsbD k = ((s.readReg rb).getLsbD k && c.getLsbD k)) ∧
    Completes (.xor ra rb sc) s ra
      (fun v => ∀ k, k < 32 → v.getLsbD k = ((s.readReg rb).getLsbD k != c.getLsbD k)) ∧
    Completes (.or ra rb sc) s ra
      (fun v => ∀ k, k < 32 → v.getLsbD k = ((s.readReg rb).getLsbD k || c.getLsbD k)) ∧
    Completes (.nor ra rb sc) s ra
      (fun v => ∀ k, k < 32 → v.getLsbD k = !((s.readReg rb).getLsbD k || c.getLsbD k))

/-- LSH, RSH, ASH, ROR: register C shifted by the contents of register B (43_reg_operate R270 to R274; what the shifts do,
log 43). For amounts of 32 or more the instruction completes and the value is free (log 13). -/
def Obligations.ShiftByRegister : Prop :=
  ∀ (s : State) (ra rc rb : RegNum),
    Completes (.lsh ra rc rb) s ra
      (fun v => (s.readReg rb).toNat < 32 → ShiftsTo .lsh (s.readReg rc) (s.readReg rb).toNat v) ∧
    Completes (.rsh ra rc rb) s ra
      (fun v => (s.readReg rb).toNat < 32 → ShiftsTo .rsh (s.readReg rc) (s.readReg rb).toNat v) ∧
    Completes (.ash ra rc rb) s ra
      (fun v => (s.readReg rb).toNat < 32 → ShiftsTo .ash (s.readReg rc) (s.readReg rb).toNat v) ∧
    Completes (.ror ra rc rb) s ra
      (fun v => (s.readReg rb).toNat < 32 → ShiftsTo .ror (s.readReg rc) (s.readReg rb).toNat v)

/-- MUL, DIV, DIV SIGNED, MOD (44_reg_operate R301 to R305). For a zero divisor, and for the one signed quotient that does
not fit, the instruction completes and the value is free (log 12). -/
def Obligations.MultiplyAndDivide : Prop :=
  ∀ (s : State) (ra rb rc : RegNum),
    Completes (.mul ra rb rc) s ra
      (fun v => v.toNat = (s.readReg rb).toNat * (s.readReg rc).toNat % 2 ^ 32) ∧
    Completes (.div ra rb rc) s ra
      (fun v => (s.readReg rc).toNat ≠ 0 → v.toNat = (s.readReg rb).toNat / (s.readReg rc).toNat) ∧
    Completes (.divSigned ra rb rc) s ra
      (fun v => (s.readReg rc).toNat ≠ 0 → ¬((s.readReg rb).toInt = -2 ^ 31 ∧ (s.readReg rc).toInt = -1) →
        v.toInt = (s.readReg rb).toInt.tdiv (s.readReg rc).toInt) ∧
    Completes (.mod ra rb rc) s ra
      (fun v => (s.readReg rc).toNat ≠ 0 →
        v.toNat = (s.readReg rb).toNat - (s.readReg rc).toNat * ((s.readReg rb).toNat / (s.readReg rc).toNat))

/-! ## Memory -/

/-- The six loads (42_imm_operate R230 to R233, 43_reg_operate R261 to R263): from an aligned address that translates to
memory, the register takes the bytes there, zero-extended (log 11); through a cache that may hold an older copy of the
word, possibly that copy's (20_memory R128). -/
def Obligations.LoadsReadTheirBytes : Prop :=
  ∀ (s : State) (i : Instr) (ra : RegNum) (va : Word) (w : Width) (pa : Word) (bypass : Bool),
    loadOf s i = some (ra, va, w) → va.toNat % w.bytes = 0 → translateVa va .read s = .ok (pa, bypass) →
    OrdinaryMemory s pa →
    Completes i s ra fun v => ReadsAs s.dcacheStale s.mem pa w bypass v

/-- The nine stores (42_imm_operate R235 to R241, 43_reg_operate R264 to R266): to an aligned address that translates to
RAM, the low bytes of the data, the lowest first; the Icache may keep the word replaced and no other (20_memory R121;
log 29), the Dcache's older copies follow (R130a; log 30); nothing else changes. -/
def Obligations.StoresWriteTheirBytes : Prop :=
  ∀ (s : State) (i : Instr) (va : Word) (w : Width) (data pa : Word) (bypass : Bool),
    s.mem.wf → storeOf s i = some (va, w, data) → va.toNat % w.bytes = 0 →
    translateVa va .write s = .ok (pa, bypass) → regionAt s.regions pa.toNat = .ram →
    StoresAt i s pa.toNat w data

/-- Where the data access of a load, a store, LL or a locked SC does not reach RAM: the exception of a misaligned address,
the exception or the stop of its translation, the bus error where nothing answers, a device's answer, and for a store to
ROM either the bus error or no effect (20_memory R83, R87, R91, R102, R104, R135, R137, 00_scope R7; logs 8, 9, 16, 17, 24,
25, 44). The pc that UNA and BUS save and that T and bits 7:4 of RS stay are the spec's own choices (60_exceptions R358,
R359; logs 19, 20). -/
def Obligations.AccessesThatDoNotReachMemory : Prop :=
  ∀ (s : State) (i : Instr) (va : Word) (w : Width) (kind : AccessKind), accessOf s i = some (va, w, kind) →
    (va.toNat % w.bytes ≠ 0 → ∃ t, exec i s = .next t ∧ NormalEntry 9 s.pc (some va) s t) ∧
    (va.toNat % w.bytes = 0 →
      (∀ e, translateVa va kind s = .trap e → exec i s = .next (takeException e s)) ∧
      (∀ f, translateVa va kind s = .fault f → exec i s = .fault f) ∧
      (∀ r, translateVa va kind s = .refused r → exec i s = .refused r) ∧
      (∀ pa bypass, translateVa va kind s = .ok (pa, bypass) →
        (regionAt s.regions pa.toNat = .empty → ∃ t, exec i s = .next t ∧ NormalEntry 4 s.pc (some pa) s t) ∧
        (∀ effect, regionAt s.regions pa.toNat = .device effect →
          (∃ t, exec i s = .next t ∧ NormalEntry 4 s.pc (some pa) s t) ∨
          ∃ v log, v.toNat < 256 ^ w.bytes ∧
            LogsAccess ⟨kind, pa, w, v, effect || kind == .write⟩ bypass s.deviceLog log ∧
            CompletesElsewhere i s pa v log) ∧
        (regionAt s.regions pa.toNat = .rom → kind = .write →
          (∃ t, exec i s = .next t ∧ NormalEntry 4 s.pc (some pa) s t) ∨
          ∃ v, CompletesElsewhere i s pa v s.deviceLog)))

/-- A processor sees its own store (20_memory R130a, the spec's own reading): a load of the same address and width after it
gives the stored bytes, zero-extended (log 11), whatever older copies its Dcache may hold, because a store goes into those
as well (log 30). -/
def Obligations.LoadSeesOwnStore : Prop :=
  ∀ (s : State) (i j : Instr) (rd : RegNum) (va : Word) (w : Width) (data pa : Word) (bypass : Bool),
    s.mem.wf → storeOf s i = some (va, w, data) → loadOf s j = some (rd, va, w) → s.wired rd = false →
    va.toNat % w.bytes = 0 → translateVa va .write s = .ok (pa, bypass) → regionAt s.regions pa.toNat = .ram →
    ∃ t u, exec i s = .next t ∧ exec j t = .next u ∧ (u.readReg rd).toNat = data.toNat % 256 ^ w.bytes

/-- What a fetch sees: memory's word or, through the Icache, an older copy of it (20_memory R121; log 29); a bus error where
nothing answers (R135); a device's answer or its bus error (R137; log 8). -/
def Obligations.FetchReadsMemoryOrAnOldCopy : Prop :=
  ∀ (s : State) (pa : Word) (bypass : Bool), s.pc.toNat % 4 = 0 → translateVa s.pc .fetch s = .ok (pa, bypass) →
    (OrdinaryMemory s pa → ∃ w, fetchWord s = .ok (w, s) ∧ ReadsAs s.icacheStale s.mem pa .long bypass w) ∧
    (regionAt s.regions pa.toNat = .empty → fetchWord s = .trap (.bus pa)) ∧
    (∀ effect, regionAt s.regions pa.toNat = .device effect →
      fetchWord s = .trap (.bus pa) ∨
      ∃ w log, LogsAccess ⟨.fetch, pa, .long, w, effect⟩ bypass s.deviceLog log ∧
        fetchWord s = .ok (w, { s with deviceLog := log }))

/-- The cache commands (20_memory R125; logs 27, 29, 30): 11 forgets every old copy, 10 those of one page frame, the
others are unpredictable; a command acts on its own cache only. -/
def Obligations.CacheCommands : Prop :=
  ∀ (s : State) (rb : RegNum), s.bitU = false →
    ((s.readReg rb).toNat % 4 = 3 →
      exec (.mtcr 20 rb) s =
        .next { s with pc := s.pc + 4, nmiMask := Config.nmiMaskInsns, icacheStale := [] } ∧
      exec (.mtcr 28 rb) s =
        .next { s with pc := s.pc + 4, nmiMask := Config.nmiMaskInsns, dcacheStale := [] }) ∧
    ((s.readReg rb).toNat % 4096 = 2 →
      (∃ l, exec (.mtcr 20 rb) s =
          .next { s with pc := s.pc + 4, nmiMask := Config.nmiMaskInsns, icacheStale := l } ∧
        ∀ c, c ∈ l ↔ c ∈ s.icacheStale ∧ c.addr / 4096 ≠ (s.readReg rb).toNat / 4096) ∧
      (∃ l, exec (.mtcr 28 rb) s =
          .next { s with pc := s.pc + 4, nmiMask := Config.nmiMaskInsns, dcacheStale := l } ∧
        ∀ c, c ∈ l ↔ c ∈ s.dcacheStale ∧ c.addr / 4096 ≠ (s.readReg rb).toNat / 4096)) ∧
    ((s.readReg rb).toNat % 4 < 2 →
      exec (.mtcr 20 rb) s = .fault .unpredictableCacheCommand ∧
      exec (.mtcr 28 rb) s = .fault .unpredictableCacheCommand) ∧
    ((s.readReg rb).toNat % 4 = 2 → (s.readReg rb).toNat % 4096 ≠ 2 →
      exec (.mtcr 20 rb) s = .refused .commandBits ∧ exec (.mtcr 28 rb) s = .refused .commandBits)

/-! ## Translation -/

/-- Translation (20_memory R99 to R103, R122; PTE positions log 10): off, the physical address is the virtual one and the
caches are bypassed from 3 GB on; on, the one entry that matches gives the page and the bypass if it allows the access,
and otherwise a page fault. Which bits are checked for which access, V and K but not W for a fetch, is the spec's own
choice (R103, D16; log 38). -/
def Obligations.TranslationByTheOneMatch : Prop :=
  ∀ (s : State) (va : Word) (kind : AccessKind),
    (s.bitM = false → translateVa va kind s = .ok (va, decide (0xC0000000 ≤ va.toNat))) ∧
    (Inv s → s.bitM = true → (s.tagOf kind.tb).toNat / 2 ^ 20 ≠ 0xFFF →
      ∀ x ∈ s.tbOf kind.tb, Matches s.pteLayout x va (s.tagOf kind.tb) →
        (∀ y ∈ s.tbOf kind.tb, Matches s.pteLayout y va (s.tagOf kind.tb) → y = x) →
        (Allows s.pteLayout x.entry.pte kind s.bitU →
          ∃ pa : Word, translateVa va kind s = .ok (pa, x.entry.pte.getLsbD s.pteLayout.n) ∧
            InPageOf s.pteLayout x.entry.pte va pa) ∧
        (¬Allows s.pteLayout x.entry.pte kind s.bitU → translateVa va kind s = .trap (.pageFault kind va)))

/-- No match is a TB miss (20_memory R100, R101); two matches and the reserved ASID have no meaning (R102, R104; logs 24,
25). -/
def Obligations.TranslationWithoutOneMatch : Prop :=
  ∀ (s : State) (va : Word) (kind : AccessKind), s.bitM = true →
    ((s.tagOf kind.tb).toNat / 2 ^ 20 ≠ 0xFFF → (∀ y ∈ s.tbOf kind.tb, ¬Matches s.pteLayout y va (s.tagOf kind.tb)) →
      translateVa va kind s = .trap (.tbMiss kind va)) ∧
    ((s.tagOf kind.tb).toNat / 2 ^ 20 ≠ 0xFFF →
      (∃ x ∈ s.tbOf kind.tb, ∃ y ∈ s.tbOf kind.tb, x ≠ y ∧ Matches s.pteLayout x va (s.tagOf kind.tb) ∧
        Matches s.pteLayout y va (s.tagOf kind.tb)) →
      translateVa va kind s = .refused .severalTbMatches) ∧
    ((s.tagOf kind.tb).toNat / 2 ^ 20 = 0xFFF → translateVa va kind s = .fault .reservedAsid)

/-- TB insertion by MTCR (20_memory R108): the entry at the index takes the tag register and the value, every other entry
stays, the index moves on and wraps to 4. With an index beyond the TB the instruction completes; what it inserts is free
(log 23). -/
def Obligations.TbInsertion : Prop :=
  ∀ (s : State) (rb : RegNum), Inv s → s.bitU = false →
    (∃ tb index, exec (.mtcr 16 rb) s =
        .next { s with pc := s.pc + 4, nmiMask := Config.nmiMaskInsns, itb := tb, itbIndex := index } ∧
      tb.wf Config.itbSize ∧
      (s.itbIndex.toNat < Config.itbSize →
        (∀ x, x ∈ tb ↔ x = ⟨s.itbIndex.toNat, s.itbTag, s.readReg rb⟩ ∨ x ∈ s.itb ∧ x.index ≠ s.itbIndex.toNat) ∧
        index.toNat = if s.itbIndex.toNat + 1 = Config.itbSize then 4 else s.itbIndex.toNat + 1)) ∧
    (∃ tb index, exec (.mtcr 24 rb) s =
        .next { s with pc := s.pc + 4, nmiMask := Config.nmiMaskInsns, dtb := tb, dtbIndex := index } ∧
      tb.wf Config.dtbSize ∧
      (s.dtbIndex.toNat < Config.dtbSize →
        (∀ x, x ∈ tb ↔ x = ⟨s.dtbIndex.toNat, s.dtbTag, s.readReg rb⟩ ∨ x ∈ s.dtb ∧ x.index ≠ s.dtbIndex.toNat) ∧
        index.toNat = if s.dtbIndex.toNat + 1 = Config.dtbSize then 4 else s.dtbIndex.toNat + 1))

/-- Probing the size (20_memory R110): from index 0, n insertions leave the index at n, and as many as the TB has entries
leave it at 4. -/
def Obligations.TbSizeProbe : Prop :=
  ∀ (s : State) (rb : RegNum) (n : Nat), s.bitU = false →
    (s.itbIndex = 0 → n ≤ Config.itbSize →
      ∃ t, execList (List.replicate n (.mtcr 16 rb)) s = .next t ∧
        t.itbIndex.toNat = if n = Config.itbSize then 4 else n) ∧
    (s.dtbIndex = 0 → n ≤ Config.dtbSize →
      ∃ t, execList (List.replicate n (.mtcr 24 rb)) s = .next t ∧
        t.dtbIndex.toNat = if n = Config.dtbSize then 4 else n)

/-- TB invalidation by MTCR (20_memory R111; log 27): which entries stay used, by the command in bits 1:0. -/
def Obligations.TbCommands : Prop :=
  ∀ (s : State) (rb : RegNum), s.bitU = false →
    ∀ keep : TbSlot → Prop,
      ((s.readReg rb).toNat % 4 = 3 ∧ (∀ x, ¬keep x) ∨
        (s.readReg rb).toNat % 4 = 2 ∧ (∀ x, keep x ↔ x.index < 4 ∨ x.entry.pte.getLsbD s.pteLayout.g = true) ∨
        (s.readReg rb).toNat % 4 = 1 ∧ (∀ x, keep x ↔ x.index < 4) ∨
        (s.readReg rb).toNat % 4096 = 0 ∧
          (∀ x, keep x ↔ x.entry.tag.toNat % 2 ^ 20 ≠ (s.readReg rb).toNat / 2 ^ 12)) →
      (∃ tb, exec (.mtcr 19 rb) s =
          .next { s with pc := s.pc + 4, nmiMask := Config.nmiMaskInsns, itb := tb } ∧
        ∀ x, x ∈ tb ↔ x ∈ s.itb ∧ keep x) ∧
      (∃ tb, exec (.mtcr 27 rb) s =
          .next { s with pc := s.pc + 4, nmiMask := Config.nmiMaskInsns, dtb := tb } ∧
        ∀ x, x ∈ tb ↔ x ∈ s.dtb ∧ keep x)

/-! ## Exceptions -/

/-- The entry of a TB miss while T is clear (60_exceptions R360; that bits 7:4 of RS stay is the spec's own choice,
log 19). -/
def Obligations.FirstTbMissEntry : Prop :=
  ∀ (s : State) (kind : AccessKind) (va : Word), s.bitT = false →
    ∃ t, takeException (.tbMiss kind va) s = t ∧
      NotesMiss kind.tb va s t ∧ t.tbmissaddr = va ∧ t.tbpc = s.pc ∧ t.epc = s.epc ∧ t.ebadaddr = s.ebadaddr ∧
      (t.missWasWrite = true ↔ kind = .write) ∧
      Pushed (if kind = .fetch then 14 else 15) true s.rs t.rs ∧
      AtVector (if kind = .fetch then 14 else 15) s t ∧
      t.nmiMask = Config.nmiMaskInsns ∧
      (∀ (k : Nat) (h : k < 32), k ≠ 0 → t.regs[k] = s.regs[k]) ∧
      t = { s with
        itbTag := t.itbTag, itbAddr := t.itbAddr, dtbTag := t.dtbTag, dtbAddr := t.dtbAddr, tbmissaddr := t.tbmissaddr,
        tbpc := t.tbpc, missWasWrite := t.missWasWrite, rs := t.rs, regs := t.regs, pc := t.pc, nmiMask := t.nmiMask }

/-- The entry of a TB miss while T is set (60_exceptions R361): nothing is pushed or saved; ECAUSE stays or takes the code
(log 18). -/
def Obligations.NestedTbMissEntry : Prop :=
  ∀ (s : State) (kind : AccessKind) (va : Word), s.bitT = true →
    ∃ t, takeException (.tbMiss kind va) s = t ∧
      NotesMiss kind.tb va s t ∧
      t.rs.extractLsb' 0 28 = s.rs.extractLsb' 0 28 ∧
      (t.ecause = s.ecause ∨ t.ecause = if kind = .fetch then 14 else 15) ∧
      AtVector (if kind = .fetch then 14 else 15) s t ∧
      t.nmiMask = Config.nmiMaskInsns ∧
      t = { s with
        itbTag := t.itbTag, itbAddr := t.itbAddr, dtbTag := t.dtbTag, dtbAddr := t.dtbAddr, rs := t.rs, pc := t.pc,
        nmiMask := t.nmiMask }

/-- The entry of a page fault while T is clear (60_exceptions R362): the normal one, PFW for a write and PGF otherwise,
with the faulting address (that T and bits 7:4 of RS stay, and that a fetch counts as a read, are the spec's own choices,
logs 19, 38). -/
def Obligations.PageFaultEntry : Prop :=
  ∀ (s : State) (kind : AccessKind) (va : Word), s.bitT = false →
    NormalEntry (if kind = .write then 13 else 12) s.pc (some va) s (takeException (.pageFault kind va) s)

/-- The entry of a page fault while T is set (60_exceptions R363): it looks like a fault on the address that first missed;
ECAUSE stays or takes the code (log 18). -/
def Obligations.NestedPageFaultEntry : Prop :=
  ∀ (s : State) (kind : AccessKind) (va : Word), s.bitT = true →
    ∃ t, takeException (.pageFault kind va) s = t ∧
      t.ebadaddr = s.tbmissaddr ∧ t.epc = s.tbpc ∧ t.bitT = false ∧
      (∀ k, k < 28 → k ≠ 3 → t.rs.getLsbD k = s.rs.getLsbD k) ∧
      (t.ecause = s.ecause ∨ t.ecause = if s.missWasWrite then 13 else 12) ∧
      AtVector (if s.missWasWrite then 13 else 12) s t ∧
      t.nmiMask = Config.nmiMaskInsns ∧
      t = { s with
        ebadaddr := t.ebadaddr, epc := t.epc, rs := t.rs, pc := t.pc, nmiMask := t.nmiMask }

/-- The four-instruction miss routine of the source (20_memory R116): after a data access missed, it returns to that
access in the interrupted mode, with every register but number 0 and all memory as before, and the access now finds the
PTE that stood in the linear page table (logs 10, 15, 19, 38, 39). -/
def Obligations.MissRoutineRefillsAndReturns : Prop :=
  ∀ (s : State) (kind : AccessKind) (va pa pte : Word) (bypass : Bool),
    Inv s → kind ≠ .fetch → s.bitM = true → s.bitT = false → s.dtbTag.toNat / 2 ^ 20 ≠ 0xFFF →
    (∀ y ∈ s.dtb, ¬Matches s.pteLayout y va s.dtbTag) → s.dtbIndex.toNat < Config.dtbSize →
    translateVa (BitVec.ofNat 32 (s.dtbAddr.toNat / 2 ^ 22 * 2 ^ 22 + va.toNat / 2 ^ 12 * 4)) .read
      (takeException (.tbMiss kind va) s) = .ok (pa, bypass) →
    OrdinaryMemory s pa → HoldsLE s.mem pa.toNat .long pte →
    (bypass = true ∨ ∀ c ∈ s.dcacheStale, c.addr ≠ pa.toNat / 4 * 4) →
    ∃ u, execList [.mfcr 0 29, .loadLong 0 0 0, .mtcr 24 0, .rfe] (takeException (.tbMiss kind va) s) = .next u ∧
      u.pc = s.pc ∧ u.rs.extractLsb' 0 16 = s.rs.extractLsb' 0 16 ∧ (∀ q, u.readReg q = s.readReg q) ∧
      (∀ a, u.mem.read a = s.mem.read a) ∧
      (Allows s.pteLayout pte kind s.bitU →
        ∃ p : Word, translateVa va kind u = .ok (p, pte.getLsbD s.pteLayout.n) ∧ InPageOf s.pteLayout pte va p) ∧
      (¬Allows s.pteLayout pte kind s.bitU → translateVa va kind u = .trap (.pageFault kind va))

/-- SYS and BRK take their exceptions (44_reg_operate R313, R314). The saved pc is the instruction's own address or the
next, the same choice in every state (60_exceptions R359; log 20); that T and bits 7:4 of RS stay is the spec's own choice
(R358; log 19). -/
def Obligations.SystemCallAndBreakpoint : Prop :=
  ∃ next : Bool, ∀ s : State,
    (∃ t, exec .sys s = .next t ∧ NormalEntry 2 (if next then s.pc + 4 else s.pc) none s t) ∧
    (∃ t, exec .brk s = .next t ∧ NormalEntry 6 (if next then s.pc + 4 else s.pc) none s t)

/-- Where an entry goes and in which mode (60_exceptions R350, R351, R355, R358): one of the twelve vectors, never the
four reserved slots; kernel mode with interrupts off and translation as it was, but for the two special entries, which
keep U and I (logs 19, 21). -/
def Obligations.EntriesGoToTheVectorsInKernelMode : Prop :=
  ∀ (s : State) (e : Exc),
    (s.eb.toNat % 4096 = 0 →
      ∃ code ∈ [1, 2, 4, 5, 6, 7, 8, 9, 12, 13, 14, 15],
        (takeException e s).pc.toNat = s.eb.toNat + 0x100 * code) ∧
    (takeException e s).bitM = s.bitM ∧
    (s.bitT = false ∨ (∀ k va, e ≠ .tbMiss k va ∧ e ≠ .pageFault k va) →
      (takeException e s).bitU = false ∧ (takeException e s).bitI = false)

/-- RFE (45_privileged R336). In usermode it takes PRV (the saved pc, log 20; T and bits 7:4 of RS stay, log 19). Where the
pop sets T, the stored register 0 is free (10_state R24; log 15). -/
def Obligations.ReturnFromException : Prop :=
  ∀ s : State,
    (s.bitU = true → ∃ t, exec .rfe s = .next t ∧ NormalEntry 8 s.pc none s t) ∧
    (s.bitU = false →
      ∃ t, exec .rfe s = .next t ∧
        t.pc = (if s.bitT then s.tbpc else s.epc) ∧
        t.rs.extractLsb' 0 16 = s.rs.extractLsb' 8 16 ∧ t.rs.extractLsb' 16 8 = 0 ∧
        t.rs.extractLsb' 24 8 = s.rs.extractLsb' 24 8 ∧
        t.locked = false ∧
        (∀ (k : Nat) (h : k < 32), k ≠ 0 → t.regs[k] = s.regs[k]) ∧
        (s.bitT = true ∨ s.rs.getLsbD 11 = false → t.regs = s.regs) ∧
        (∀ a, t.mem.read a = s.mem.read a) ∧
        t = { s with pc := t.pc, rs := t.rs, regs := t.regs, locked := t.locked })

/-- RFE right after the entry of an exception other than SYS and BRK, taken while T is clear, goes back to the pc where it
was taken, in the mode of then, with every register and all memory as they were (60_exceptions R352, R359;
45_privileged R336; logs 19, 20). -/
def Obligations.ReturnResumesWhereTheExceptionWasTaken : Prop :=
  ∀ (s : State) (e : Exc), s.bitT = false → e ≠ .plain .sys → e ≠ .plain .brk →
    ∃ u, exec .rfe (takeException e s) = .next u ∧ u.pc = s.pc ∧
      u.rs.extractLsb' 0 16 = s.rs.extractLsb' 0 16 ∧ (∀ q, u.readReg q = s.readReg q) ∧
      (∀ a, u.mem.read a = s.mem.read a)

/-! ## Privileged instructions -/

/-- In usermode the four privileged instructions take PRV and do nothing else (45_privileged R330; the saved pc,
log 20; T and bits 7:4 of RS stay, log 19). -/
def Obligations.PrivilegedInstructionsInUsermode : Prop :=
  ∀ (s : State) (r : RegNum) (n : CrNum), s.bitU = true →
    ∀ i ∈ ([.mfcr r n, .mtcr n r, .hlt, .rfe] : List Instr),
      ∃ t, exec i s = .next t ∧ NormalEntry 8 s.pc none s t

/-- MFCR in kernel mode, for every control register that is not absent (45_privileged R331). ITBPTE, DTBPTE, ITBCTRL and
DTBCTRL give a free value (log 28). -/
def Obligations.MoveFromControlRegister : Prop :=
  ∀ (s : State) (ra : RegNum), s.bitU = false →
    ReadsControl s ra 0 (· = s.rs) ∧ ReadsControl s ra 1 (· = s.whami) ∧
    ReadsControl s ra 5 (· = s.eb) ∧ ReadsControl s ra 6 (· = s.epc) ∧ ReadsControl s ra 7 (· = s.ebadaddr) ∧
    ReadsControl s ra 9 (· = s.tbmissaddr) ∧ ReadsControl s ra 10 (· = s.tbpc) ∧
    ReadsControl s ra 11 (· = s.scratch0) ∧ ReadsControl s ra 12 (· = s.scratch1) ∧
    ReadsControl s ra 13 (· = s.scratch2) ∧ ReadsControl s ra 14 (· = s.scratch3) ∧
    ReadsControl s ra 15 (· = s.scratch4) ∧
    ReadsControl s ra 17 (· = s.itbTag) ∧ ReadsControl s ra 25 (· = s.dtbTag) ∧
    ReadsControl s ra 18 (· = s.itbIndex) ∧ ReadsControl s ra 26 (· = s.dtbIndex) ∧
    ReadsControl s ra 21 (· = s.itbAddr) ∧ ReadsControl s ra 29 (· = s.dtbAddr) ∧
    ReadsControl s ra 20 (· = Config.cacheReadLayout Config.icLinesLog Config.icWaysLog Config.icLineSizeLog) ∧
    ReadsControl s ra 28 (· = Config.cacheReadLayout Config.dcLinesLog Config.dcWaysLog Config.dcLineSizeLog) ∧
    ReadsControl s ra 16 (fun _ => True) ∧ ReadsControl s ra 24 (fun _ => True) ∧
    ReadsControl s ra 19 (fun _ => True) ∧ ReadsControl s ra 27 (fun _ => True)

/-- MTCR in kernel mode to a control register that stores what is written: that register, the pc and the NMI mask counter
change, nothing else (45_privileged R332; the indices hold 32 bits, log 23). -/
def Obligations.MoveToStoringControlRegister : Prop :=
  ∀ (s : State) (rb : RegNum), s.bitU = false →
    ∀ u : State, u = { s with pc := s.pc + 4, nmiMask := Config.nmiMaskInsns } →
      exec (.mtcr 5 rb) s = .next { u with eb := s.readReg rb } ∧
      exec (.mtcr 6 rb) s = .next { u with epc := s.readReg rb } ∧
      exec (.mtcr 7 rb) s = .next { u with ebadaddr := s.readReg rb } ∧
      exec (.mtcr 9 rb) s = .next { u with tbmissaddr := s.readReg rb } ∧
      exec (.mtcr 10 rb) s = .next { u with tbpc := s.readReg rb } ∧
      exec (.mtcr 11 rb) s = .next { u with scratch0 := s.readReg rb } ∧
      exec (.mtcr 12 rb) s = .next { u with scratch1 := s.readReg rb } ∧
      exec (.mtcr 13 rb) s = .next { u with scratch2 := s.readReg rb } ∧
      exec (.mtcr 14 rb) s = .next { u with scratch3 := s.readReg rb } ∧
      exec (.mtcr 15 rb) s = .next { u with scratch4 := s.readReg rb } ∧
      exec (.mtcr 17 rb) s = .next { u with itbTag := s.readReg rb } ∧
      exec (.mtcr 25 rb) s = .next { u with dtbTag := s.readReg rb } ∧
      exec (.mtcr 18 rb) s = .next { u with itbIndex := s.readReg rb } ∧
      exec (.mtcr 26 rb) s = .next { u with dtbIndex := s.readReg rb } ∧
      exec (.mtcr 21 rb) s = .next { u with itbAddr := s.readReg rb } ∧
      exec (.mtcr 29 rb) s = .next { u with dtbAddr := s.readReg rb }

/-- MTCR to RS in kernel mode (10_state R32, 45_privileged R332): RS becomes the value, but bits written against MBZ are
free (log 22); the stored register 0 is free where T rises (log 15). -/
def Obligations.MoveToStatusRegister : Prop :=
  ∀ (s : State) (rb : RegNum), s.bitU = false →
    ∃ t, exec (.mtcr 0 rb) s = .next t ∧
      (∀ k, k < 32 → (s.readReg rb).getLsbD k = false ∨ ¬(24 ≤ k ∧ k < 28 ∨ 4 ≤ k ∧ k < 8) →
        t.rs.getLsbD k = (s.readReg rb).getLsbD k) ∧
      (∀ (k : Nat) (h : k < 32), k ≠ 0 → t.regs[k] = s.regs[k]) ∧
      (s.bitT = true ∨ (s.readReg rb).getLsbD 3 = false → t.regs = s.regs) ∧
      (∀ a, t.mem.read a = s.mem.read a) ∧
      t = { s with pc := s.pc + 4, nmiMask := Config.nmiMaskInsns, rs := t.rs, regs := t.regs }

/-- Where MFCR and MTCR have no meaning in kernel mode: an absent control register (10_state R46; log 26), a write to
WHAMI (R33; log 5), a TB command 00 with a non-zero bit among 11:2 (20_memory R111; log 27). -/
def Obligations.ControlRegisterStops : Prop :=
  ∀ (s : State) (r : RegNum), s.bitU = false →
    (∀ n ∈ ([2, 3, 4, 8, 22, 23, 30, 31] : List CrNum),
      exec (.mfcr r n) s = .fault (.absentControlRegister n) ∧
      exec (.mtcr n r) s = .fault (.absentControlRegister n)) ∧
    exec (.mtcr 1 r) s = .refused .whamiWrite ∧
    ((s.readReg r).toNat % 4 = 0 → (s.readReg r).toNat % 4096 ≠ 0 →
      exec (.mtcr 19 r) s = .refused .commandBits ∧ exec (.mtcr 27 r) s = .refused .commandBits)

/-- HLT in kernel mode halts after itself, and a halted processor waits: a step without an interrupt changes only the
model's counter and the NMI mask counter (45_privileged R334; logs 31, 33). -/
def Obligations.HaltWaits : Prop :=
  ∀ s : State,
    (s.bitU = false → exec .hlt s = .next { s with pc := s.pc + 4, halted := true }) ∧
    (s.halted = true → s.inputs = [] → (s.intLine = false ∨ s.bitI = false) →
      (s.nmiPending = 0 ∨ s.nmiMask ≠ 0) →
      step s = .next { s with fresh := s.fresh + 1, nmiMask := s.nmiMask - 1 })

/-- An external interrupt is taken at an instruction boundary, halted or not, when the line is asserted and RS.I is set and
no NMI goes first (60_exceptions R354, R372; 45_privileged R334; logs 32, 33). The pc saved and that T and bits 7:4 of RS
stay are the spec's own choices (60_exceptions R358, R359; logs 19, 20). -/
def Obligations.ExternalInterruptEntry : Prop :=
  ∀ s : State, s.inputs = [] → s.intLine = true → s.bitI = true → (s.nmiPending = 0 ∨ s.nmiMask ≠ 0) →
    ∃ t, step s = .next t ∧ NormalEntry 1 s.pc none { s with fresh := s.fresh + 1 } t

/-- An NMI is taken at an instruction boundary whatever RS.I is and before an external interrupt, when the mask counter is
zero, and never while it is not; each request gives one exception (60_exceptions R354, R376, R377; logs 31, 32). Whether it
ends a halt is one choice for all states (45_privileged R335b; log 33): where it does not, the halted processor takes an
enabled external interrupt or waits, and the request stays. The counter falls by one a step and is reloaded by a masking
event. The pc either saves and that T and bits 7:4 of RS stay are the spec's own choices (60_exceptions R358, R359; logs 19,
20). -/
def Obligations.NmiEntryAndMask : Prop :=
  ∃ wake : Bool, ∀ s : State, s.inputs = [] →
    (s.nmiPending ≠ 0 → s.nmiMask = 0 →
      (s.halted = false ∨ wake = true →
        ∃ t, step s = .next t ∧
          NormalEntry 5 s.pc none { s with fresh := s.fresh + 1, nmiPending := s.nmiPending - 1 } t) ∧
      (s.halted = true → wake = false →
        (s.intLine = true → s.bitI = true →
          ∃ t, step s = .next t ∧ NormalEntry 1 s.pc none { s with fresh := s.fresh + 1 } t) ∧
        (s.intLine = false ∨ s.bitI = false → step s = .next { s with fresh := s.fresh + 1 }))) ∧
    (s.nmiMask ≠ 0 → ∀ t, step s = .next t →
      t.nmiPending = s.nmiPending ∧ (t.nmiMask = s.nmiMask - 1 ∨ t.nmiMask = Config.nmiMaskInsns))

/-! ## Load locked, store conditional, barriers -/

/-- LL (44_reg_operate R308): the load, as any load memory's word or, through the Dcache, an older copy of it (20_memory
R88, R128; log 30), and the reservation on the physical address it read. -/
def Obligations.LoadLocked : Prop :=
  ∀ (s : State) (ra rb : RegNum) (pa : Word) (bypass : Bool),
    (s.readReg rb).toNat % 4 = 0 → translateVa (s.readReg rb) .read s = .ok (pa, bypass) → OrdinaryMemory s pa →
    ∃ v t, exec (.ll ra rb) s = .next t ∧ ReadsAs s.dcacheStale s.mem pa .long bypass v ∧
      WritesReg ra v { s with locked := true, lockedAddr := pa } t ∧ t.pc = s.pc + 4

/-- SC (44_reg_operate R309): without the flag it writes 0 and makes no access, whatever the address; with it, it stores, as
the stores do (logs 29, 30), and writes 1, and the flag stays (the pseudocode read literally, log 36). -/
def Obligations.StoreConditional : Prop :=
  ∀ (s : State) (ra rb rc : RegNum),
    (s.locked = false → Completes (.sc ra rb rc) s ra (· = 0)) ∧
    (∀ pa bypass, s.locked = true → s.mem.wf → (s.readReg rb).toNat % 4 = 0 →
      translateVa (s.readReg rb) .write s = .ok (pa, bypass) → regionAt s.regions pa.toNat = .ram →
      ∃ t, exec (.sc ra rb rc) s = .next t ∧ StoresBytes pa.toNat .long (s.readReg rc) s t ∧
        t.readReg ra = (if s.wired ra then 0 else 1) ∧ (∀ q, q ≠ ra → t.readReg q = s.readReg q) ∧
        t = { s with
          pc := s.pc + 4, regs := t.regs, mem := t.mem, icacheStale := t.icacheStale, dcacheStale := t.dcacheStale })

/-- What another processor's and a device's store do (60_exceptions R404, 20_memory R121, R127, R128; logs 29, 30, 36, 47),
and what ends a reservation: a store to RAM changes its bytes, the Icache may keep the word replaced, and the Dcache follows
a processor's store, but a device's only where the platform keeps it coherent; elsewhere memory stays. Another processor's
store into the locked word clears the flag, a device's store does not; of this processor's instructions only RFE does
(45_privileged R336). -/
def Obligations.StoresOfOtherAgentsAndTheReservation : Prop :=
  (∀ (s : State) (pa : Word) (w : Width) (v : Word) (a : Nat), a = pa.toNat / w.bytes * w.bytes →
    (∃ t, applyMove (.processorStore pa w v) s = t ∧
      t.locked = (s.locked && decide (pa.toNat / 4 ≠ s.lockedAddr.toNat / 4)) ∧
      (s.mem.wf → regionAt s.regions a = .ram → StoresBytes a w v s t ∧
        t = { s with
          mem := t.mem, icacheStale := t.icacheStale, dcacheStale := t.dcacheStale, locked := t.locked }) ∧
      (regionAt s.regions a ≠ .ram → t = { s with locked := t.locked })) ∧
    (∃ t, applyMove (.deviceStore pa w v) s = t ∧
      (s.mem.wf → regionAt s.regions a = .ram →
        HoldsLE t.mem a w v ∧
        (∀ b, b < a ∨ a + w.bytes ≤ b → t.mem.read b = s.mem.read b) ∧
        KeepsOldWord a s.mem t.mem s.icacheStale t.icacheStale ∧
        (if Config.dcacheDmaCoherent then List.Forall₂ (FollowsStore a w v) s.dcacheStale t.dcacheStale
          else KeepsOldWord a s.mem t.mem s.dcacheStale t.dcacheStale) ∧
        t = { s with mem := t.mem, icacheStale := t.icacheStale, dcacheStale := t.dcacheStale }) ∧
      (regionAt s.regions a ≠ .ram → t = s))) ∧
  (∀ (s t : State) (i : Instr), exec i s = .next t → s.locked = true → t.locked = false → i = .rfe)

/-- PAUSE, MB and WMB change nothing but the pc (44_reg_operate R310 to R312; log 40). -/
def Obligations.HintsAndBarriers : Prop :=
  ∀ s : State, ∀ i ∈ ([.pause, .mb, .wmb] : List Instr),
    ∃ t, exec i s = .next t ∧ OnlyPc s t ∧ t.pc.toNat = (s.pc.toNat + 4) % 2 ^ 32

/-! ## The whole machine -/

/-- Every step keeps memory and both TBs in their canonical forms, with every TB index below the TB's size. -/
def Obligations.StepKeepsTheInvariant : Prop :=
  ∀ s t : State, Inv s → step s = .next t → Inv t

/-- The invariant holds after reset: memory and both TBs are empty lists there, which is the model's choice, as 10_state R60
leaves their contents unspecified (logs 4, 6). -/
def Obligations.ResetHasTheInvariant : Prop := Inv State.reset

/-- What an instruction in usermode can do to the privileged state: nothing, unless it enters an exception
(60_exceptions R391). -/
def Obligations.UsermodeCannotTouchPrivilegedState : Prop :=
  ∀ (s t : State) (i : Instr), s.bitU = true → exec i s = .next t →
    (∃ e, t = takeException e s) ∨ SamePrivileged s t

/-- A step goes from kernel mode to usermode only by RFE into a saved mode with U set, or by MTCR writing U to RS
(60_exceptions R392). -/
def Obligations.UsermodeIsEnteredOnlyByRfeOrMtcr : Prop :=
  ∀ s t : State, s.inputs = [] → s.bitU = false → step s = .next t → t.bitU = true →
    ∃ i, fetchInstr (tickNmi (beginStep s)) = .ok i ∧
      (i = .rfe ∧ s.rs.getLsbD 8 = true ∨ ∃ rb, i = .mtcr 0 rb ∧ (s.readReg rb).getLsbD 0 = true)

/-- No instruction writes a general register but its destination (10_state R25), and none but the stores and SC writes
memory. Register 0 is apart: its stored value is free where T rises (R24). -/
def Obligations.OnlyTheDestinationChanges : Prop :=
  ∀ (s t : State) (i : Instr), exec i s = .next t →
    (∀ (k : Nat) (h : k < 32), k ≠ 0 → (∀ r, destOf i = some r → k ≠ r.toNat) → t.regs[k] = s.regs[k]) ∧
    (isStore i = false → ∀ a, t.mem.read a = s.mem.read a)

/-- WHAMI never changes (10_state R33), nor do the platform's map and the PTE layout (00_scope R5); EB, SCRATCH0 to SCRATCH4
and the TB indices change only by MTCR in kernel mode (R34, R39, R42). -/
def Obligations.SoftwareRegistersChangeOnlyByMtcr : Prop :=
  ∀ s t : State, step s = .next t →
    t.whami = s.whami ∧ t.regions = s.regions ∧ t.pteLayout = s.pteLayout ∧
    (s.inputs = [] →
      SameSoftwareRegisters s t ∨
        s.bitU = false ∧ ∃ cr rb, fetchInstr (tickNmi (beginStep s)) = .ok (.mtcr cr rb))

/-- From an aligned pc, with a page-aligned EB, every instruction but JALR and RFE leaves the pc aligned
(10_state R28). -/
def Obligations.PcStaysAligned : Prop :=
  ∀ (s t : State) (i : Instr), s.pc.toNat % 4 = 0 → s.eb.toNat % 4096 = 0 →
    (∀ ra rb imm, i ≠ .jalr ra rb imm) → i ≠ .rfe → exec i s = .next t → t.pc.toNat % 4 = 0

/-- The pseudo-instructions do what their names say while register 0 is wired (30_encoding R170 to R179; what the shifts do,
log 43); NOP does nothing in any case. For a load from and a store to a 32-bit address: where the register that takes the
upper half is the wired zero, the address is the lower half alone; where it is the register stored, the upper half is what
is stored. The addresses are multiples of the access size (R166; log 48). -/
def Obligations.PseudoInstructions : Prop :=
  ∀ (s : State) (ra rb : RegNum),
    (∃ t, execList (expand .nop) s = .next t ∧ OnlyPc s t ∧ t.pc = s.pc + 4) ∧
    (s.bitT = false →
      (∀ imm : BitVec 21, ∃ t, execList (expand (.b imm)) s = .next t ∧ OnlyPc s t ∧
        (t.pc.toNat : Int) = ((s.pc.toNat : Int) + 4 * imm.toInt) % 2 ^ 32) ∧
      (∃ t, execList (expand .ret) s = .next t ∧ OnlyPc s t ∧ t.pc = s.readReg 31) ∧
      (∃ t, execList (expand (.jr ra)) s = .next t ∧ OnlyPc s t ∧ t.pc = s.readReg ra) ∧
      (∃ t, execList (expand (.mov ra rb)) s = .next t ∧ WritesReg ra (s.readReg rb) s t ∧ t.pc = s.pc + 4) ∧
      (∀ imm : BitVec 16, ∃ t, execList (expand (.li ra imm)) s = .next t ∧
        WritesReg ra (BitVec.ofNat 32 imm.toNat) s t ∧ t.pc = s.pc + 4) ∧
      (∀ imm : Word, ∃ t, execList (expand (.la ra imm)) s = .next t ∧ WritesReg ra imm s t ∧ t.pc = s.pc + 8) ∧
      (∀ (kind : ShiftType) (a : BitVec 5), ∃ t v, execList (expand (.shiftImm kind ra rb a)) s = .next t ∧
        ShiftsTo kind (s.readReg rb) a.toNat v ∧ WritesReg ra v s t ∧ t.pc = s.pc + 4) ∧
      (∀ (w : Width) (address va pa : Word) (bypass : Bool),
        va.toNat = (if ra = 0 then address.toNat % 2 ^ 16 else address.toNat) → address.toNat % w.bytes = 0 →
        translateVa va .read s = .ok (pa, bypass) → OrdinaryMemory s pa →
        ∃ v t, execList (expand (.loadAt w ra address)) s = .next t ∧ ReadsAs s.dcacheStale s.mem pa w bypass v ∧
          WritesReg ra v s t ∧ t.pc = s.pc + 8) ∧
      (∀ (w : Width) (address va pa : Word) (bypass : Bool), s.mem.wf →
        va.toNat = (if rb = 0 then address.toNat % 2 ^ 16 else address.toNat) → address.toNat % w.bytes = 0 →
        translateVa va .write s = .ok (pa, bypass) → regionAt s.regions pa.toNat = .ram →
        ∃ data t, execList (expand (.storeAt w address ra rb)) s = .next t ∧ StoresBytes pa.toNat w data s t ∧
          data.toNat = (if ra = rb ∧ ra ≠ 0 then address.toNat / 2 ^ 16 * 2 ^ 16 else (s.readReg ra).toNat) ∧
          (t.readReg rb).toNat = (if rb = 0 then 0 else address.toNat / 2 ^ 16 * 2 ^ 16) ∧
          (∀ r, r ≠ rb → t.readReg r = s.readReg r) ∧
          t = { s with
            pc := s.pc + 8, regs := t.regs, mem := t.mem, icacheStale := t.icacheStale,
            dcacheStale := t.dcacheStale }))
end

