-- ==== Sys2Proof/Laws/State.lean ====
section
/-! SUPPORT. One lemma per field per update of the state, each true by unfolding once, so that no later proof unfolds an
update. -/

namespace Sys2Proof.Machine

/-! ### advance -/

@[simp] theorem State.advance_pc (s : State) : s.advance.pc = s.nextPc := rfl
@[simp] theorem State.advance_regs (s : State) : s.advance.regs = s.regs := rfl
@[simp] theorem State.advance_rs (s : State) : s.advance.rs = s.rs := rfl
@[simp] theorem State.advance_whami (s : State) : s.advance.whami = s.whami := rfl
@[simp] theorem State.advance_eb (s : State) : s.advance.eb = s.eb := rfl
@[simp] theorem State.advance_epc (s : State) : s.advance.epc = s.epc := rfl
@[simp] theorem State.advance_ebadaddr (s : State) : s.advance.ebadaddr = s.ebadaddr := rfl
@[simp] theorem State.advance_tbmissaddr (s : State) : s.advance.tbmissaddr = s.tbmissaddr := rfl
@[simp] theorem State.advance_tbpc (s : State) : s.advance.tbpc = s.tbpc := rfl
@[simp] theorem State.advance_scratch0 (s : State) : s.advance.scratch0 = s.scratch0 := rfl
@[simp] theorem State.advance_scratch1 (s : State) : s.advance.scratch1 = s.scratch1 := rfl
@[simp] theorem State.advance_scratch2 (s : State) : s.advance.scratch2 = s.scratch2 := rfl
@[simp] theorem State.advance_scratch3 (s : State) : s.advance.scratch3 = s.scratch3 := rfl
@[simp] theorem State.advance_scratch4 (s : State) : s.advance.scratch4 = s.scratch4 := rfl
@[simp] theorem State.advance_itbTag (s : State) : s.advance.itbTag = s.itbTag := rfl
@[simp] theorem State.advance_dtbTag (s : State) : s.advance.dtbTag = s.dtbTag := rfl
@[simp] theorem State.advance_itbIndex (s : State) : s.advance.itbIndex = s.itbIndex := rfl
@[simp] theorem State.advance_dtbIndex (s : State) : s.advance.dtbIndex = s.dtbIndex := rfl
@[simp] theorem State.advance_itbAddr (s : State) : s.advance.itbAddr = s.itbAddr := rfl
@[simp] theorem State.advance_dtbAddr (s : State) : s.advance.dtbAddr = s.dtbAddr := rfl
@[simp] theorem State.advance_itb (s : State) : s.advance.itb = s.itb := rfl
@[simp] theorem State.advance_dtb (s : State) : s.advance.dtb = s.dtb := rfl
@[simp] theorem State.advance_icacheStale (s : State) : s.advance.icacheStale = s.icacheStale := rfl
@[simp] theorem State.advance_dcacheStale (s : State) : s.advance.dcacheStale = s.dcacheStale := rfl
@[simp] theorem State.advance_locked (s : State) : s.advance.locked = s.locked := rfl
@[simp] theorem State.advance_lockedAddr (s : State) : s.advance.lockedAddr = s.lockedAddr := rfl
@[simp] theorem State.advance_missWasWrite (s : State) : s.advance.missWasWrite = s.missWasWrite := rfl
@[simp] theorem State.advance_nmiMask (s : State) : s.advance.nmiMask = s.nmiMask := rfl
@[simp] theorem State.advance_halted (s : State) : s.advance.halted = s.halted := rfl
@[simp] theorem State.advance_mem (s : State) : s.advance.mem = s.mem := rfl
@[simp] theorem State.advance_regions (s : State) : s.advance.regions = s.regions := rfl
@[simp] theorem State.advance_pteLayout (s : State) : s.advance.pteLayout = s.pteLayout := rfl
@[simp] theorem State.advance_intLine (s : State) : s.advance.intLine = s.intLine := rfl
@[simp] theorem State.advance_nmiPending (s : State) : s.advance.nmiPending = s.nmiPending := rfl
@[simp] theorem State.advance_inputs (s : State) : s.advance.inputs = s.inputs := rfl
@[simp] theorem State.advance_deviceLog (s : State) : s.advance.deviceLog = s.deviceLog := rfl
@[simp] theorem State.advance_fresh (s : State) : s.advance.fresh = s.fresh := rfl

@[simp] theorem State.advance_bitU (s : State) : s.advance.bitU = s.bitU := rfl
@[simp] theorem State.advance_bitI (s : State) : s.advance.bitI = s.bitI := rfl
@[simp] theorem State.advance_bitM (s : State) : s.advance.bitM = s.bitM := rfl
@[simp] theorem State.advance_bitT (s : State) : s.advance.bitT = s.bitT := rfl
@[simp] theorem State.advance_ecause (s : State) : s.advance.ecause = s.ecause := rfl
@[simp] theorem State.advance_wired (s : State) (q : RegNum) : s.advance.wired q = s.wired q := rfl

@[simp] theorem State.advance_readReg (s : State) (q : RegNum) : s.advance.readReg q = s.readReg q := rfl

/-! ### goto -/

@[simp] theorem State.goto_pc (s : State) (v : Word) : (s.goto v).pc = v := rfl
@[simp] theorem State.goto_regs (s : State) (v : Word) : (s.goto v).regs = s.regs := rfl
@[simp] theorem State.goto_rs (s : State) (v : Word) : (s.goto v).rs = s.rs := rfl
@[simp] theorem State.goto_whami (s : State) (v : Word) : (s.goto v).whami = s.whami := rfl
@[simp] theorem State.goto_eb (s : State) (v : Word) : (s.goto v).eb = s.eb := rfl
@[simp] theorem State.goto_epc (s : State) (v : Word) : (s.goto v).epc = s.epc := rfl
@[simp] theorem State.goto_ebadaddr (s : State) (v : Word) : (s.goto v).ebadaddr = s.ebadaddr := rfl
@[simp] theorem State.goto_tbmissaddr (s : State) (v : Word) : (s.goto v).tbmissaddr = s.tbmissaddr := rfl
@[simp] theorem State.goto_tbpc (s : State) (v : Word) : (s.goto v).tbpc = s.tbpc := rfl
@[simp] theorem State.goto_scratch0 (s : State) (v : Word) : (s.goto v).scratch0 = s.scratch0 := rfl
@[simp] theorem State.goto_scratch1 (s : State) (v : Word) : (s.goto v).scratch1 = s.scratch1 := rfl
@[simp] theorem State.goto_scratch2 (s : State) (v : Word) : (s.goto v).scratch2 = s.scratch2 := rfl
@[simp] theorem State.goto_scratch3 (s : State) (v : Word) : (s.goto v).scratch3 = s.scratch3 := rfl
@[simp] theorem State.goto_scratch4 (s : State) (v : Word) : (s.goto v).scratch4 = s.scratch4 := rfl
@[simp] theorem State.goto_itbTag (s : State) (v : Word) : (s.goto v).itbTag = s.itbTag := rfl
@[simp] theorem State.goto_dtbTag (s : State) (v : Word) : (s.goto v).dtbTag = s.dtbTag := rfl
@[simp] theorem State.goto_itbIndex (s : State) (v : Word) : (s.goto v).itbIndex = s.itbIndex := rfl
@[simp] theorem State.goto_dtbIndex (s : State) (v : Word) : (s.goto v).dtbIndex = s.dtbIndex := rfl
@[simp] theorem State.goto_itbAddr (s : State) (v : Word) : (s.goto v).itbAddr = s.itbAddr := rfl
@[simp] theorem State.goto_dtbAddr (s : State) (v : Word) : (s.goto v).dtbAddr = s.dtbAddr := rfl
@[simp] theorem State.goto_itb (s : State) (v : Word) : (s.goto v).itb = s.itb := rfl
@[simp] theorem State.goto_dtb (s : State) (v : Word) : (s.goto v).dtb = s.dtb := rfl
@[simp] theorem State.goto_icacheStale (s : State) (v : Word) : (s.goto v).icacheStale = s.icacheStale := rfl
@[simp] theorem State.goto_dcacheStale (s : State) (v : Word) : (s.goto v).dcacheStale = s.dcacheStale := rfl
@[simp] theorem State.goto_locked (s : State) (v : Word) : (s.goto v).locked = s.locked := rfl
@[simp] theorem State.goto_lockedAddr (s : State) (v : Word) : (s.goto v).lockedAddr = s.lockedAddr := rfl
@[simp] theorem State.goto_missWasWrite (s : State) (v : Word) : (s.goto v).missWasWrite = s.missWasWrite := rfl
@[simp] theorem State.goto_nmiMask (s : State) (v : Word) : (s.goto v).nmiMask = s.nmiMask := rfl
@[simp] theorem State.goto_halted (s : State) (v : Word) : (s.goto v).halted = s.halted := rfl
@[simp] theorem State.goto_mem (s : State) (v : Word) : (s.goto v).mem = s.mem := rfl
@[simp] theorem State.goto_regions (s : State) (v : Word) : (s.goto v).regions = s.regions := rfl
@[simp] theorem State.goto_pteLayout (s : State) (v : Word) : (s.goto v).pteLayout = s.pteLayout := rfl
@[simp] theorem State.goto_intLine (s : State) (v : Word) : (s.goto v).intLine = s.intLine := rfl
@[simp] theorem State.goto_nmiPending (s : State) (v : Word) : (s.goto v).nmiPending = s.nmiPending := rfl
@[simp] theorem State.goto_inputs (s : State) (v : Word) : (s.goto v).inputs = s.inputs := rfl
@[simp] theorem State.goto_deviceLog (s : State) (v : Word) : (s.goto v).deviceLog = s.deviceLog := rfl
@[simp] theorem State.goto_fresh (s : State) (v : Word) : (s.goto v).fresh = s.fresh := rfl

@[simp] theorem State.goto_bitU (s : State) (v : Word) : (s.goto v).bitU = s.bitU := rfl
@[simp] theorem State.goto_bitI (s : State) (v : Word) : (s.goto v).bitI = s.bitI := rfl
@[simp] theorem State.goto_bitM (s : State) (v : Word) : (s.goto v).bitM = s.bitM := rfl
@[simp] theorem State.goto_bitT (s : State) (v : Word) : (s.goto v).bitT = s.bitT := rfl
@[simp] theorem State.goto_ecause (s : State) (v : Word) : (s.goto v).ecause = s.ecause := rfl
@[simp] theorem State.goto_wired (s : State) (v : Word) (q : RegNum) : (s.goto v).wired q = s.wired q := rfl

@[simp] theorem State.goto_readReg (s : State) (v : Word) (q : RegNum) : (s.goto v).readReg q = s.readReg q := rfl

/-! ### reloadNmiMask -/

@[simp] theorem State.reloadNmiMask_pc (s : State) : s.reloadNmiMask.pc = s.pc := rfl
@[simp] theorem State.reloadNmiMask_regs (s : State) : s.reloadNmiMask.regs = s.regs := rfl
@[simp] theorem State.reloadNmiMask_rs (s : State) : s.reloadNmiMask.rs = s.rs := rfl
@[simp] theorem State.reloadNmiMask_whami (s : State) : s.reloadNmiMask.whami = s.whami := rfl
@[simp] theorem State.reloadNmiMask_eb (s : State) : s.reloadNmiMask.eb = s.eb := rfl
@[simp] theorem State.reloadNmiMask_epc (s : State) : s.reloadNmiMask.epc = s.epc := rfl
@[simp] theorem State.reloadNmiMask_ebadaddr (s : State) : s.reloadNmiMask.ebadaddr = s.ebadaddr := rfl
@[simp] theorem State.reloadNmiMask_tbmissaddr (s : State) : s.reloadNmiMask.tbmissaddr = s.tbmissaddr := rfl
@[simp] theorem State.reloadNmiMask_tbpc (s : State) : s.reloadNmiMask.tbpc = s.tbpc := rfl
@[simp] theorem State.reloadNmiMask_scratch0 (s : State) : s.reloadNmiMask.scratch0 = s.scratch0 := rfl
@[simp] theorem State.reloadNmiMask_scratch1 (s : State) : s.reloadNmiMask.scratch1 = s.scratch1 := rfl
@[simp] theorem State.reloadNmiMask_scratch2 (s : State) : s.reloadNmiMask.scratch2 = s.scratch2 := rfl
@[simp] theorem State.reloadNmiMask_scratch3 (s : State) : s.reloadNmiMask.scratch3 = s.scratch3 := rfl
@[simp] theorem State.reloadNmiMask_scratch4 (s : State) : s.reloadNmiMask.scratch4 = s.scratch4 := rfl
@[simp] theorem State.reloadNmiMask_itbTag (s : State) : s.reloadNmiMask.itbTag = s.itbTag := rfl
@[simp] theorem State.reloadNmiMask_dtbTag (s : State) : s.reloadNmiMask.dtbTag = s.dtbTag := rfl
@[simp] theorem State.reloadNmiMask_itbIndex (s : State) : s.reloadNmiMask.itbIndex = s.itbIndex := rfl
@[simp] theorem State.reloadNmiMask_dtbIndex (s : State) : s.reloadNmiMask.dtbIndex = s.dtbIndex := rfl
@[simp] theorem State.reloadNmiMask_itbAddr (s : State) : s.reloadNmiMask.itbAddr = s.itbAddr := rfl
@[simp] theorem State.reloadNmiMask_dtbAddr (s : State) : s.reloadNmiMask.dtbAddr = s.dtbAddr := rfl
@[simp] theorem State.reloadNmiMask_itb (s : State) : s.reloadNmiMask.itb = s.itb := rfl
@[simp] theorem State.reloadNmiMask_dtb (s : State) : s.reloadNmiMask.dtb = s.dtb := rfl
@[simp] theorem State.reloadNmiMask_icacheStale (s : State) : s.reloadNmiMask.icacheStale = s.icacheStale := rfl
@[simp] theorem State.reloadNmiMask_dcacheStale (s : State) : s.reloadNmiMask.dcacheStale = s.dcacheStale := rfl
@[simp] theorem State.reloadNmiMask_locked (s : State) : s.reloadNmiMask.locked = s.locked := rfl
@[simp] theorem State.reloadNmiMask_lockedAddr (s : State) : s.reloadNmiMask.lockedAddr = s.lockedAddr := rfl
@[simp] theorem State.reloadNmiMask_missWasWrite (s : State) : s.reloadNmiMask.missWasWrite = s.missWasWrite := rfl
@[simp] theorem State.reloadNmiMask_nmiMask (s : State) : s.reloadNmiMask.nmiMask = Config.nmiMaskInsns := rfl
@[simp] theorem State.reloadNmiMask_halted (s : State) : s.reloadNmiMask.halted = s.halted := rfl
@[simp] theorem State.reloadNmiMask_mem (s : State) : s.reloadNmiMask.mem = s.mem := rfl
@[simp] theorem State.reloadNmiMask_regions (s : State) : s.reloadNmiMask.regions = s.regions := rfl
@[simp] theorem State.reloadNmiMask_pteLayout (s : State) : s.reloadNmiMask.pteLayout = s.pteLayout := rfl
@[simp] theorem State.reloadNmiMask_intLine (s : State) : s.reloadNmiMask.intLine = s.intLine := rfl
@[simp] theorem State.reloadNmiMask_nmiPending (s : State) : s.reloadNmiMask.nmiPending = s.nmiPending := rfl
@[simp] theorem State.reloadNmiMask_inputs (s : State) : s.reloadNmiMask.inputs = s.inputs := rfl
@[simp] theorem State.reloadNmiMask_deviceLog (s : State) : s.reloadNmiMask.deviceLog = s.deviceLog := rfl
@[simp] theorem State.reloadNmiMask_fresh (s : State) : s.reloadNmiMask.fresh = s.fresh := rfl

@[simp] theorem State.reloadNmiMask_bitU (s : State) : s.reloadNmiMask.bitU = s.bitU := rfl
@[simp] theorem State.reloadNmiMask_bitI (s : State) : s.reloadNmiMask.bitI = s.bitI := rfl
@[simp] theorem State.reloadNmiMask_bitM (s : State) : s.reloadNmiMask.bitM = s.bitM := rfl
@[simp] theorem State.reloadNmiMask_bitT (s : State) : s.reloadNmiMask.bitT = s.bitT := rfl
@[simp] theorem State.reloadNmiMask_ecause (s : State) : s.reloadNmiMask.ecause = s.ecause := rfl
@[simp] theorem State.reloadNmiMask_wired (s : State) (q : RegNum) : s.reloadNmiMask.wired q = s.wired q := rfl

@[simp] theorem State.reloadNmiMask_readReg (s : State) (q : RegNum) : s.reloadNmiMask.readReg q = s.readReg q := rfl

/-! ### writeReg -/

@[simp] theorem State.writeReg_pc (s : State) (r : RegNum) (v : Word) : (s.writeReg r v).pc = s.pc := rfl
@[simp] theorem State.writeReg_rs (s : State) (r : RegNum) (v : Word) : (s.writeReg r v).rs = s.rs := rfl
@[simp] theorem State.writeReg_whami (s : State) (r : RegNum) (v : Word) : (s.writeReg r v).whami = s.whami := rfl
@[simp] theorem State.writeReg_eb (s : State) (r : RegNum) (v : Word) : (s.writeReg r v).eb = s.eb := rfl
@[simp] theorem State.writeReg_epc (s : State) (r : RegNum) (v : Word) : (s.writeReg r v).epc = s.epc := rfl
@[simp] theorem State.writeReg_ebadaddr (s : State) (r : RegNum) (v : Word) : (s.writeReg r v).ebadaddr = s.ebadaddr := rfl
@[simp] theorem State.writeReg_tbmissaddr (s : State) (r : RegNum) (v : Word) : (s.writeReg r v).tbmissaddr = s.tbmissaddr := rfl
@[simp] theorem State.writeReg_tbpc (s : State) (r : RegNum) (v : Word) : (s.writeReg r v).tbpc = s.tbpc := rfl
@[simp] theorem State.writeReg_scratch0 (s : State) (r : RegNum) (v : Word) : (s.writeReg r v).scratch0 = s.scratch0 := rfl
@[simp] theorem State.writeReg_scratch1 (s : State) (r : RegNum) (v : Word) : (s.writeReg r v).scratch1 = s.scratch1 := rfl
@[simp] theorem State.writeReg_scratch2 (s : State) (r : RegNum) (v : Word) : (s.writeReg r v).scratch2 = s.scratch2 := rfl
@[simp] theorem State.writeReg_scratch3 (s : State) (r : RegNum) (v : Word) : (s.writeReg r v).scratch3 = s.scratch3 := rfl
@[simp] theorem State.writeReg_scratch4 (s : State) (r : RegNum) (v : Word) : (s.writeReg r v).scratch4 = s.scratch4 := rfl
@[simp] theorem State.writeReg_itbTag (s : State) (r : RegNum) (v : Word) : (s.writeReg r v).itbTag = s.itbTag := rfl
@[simp] theorem State.writeReg_dtbTag (s : State) (r : RegNum) (v : Word) : (s.writeReg r v).dtbTag = s.dtbTag := rfl
@[simp] theorem State.writeReg_itbIndex (s : State) (r : RegNum) (v : Word) : (s.writeReg r v).itbIndex = s.itbIndex := rfl
@[simp] theorem State.writeReg_dtbIndex (s : State) (r : RegNum) (v : Word) : (s.writeReg r v).dtbIndex = s.dtbIndex := rfl
@[simp] theorem State.writeReg_itbAddr (s : State) (r : RegNum) (v : Word) : (s.writeReg r v).itbAddr = s.itbAddr := rfl
@[simp] theorem State.writeReg_dtbAddr (s : State) (r : RegNum) (v : Word) : (s.writeReg r v).dtbAddr = s.dtbAddr := rfl
@[simp] theorem State.writeReg_itb (s : State) (r : RegNum) (v : Word) : (s.writeReg r v).itb = s.itb := rfl
@[simp] theorem State.writeReg_dtb (s : State) (r : RegNum) (v : Word) : (s.writeReg r v).dtb = s.dtb := rfl
@[simp] theorem State.writeReg_icacheStale (s : State) (r : RegNum) (v : Word) : (s.writeReg r v).icacheStale = s.icacheStale := rfl
@[simp] theorem State.writeReg_dcacheStale (s : State) (r : RegNum) (v : Word) : (s.writeReg r v).dcacheStale = s.dcacheStale := rfl
@[simp] theorem State.writeReg_locked (s : State) (r : RegNum) (v : Word) : (s.writeReg r v).locked = s.locked := rfl
@[simp] theorem State.writeReg_lockedAddr (s : State) (r : RegNum) (v : Word) : (s.writeReg r v).lockedAddr = s.lockedAddr := rfl
@[simp] theorem State.writeReg_missWasWrite (s : State) (r : RegNum) (v : Word) : (s.writeReg r v).missWasWrite = s.missWasWrite := rfl
@[simp] theorem State.writeReg_nmiMask (s : State) (r : RegNum) (v : Word) : (s.writeReg r v).nmiMask = s.nmiMask := rfl
@[simp] theorem State.writeReg_halted (s : State) (r : RegNum) (v : Word) : (s.writeReg r v).halted = s.halted := rfl
@[simp] theorem State.writeReg_mem (s : State) (r : RegNum) (v : Word) : (s.writeReg r v).mem = s.mem := rfl
@[simp] theorem State.writeReg_regions (s : State) (r : RegNum) (v : Word) : (s.writeReg r v).regions = s.regions := rfl
@[simp] theorem State.writeReg_pteLayout (s : State) (r : RegNum) (v : Word) : (s.writeReg r v).pteLayout = s.pteLayout := rfl
@[simp] theorem State.writeReg_intLine (s : State) (r : RegNum) (v : Word) : (s.writeReg r v).intLine = s.intLine := rfl
@[simp] theorem State.writeReg_nmiPending (s : State) (r : RegNum) (v : Word) : (s.writeReg r v).nmiPending = s.nmiPending := rfl
@[simp] theorem State.writeReg_inputs (s : State) (r : RegNum) (v : Word) : (s.writeReg r v).inputs = s.inputs := rfl
@[simp] theorem State.writeReg_deviceLog (s : State) (r : RegNum) (v : Word) : (s.writeReg r v).deviceLog = s.deviceLog := rfl
@[simp] theorem State.writeReg_fresh (s : State) (r : RegNum) (v : Word) : (s.writeReg r v).fresh = s.fresh := rfl

@[simp] theorem State.writeReg_bitU (s : State) (r : RegNum) (v : Word) : (s.writeReg r v).bitU = s.bitU := rfl
@[simp] theorem State.writeReg_bitI (s : State) (r : RegNum) (v : Word) : (s.writeReg r v).bitI = s.bitI := rfl
@[simp] theorem State.writeReg_bitM (s : State) (r : RegNum) (v : Word) : (s.writeReg r v).bitM = s.bitM := rfl
@[simp] theorem State.writeReg_bitT (s : State) (r : RegNum) (v : Word) : (s.writeReg r v).bitT = s.bitT := rfl
@[simp] theorem State.writeReg_ecause (s : State) (r : RegNum) (v : Word) : (s.writeReg r v).ecause = s.ecause := rfl
@[simp] theorem State.writeReg_wired (s : State) (r : RegNum) (v : Word) (q : RegNum) : (s.writeReg r v).wired q = s.wired q := rfl

/-! ### setRs -/

@[simp] theorem State.setRs_pc (s : State) (v : Word) : (s.setRs v).pc = s.pc := rfl
@[simp] theorem State.setRs_rs (s : State) (v : Word) : (s.setRs v).rs = v := rfl
@[simp] theorem State.setRs_whami (s : State) (v : Word) : (s.setRs v).whami = s.whami := rfl
@[simp] theorem State.setRs_eb (s : State) (v : Word) : (s.setRs v).eb = s.eb := rfl
@[simp] theorem State.setRs_epc (s : State) (v : Word) : (s.setRs v).epc = s.epc := rfl
@[simp] theorem State.setRs_ebadaddr (s : State) (v : Word) : (s.setRs v).ebadaddr = s.ebadaddr := rfl
@[simp] theorem State.setRs_tbmissaddr (s : State) (v : Word) : (s.setRs v).tbmissaddr = s.tbmissaddr := rfl
@[simp] theorem State.setRs_tbpc (s : State) (v : Word) : (s.setRs v).tbpc = s.tbpc := rfl
@[simp] theorem State.setRs_scratch0 (s : State) (v : Word) : (s.setRs v).scratch0 = s.scratch0 := rfl
@[simp] theorem State.setRs_scratch1 (s : State) (v : Word) : (s.setRs v).scratch1 = s.scratch1 := rfl
@[simp] theorem State.setRs_scratch2 (s : State) (v : Word) : (s.setRs v).scratch2 = s.scratch2 := rfl
@[simp] theorem State.setRs_scratch3 (s : State) (v : Word) : (s.setRs v).scratch3 = s.scratch3 := rfl
@[simp] theorem State.setRs_scratch4 (s : State) (v : Word) : (s.setRs v).scratch4 = s.scratch4 := rfl
@[simp] theorem State.setRs_itbTag (s : State) (v : Word) : (s.setRs v).itbTag = s.itbTag := rfl
@[simp] theorem State.setRs_dtbTag (s : State) (v : Word) : (s.setRs v).dtbTag = s.dtbTag := rfl
@[simp] theorem State.setRs_itbIndex (s : State) (v : Word) : (s.setRs v).itbIndex = s.itbIndex := rfl
@[simp] theorem State.setRs_dtbIndex (s : State) (v : Word) : (s.setRs v).dtbIndex = s.dtbIndex := rfl
@[simp] theorem State.setRs_itbAddr (s : State) (v : Word) : (s.setRs v).itbAddr = s.itbAddr := rfl
@[simp] theorem State.setRs_dtbAddr (s : State) (v : Word) : (s.setRs v).dtbAddr = s.dtbAddr := rfl
@[simp] theorem State.setRs_itb (s : State) (v : Word) : (s.setRs v).itb = s.itb := rfl
@[simp] theorem State.setRs_dtb (s : State) (v : Word) : (s.setRs v).dtb = s.dtb := rfl
@[simp] theorem State.setRs_icacheStale (s : State) (v : Word) : (s.setRs v).icacheStale = s.icacheStale := rfl
@[simp] theorem State.setRs_dcacheStale (s : State) (v : Word) : (s.setRs v).dcacheStale = s.dcacheStale := rfl
@[simp] theorem State.setRs_locked (s : State) (v : Word) : (s.setRs v).locked = s.locked := rfl
@[simp] theorem State.setRs_lockedAddr (s : State) (v : Word) : (s.setRs v).lockedAddr = s.lockedAddr := rfl
@[simp] theorem State.setRs_missWasWrite (s : State) (v : Word) : (s.setRs v).missWasWrite = s.missWasWrite := rfl
@[simp] theorem State.setRs_nmiMask (s : State) (v : Word) : (s.setRs v).nmiMask = s.nmiMask := rfl
@[simp] theorem State.setRs_halted (s : State) (v : Word) : (s.setRs v).halted = s.halted := rfl
@[simp] theorem State.setRs_mem (s : State) (v : Word) : (s.setRs v).mem = s.mem := rfl
@[simp] theorem State.setRs_regions (s : State) (v : Word) : (s.setRs v).regions = s.regions := rfl
@[simp] theorem State.setRs_pteLayout (s : State) (v : Word) : (s.setRs v).pteLayout = s.pteLayout := rfl
@[simp] theorem State.setRs_intLine (s : State) (v : Word) : (s.setRs v).intLine = s.intLine := rfl
@[simp] theorem State.setRs_nmiPending (s : State) (v : Word) : (s.setRs v).nmiPending = s.nmiPending := rfl
@[simp] theorem State.setRs_inputs (s : State) (v : Word) : (s.setRs v).inputs = s.inputs := rfl
@[simp] theorem State.setRs_deviceLog (s : State) (v : Word) : (s.setRs v).deviceLog = s.deviceLog := rfl
@[simp] theorem State.setRs_fresh (s : State) (v : Word) : (s.setRs v).fresh = s.fresh := rfl

/-! ### storeBytes -/

@[simp] theorem State.storeBytes_pc (s : State) (a : Nat) (w : Width) (v : Word) : (s.storeBytes a w v).pc = s.pc := rfl
@[simp] theorem State.storeBytes_regs (s : State) (a : Nat) (w : Width) (v : Word) : (s.storeBytes a w v).regs = s.regs := rfl
@[simp] theorem State.storeBytes_rs (s : State) (a : Nat) (w : Width) (v : Word) : (s.storeBytes a w v).rs = s.rs := rfl
@[simp] theorem State.storeBytes_whami (s : State) (a : Nat) (w : Width) (v : Word) : (s.storeBytes a w v).whami = s.whami := rfl
@[simp] theorem State.storeBytes_eb (s : State) (a : Nat) (w : Width) (v : Word) : (s.storeBytes a w v).eb = s.eb := rfl
@[simp] theorem State.storeBytes_epc (s : State) (a : Nat) (w : Width) (v : Word) : (s.storeBytes a w v).epc = s.epc := rfl
@[simp] theorem State.storeBytes_ebadaddr (s : State) (a : Nat) (w : Width) (v : Word) : (s.storeBytes a w v).ebadaddr = s.ebadaddr := rfl
@[simp] theorem State.storeBytes_tbmissaddr (s : State) (a : Nat) (w : Width) (v : Word) : (s.storeBytes a w v).tbmissaddr = s.tbmissaddr := rfl
@[simp] theorem State.storeBytes_tbpc (s : State) (a : Nat) (w : Width) (v : Word) : (s.storeBytes a w v).tbpc = s.tbpc := rfl
@[simp] theorem State.storeBytes_scratch0 (s : State) (a : Nat) (w : Width) (v : Word) : (s.storeBytes a w v).scratch0 = s.scratch0 := rfl
@[simp] theorem State.storeBytes_scratch1 (s : State) (a : Nat) (w : Width) (v : Word) : (s.storeBytes a w v).scratch1 = s.scratch1 := rfl
@[simp] theorem State.storeBytes_scratch2 (s : State) (a : Nat) (w : Width) (v : Word) : (s.storeBytes a w v).scratch2 = s.scratch2 := rfl
@[simp] theorem State.storeBytes_scratch3 (s : State) (a : Nat) (w : Width) (v : Word) : (s.storeBytes a w v).scratch3 = s.scratch3 := rfl
@[simp] theorem State.storeBytes_scratch4 (s : State) (a : Nat) (w : Width) (v : Word) : (s.storeBytes a w v).scratch4 = s.scratch4 := rfl
@[simp] theorem State.storeBytes_itbTag (s : State) (a : Nat) (w : Width) (v : Word) : (s.storeBytes a w v).itbTag = s.itbTag := rfl
@[simp] theorem State.storeBytes_dtbTag (s : State) (a : Nat) (w : Width) (v : Word) : (s.storeBytes a w v).dtbTag = s.dtbTag := rfl
@[simp] theorem State.storeBytes_itbIndex (s : State) (a : Nat) (w : Width) (v : Word) : (s.storeBytes a w v).itbIndex = s.itbIndex := rfl
@[simp] theorem State.storeBytes_dtbIndex (s : State) (a : Nat) (w : Width) (v : Word) : (s.storeBytes a w v).dtbIndex = s.dtbIndex := rfl
@[simp] theorem State.storeBytes_itbAddr (s : State) (a : Nat) (w : Width) (v : Word) : (s.storeBytes a w v).itbAddr = s.itbAddr := rfl
@[simp] theorem State.storeBytes_dtbAddr (s : State) (a : Nat) (w : Width) (v : Word) : (s.storeBytes a w v).dtbAddr = s.dtbAddr := rfl
@[simp] theorem State.storeBytes_itb (s : State) (a : Nat) (w : Width) (v : Word) : (s.storeBytes a w v).itb = s.itb := rfl
@[simp] theorem State.storeBytes_dtb (s : State) (a : Nat) (w : Width) (v : Word) : (s.storeBytes a w v).dtb = s.dtb := rfl
@[simp] theorem State.storeBytes_dcacheStale (s : State) (a : Nat) (w : Width) (v : Word) : (s.storeBytes a w v).dcacheStale = s.dcacheStale := rfl
@[simp] theorem State.storeBytes_locked (s : State) (a : Nat) (w : Width) (v : Word) : (s.storeBytes a w v).locked = s.locked := rfl
@[simp] theorem State.storeBytes_lockedAddr (s : State) (a : Nat) (w : Width) (v : Word) : (s.storeBytes a w v).lockedAddr = s.lockedAddr := rfl
@[simp] theorem State.storeBytes_missWasWrite (s : State) (a : Nat) (w : Width) (v : Word) : (s.storeBytes a w v).missWasWrite = s.missWasWrite := rfl
@[simp] theorem State.storeBytes_nmiMask (s : State) (a : Nat) (w : Width) (v : Word) : (s.storeBytes a w v).nmiMask = s.nmiMask := rfl
@[simp] theorem State.storeBytes_halted (s : State) (a : Nat) (w : Width) (v : Word) : (s.storeBytes a w v).halted = s.halted := rfl
@[simp] theorem State.storeBytes_mem (s : State) (a : Nat) (w : Width) (v : Word) : (s.storeBytes a w v).mem = s.mem.writeLE a w v := rfl
@[simp] theorem State.storeBytes_regions (s : State) (a : Nat) (w : Width) (v : Word) : (s.storeBytes a w v).regions = s.regions := rfl
@[simp] theorem State.storeBytes_pteLayout (s : State) (a : Nat) (w : Width) (v : Word) : (s.storeBytes a w v).pteLayout = s.pteLayout := rfl
@[simp] theorem State.storeBytes_intLine (s : State) (a : Nat) (w : Width) (v : Word) : (s.storeBytes a w v).intLine = s.intLine := rfl
@[simp] theorem State.storeBytes_nmiPending (s : State) (a : Nat) (w : Width) (v : Word) : (s.storeBytes a w v).nmiPending = s.nmiPending := rfl
@[simp] theorem State.storeBytes_inputs (s : State) (a : Nat) (w : Width) (v : Word) : (s.storeBytes a w v).inputs = s.inputs := rfl
@[simp] theorem State.storeBytes_deviceLog (s : State) (a : Nat) (w : Width) (v : Word) : (s.storeBytes a w v).deviceLog = s.deviceLog := rfl
@[simp] theorem State.storeBytes_fresh (s : State) (a : Nat) (w : Width) (v : Word) : (s.storeBytes a w v).fresh = s.fresh := rfl

@[simp] theorem State.storeBytes_bitU (s : State) (a : Nat) (w : Width) (v : Word) : (s.storeBytes a w v).bitU = s.bitU := rfl
@[simp] theorem State.storeBytes_bitI (s : State) (a : Nat) (w : Width) (v : Word) : (s.storeBytes a w v).bitI = s.bitI := rfl
@[simp] theorem State.storeBytes_bitM (s : State) (a : Nat) (w : Width) (v : Word) : (s.storeBytes a w v).bitM = s.bitM := rfl
@[simp] theorem State.storeBytes_bitT (s : State) (a : Nat) (w : Width) (v : Word) : (s.storeBytes a w v).bitT = s.bitT := rfl
@[simp] theorem State.storeBytes_ecause (s : State) (a : Nat) (w : Width) (v : Word) : (s.storeBytes a w v).ecause = s.ecause := rfl
@[simp] theorem State.storeBytes_wired (s : State) (a : Nat) (w : Width) (v : Word) (q : RegNum) : (s.storeBytes a w v).wired q = s.wired q := rfl

@[simp] theorem State.storeBytes_readReg (s : State) (a : Nat) (w : Width) (v : Word) (q : RegNum) : (s.storeBytes a w v).readReg q = s.readReg q := rfl

/-! ### ownStore -/

@[simp] theorem State.ownStore_pc (s : State) (a : Nat) (w : Width) (v : Word) : (s.ownStore a w v).pc = s.pc := rfl
@[simp] theorem State.ownStore_regs (s : State) (a : Nat) (w : Width) (v : Word) : (s.ownStore a w v).regs = s.regs := rfl
@[simp] theorem State.ownStore_rs (s : State) (a : Nat) (w : Width) (v : Word) : (s.ownStore a w v).rs = s.rs := rfl
@[simp] theorem State.ownStore_whami (s : State) (a : Nat) (w : Width) (v : Word) : (s.ownStore a w v).whami = s.whami := rfl
@[simp] theorem State.ownStore_eb (s : State) (a : Nat) (w : Width) (v : Word) : (s.ownStore a w v).eb = s.eb := rfl
@[simp] theorem State.ownStore_epc (s : State) (a : Nat) (w : Width) (v : Word) : (s.ownStore a w v).epc = s.epc := rfl
@[simp] theorem State.ownStore_ebadaddr (s : State) (a : Nat) (w : Width) (v : Word) : (s.ownStore a w v).ebadaddr = s.ebadaddr := rfl
@[simp] theorem State.ownStore_tbmissaddr (s : State) (a : Nat) (w : Width) (v : Word) : (s.ownStore a w v).tbmissaddr = s.tbmissaddr := rfl
@[simp] theorem State.ownStore_tbpc (s : State) (a : Nat) (w : Width) (v : Word) : (s.ownStore a w v).tbpc = s.tbpc := rfl
@[simp] theorem State.ownStore_scratch0 (s : State) (a : Nat) (w : Width) (v : Word) : (s.ownStore a w v).scratch0 = s.scratch0 := rfl
@[simp] theorem State.ownStore_scratch1 (s : State) (a : Nat) (w : Width) (v : Word) : (s.ownStore a w v).scratch1 = s.scratch1 := rfl
@[simp] theorem State.ownStore_scratch2 (s : State) (a : Nat) (w : Width) (v : Word) : (s.ownStore a w v).scratch2 = s.scratch2 := rfl
@[simp] theorem State.ownStore_scratch3 (s : State) (a : Nat) (w : Width) (v : Word) : (s.ownStore a w v).scratch3 = s.scratch3 := rfl
@[simp] theorem State.ownStore_scratch4 (s : State) (a : Nat) (w : Width) (v : Word) : (s.ownStore a w v).scratch4 = s.scratch4 := rfl
@[simp] theorem State.ownStore_itbTag (s : State) (a : Nat) (w : Width) (v : Word) : (s.ownStore a w v).itbTag = s.itbTag := rfl
@[simp] theorem State.ownStore_dtbTag (s : State) (a : Nat) (w : Width) (v : Word) : (s.ownStore a w v).dtbTag = s.dtbTag := rfl
@[simp] theorem State.ownStore_itbIndex (s : State) (a : Nat) (w : Width) (v : Word) : (s.ownStore a w v).itbIndex = s.itbIndex := rfl
@[simp] theorem State.ownStore_dtbIndex (s : State) (a : Nat) (w : Width) (v : Word) : (s.ownStore a w v).dtbIndex = s.dtbIndex := rfl
@[simp] theorem State.ownStore_itbAddr (s : State) (a : Nat) (w : Width) (v : Word) : (s.ownStore a w v).itbAddr = s.itbAddr := rfl
@[simp] theorem State.ownStore_dtbAddr (s : State) (a : Nat) (w : Width) (v : Word) : (s.ownStore a w v).dtbAddr = s.dtbAddr := rfl
@[simp] theorem State.ownStore_itb (s : State) (a : Nat) (w : Width) (v : Word) : (s.ownStore a w v).itb = s.itb := rfl
@[simp] theorem State.ownStore_dtb (s : State) (a : Nat) (w : Width) (v : Word) : (s.ownStore a w v).dtb = s.dtb := rfl
@[simp] theorem State.ownStore_dcacheStale (s : State) (a : Nat) (w : Width) (v : Word) : (s.ownStore a w v).dcacheStale = storeIntoStale s.dcacheStale a w v := rfl
@[simp] theorem State.ownStore_locked (s : State) (a : Nat) (w : Width) (v : Word) : (s.ownStore a w v).locked = s.locked := rfl
@[simp] theorem State.ownStore_lockedAddr (s : State) (a : Nat) (w : Width) (v : Word) : (s.ownStore a w v).lockedAddr = s.lockedAddr := rfl
@[simp] theorem State.ownStore_missWasWrite (s : State) (a : Nat) (w : Width) (v : Word) : (s.ownStore a w v).missWasWrite = s.missWasWrite := rfl
@[simp] theorem State.ownStore_nmiMask (s : State) (a : Nat) (w : Width) (v : Word) : (s.ownStore a w v).nmiMask = s.nmiMask := rfl
@[simp] theorem State.ownStore_halted (s : State) (a : Nat) (w : Width) (v : Word) : (s.ownStore a w v).halted = s.halted := rfl
@[simp] theorem State.ownStore_mem (s : State) (a : Nat) (w : Width) (v : Word) : (s.ownStore a w v).mem = s.mem.writeLE a w v := rfl
@[simp] theorem State.ownStore_regions (s : State) (a : Nat) (w : Width) (v : Word) : (s.ownStore a w v).regions = s.regions := rfl
@[simp] theorem State.ownStore_pteLayout (s : State) (a : Nat) (w : Width) (v : Word) : (s.ownStore a w v).pteLayout = s.pteLayout := rfl
@[simp] theorem State.ownStore_intLine (s : State) (a : Nat) (w : Width) (v : Word) : (s.ownStore a w v).intLine = s.intLine := rfl
@[simp] theorem State.ownStore_nmiPending (s : State) (a : Nat) (w : Width) (v : Word) : (s.ownStore a w v).nmiPending = s.nmiPending := rfl
@[simp] theorem State.ownStore_inputs (s : State) (a : Nat) (w : Width) (v : Word) : (s.ownStore a w v).inputs = s.inputs := rfl
@[simp] theorem State.ownStore_deviceLog (s : State) (a : Nat) (w : Width) (v : Word) : (s.ownStore a w v).deviceLog = s.deviceLog := rfl
@[simp] theorem State.ownStore_fresh (s : State) (a : Nat) (w : Width) (v : Word) : (s.ownStore a w v).fresh = s.fresh := rfl

@[simp] theorem State.ownStore_bitU (s : State) (a : Nat) (w : Width) (v : Word) : (s.ownStore a w v).bitU = s.bitU := rfl
@[simp] theorem State.ownStore_bitI (s : State) (a : Nat) (w : Width) (v : Word) : (s.ownStore a w v).bitI = s.bitI := rfl
@[simp] theorem State.ownStore_bitM (s : State) (a : Nat) (w : Width) (v : Word) : (s.ownStore a w v).bitM = s.bitM := rfl
@[simp] theorem State.ownStore_bitT (s : State) (a : Nat) (w : Width) (v : Word) : (s.ownStore a w v).bitT = s.bitT := rfl
@[simp] theorem State.ownStore_ecause (s : State) (a : Nat) (w : Width) (v : Word) : (s.ownStore a w v).ecause = s.ecause := rfl
@[simp] theorem State.ownStore_wired (s : State) (a : Nat) (w : Width) (v : Word) (q : RegNum) : (s.ownStore a w v).wired q = s.wired q := rfl

@[simp] theorem State.ownStore_readReg (s : State) (a : Nat) (w : Width) (v : Word) (q : RegNum) : (s.ownStore a w v).readReg q = s.readReg q := rfl

end Sys2Proof.Machine
end

