-- ==== Sys2Proof/Laws/Registers.lean ====
section
/-! SUPPORT. The register file under the zero-register rule (spec/10_state.md R22, R23), and the fields of RS. -/

namespace Sys2Proof.Machine

/-- Only number 0 can be the wired zero, and only while T is clear. -/
theorem wired_iff (s : State) (r : RegNum) : s.wired r = true ↔ r = 0#5 ∧ s.bitT = false := by
  simp [State.wired]

theorem wired_zero (s : State) : s.wired 0#5 = !s.bitT := by
  simp [State.wired]

theorem wired_of_ne_zero (s : State) {r : RegNum} (h : r ≠ 0#5) : s.wired r = false := by
  simp [State.wired, h]

/-- Reading after a write: the register written, unless it is the wired zero. -/
theorem readReg_writeReg (s : State) (r q : RegNum) (v : Word) :
    (s.writeReg r v).readReg q = if q = r ∧ s.wired r = false then v else s.readReg q := by
  rw [State.readReg, State.writeReg_wired, State.readReg]
  by_cases hq : s.wired q = true
  · by_cases e : q = r
    · subst e
      simp [hq]
    · simp [hq, e]
  · rw [if_neg hq, if_neg hq]
    by_cases hr : s.wired r = true
    · simp [State.writeReg, hr]
    · by_cases e : q = r
      · subst e
        simp [State.writeReg, hr]
      · have hne : r.toNat ≠ q.toNat := fun h => e (BitVec.eq_of_toNat_eq h.symm)
        simp [State.writeReg, hr, e, hne]

@[simp] theorem readReg_writeReg_same (s : State) (r : RegNum) (v : Word) :
    (s.writeReg r v).readReg r = if s.wired r then 0 else v := by
  rw [readReg_writeReg]
  cases hz : s.wired r <;> simp [State.readReg, hz]

theorem readReg_writeReg_other (s : State) {r q : RegNum} (v : Word) (h : q ≠ r) :
    (s.writeReg r v).readReg q = s.readReg q := by
  rw [readReg_writeReg, if_neg (fun e => h e.1)]

/-- A stored register that a write does not touch. -/
theorem regs_writeReg_other (s : State) (r : RegNum) (v : Word) (i : Nat) (h : i < 32)
    (hi : i ≠ r.toNat ∨ s.wired r = true) : (s.writeReg r v).regs[i] = s.regs[i] := by
  by_cases hz : s.wired r = true
  · simp [State.writeReg, hz]
  · have hne : r.toNat ≠ i := by
      rcases hi with e | e
      · exact e.symm
      · exact absurd e hz
    simp [State.writeReg, hz, hne]

/-- Register 0 reads as zero while T is clear. -/
theorem readReg_zero_of_not_bitT {s : State} (h : s.bitT = false) : s.readReg 0#5 = 0 := by
  simp [State.readReg, wired_zero, h]

/-- Setting RS leaves every stored register but number 0. -/
theorem regs_setRs_other (s : State) (v : Word) (i : Nat) (h : i < 32) (hi : i ≠ 0) :
    (s.setRs v).regs[i] = s.regs[i] := by
  simp only [State.setRs]
  split
  · rw [Vector.getElem_set, if_neg (Ne.symm hi)]
  · rfl

/-- Setting RS keeps the stored register 0 unless T goes from 0 to 1. -/
theorem regs_setRs_of_not_rising (s : State) (v : Word) (h : s.bitT = true ∨ v[3] = false) :
    (s.setRs v).regs = s.regs := by
  simp only [State.setRs]
  rcases h with h | h <;> simp [h]

theorem readReg_setRs_other (s : State) (v : Word) {q : RegNum} (h : q ≠ 0#5) :
    (s.setRs v).readReg q = s.readReg q := by
  have hq : q.toNat ≠ 0 := fun e => h (BitVec.eq_of_toNat_eq e)
  unfold State.readReg
  simp only [wired_of_ne_zero _ h]
  exact regs_setRs_other _ _ _ q.isLt hq

/-! ### The fields of RS after entry and return -/

/-- Bit by bit, RS after a normal entry (60_exceptions R356 to R358). -/
theorem rsEntered_bit (code : BitVec 4) (rs : Word) (i : Nat) (h : i < 32) :
    (rsEntered code rs).getLsbD i =
      if i < 2 then false else if i < 8 then rs.getLsbD i else if i < 24 then rs.getLsbD (i - 8)
      else if i < 28 then rs.getLsbD i else code.getLsbD (i - 28) := by
  simp only [rsEntered, BitVec.getLsbD_append, BitVec.getLsbD_extractLsb', BitVec.getLsbD_ofNat, Nat.zero_testBit,
    Bool.and_false]
  split_ifs <;>
    first
    | omega
    | rfl
    | (rw [decide_eq_true (by omega), Bool.true_and]; congr 1; omega)

/-- Bit by bit, RS after the pop of RFE (45_privileged R336). -/
theorem rsPopped_bit (rs : Word) (i : Nat) (h : i < 32) :
    (rsPopped rs).getLsbD i =
      if i < 16 then rs.getLsbD (i + 8) else if i < 24 then false else rs.getLsbD i := by
  simp only [rsPopped, BitVec.getLsbD_append, BitVec.getLsbD_extractLsb', BitVec.getLsbD_ofNat, Nat.zero_testBit,
    Bool.and_false]
  split_ifs <;>
    first
    | omega
    | rfl
    | (rw [decide_eq_true (by omega), Bool.true_and]; congr 1; omega)

/-- A write of RS sets no bit that the written value has clear (10_state R32). -/
theorem rsWritten_bit_imp {n : Nat} {v : Word} {i : Nat} (h : (rsWritten n v).getLsbD i = true) : v.getLsbD i = true := by
  unfold rsWritten at h
  split at h
  · exact h
  · rw [BitVec.getLsbD_and, Bool.and_eq_true] at h
    exact h.1

/-- A write of RS stores every bit but those written 1 where MBZ stands (10_state R32). -/
theorem rsWritten_bit (n : Nat) (v : Word) (i : Nat) (h : i < 32)
    (keeps : v.getLsbD i = false ∨ rsMbz.getLsbD i = false) : (rsWritten n v).getLsbD i = v.getLsbD i := by
  unfold rsWritten
  split
  · rfl
  · simp only [BitVec.getLsbD_and, BitVec.getLsbD_not, h, decide_true, Bool.true_and]
    rcases keeps with e | e <;> rw [e] <;> simp

end Sys2Proof.Machine
end

