-- ==== Sys2Proof/Laws/Exception.lean ====
section
/-! SUPPORT. What taking an exception and returning from one change and what they leave (spec/60_exceptions.md R356 to
R365; spec/45_privileged_101001.md R336). -/

namespace Sys2Proof.Machine

/-! ### What no entry changes -/

@[simp] theorem noteMiss_whami (b : TbSel) (va : Word) (s : State) : (noteMiss b va s).whami = s.whami := by
  cases b <;> rfl
@[simp] theorem noteMiss_eb (b : TbSel) (va : Word) (s : State) : (noteMiss b va s).eb = s.eb := by
  cases b <;> rfl
@[simp] theorem noteMiss_scratch0 (b : TbSel) (va : Word) (s : State) : (noteMiss b va s).scratch0 = s.scratch0 := by
  cases b <;> rfl
@[simp] theorem noteMiss_scratch1 (b : TbSel) (va : Word) (s : State) : (noteMiss b va s).scratch1 = s.scratch1 := by
  cases b <;> rfl
@[simp] theorem noteMiss_scratch2 (b : TbSel) (va : Word) (s : State) : (noteMiss b va s).scratch2 = s.scratch2 := by
  cases b <;> rfl
@[simp] theorem noteMiss_scratch3 (b : TbSel) (va : Word) (s : State) : (noteMiss b va s).scratch3 = s.scratch3 := by
  cases b <;> rfl
@[simp] theorem noteMiss_scratch4 (b : TbSel) (va : Word) (s : State) : (noteMiss b va s).scratch4 = s.scratch4 := by
  cases b <;> rfl
@[simp] theorem noteMiss_itbIndex (b : TbSel) (va : Word) (s : State) : (noteMiss b va s).itbIndex = s.itbIndex := by
  cases b <;> rfl
@[simp] theorem noteMiss_dtbIndex (b : TbSel) (va : Word) (s : State) : (noteMiss b va s).dtbIndex = s.dtbIndex := by
  cases b <;> rfl
@[simp] theorem noteMiss_itb (b : TbSel) (va : Word) (s : State) : (noteMiss b va s).itb = s.itb := by
  cases b <;> rfl
@[simp] theorem noteMiss_dtb (b : TbSel) (va : Word) (s : State) : (noteMiss b va s).dtb = s.dtb := by
  cases b <;> rfl
@[simp] theorem noteMiss_icacheStale (b : TbSel) (va : Word) (s : State) : (noteMiss b va s).icacheStale = s.icacheStale := by
  cases b <;> rfl
@[simp] theorem noteMiss_dcacheStale (b : TbSel) (va : Word) (s : State) : (noteMiss b va s).dcacheStale = s.dcacheStale := by
  cases b <;> rfl
@[simp] theorem noteMiss_locked (b : TbSel) (va : Word) (s : State) : (noteMiss b va s).locked = s.locked := by
  cases b <;> rfl
@[simp] theorem noteMiss_lockedAddr (b : TbSel) (va : Word) (s : State) : (noteMiss b va s).lockedAddr = s.lockedAddr := by
  cases b <;> rfl
@[simp] theorem noteMiss_mem (b : TbSel) (va : Word) (s : State) : (noteMiss b va s).mem = s.mem := by
  cases b <;> rfl
@[simp] theorem noteMiss_regions (b : TbSel) (va : Word) (s : State) : (noteMiss b va s).regions = s.regions := by
  cases b <;> rfl
@[simp] theorem noteMiss_pteLayout (b : TbSel) (va : Word) (s : State) : (noteMiss b va s).pteLayout = s.pteLayout := by
  cases b <;> rfl
@[simp] theorem noteMiss_intLine (b : TbSel) (va : Word) (s : State) : (noteMiss b va s).intLine = s.intLine := by
  cases b <;> rfl
@[simp] theorem noteMiss_nmiPending (b : TbSel) (va : Word) (s : State) : (noteMiss b va s).nmiPending = s.nmiPending := by
  cases b <;> rfl
@[simp] theorem noteMiss_inputs (b : TbSel) (va : Word) (s : State) : (noteMiss b va s).inputs = s.inputs := by
  cases b <;> rfl
@[simp] theorem noteMiss_deviceLog (b : TbSel) (va : Word) (s : State) : (noteMiss b va s).deviceLog = s.deviceLog := by
  cases b <;> rfl
@[simp] theorem noteMiss_fresh (b : TbSel) (va : Word) (s : State) : (noteMiss b va s).fresh = s.fresh := by
  cases b <;> rfl
@[simp] theorem noteMiss_regs (b : TbSel) (va : Word) (s : State) : (noteMiss b va s).regs = s.regs := by
  cases b <;> rfl
@[simp] theorem noteMiss_rs (b : TbSel) (va : Word) (s : State) : (noteMiss b va s).rs = s.rs := by
  cases b <;> rfl
@[simp] theorem noteMiss_epc (b : TbSel) (va : Word) (s : State) : (noteMiss b va s).epc = s.epc := by
  cases b <;> rfl
@[simp] theorem noteMiss_ebadaddr (b : TbSel) (va : Word) (s : State) : (noteMiss b va s).ebadaddr = s.ebadaddr := by
  cases b <;> rfl
@[simp] theorem noteMiss_tbmissaddr (b : TbSel) (va : Word) (s : State) : (noteMiss b va s).tbmissaddr = s.tbmissaddr := by
  cases b <;> rfl
@[simp] theorem noteMiss_tbpc (b : TbSel) (va : Word) (s : State) : (noteMiss b va s).tbpc = s.tbpc := by
  cases b <;> rfl
@[simp] theorem noteMiss_missWasWrite (b : TbSel) (va : Word) (s : State) : (noteMiss b va s).missWasWrite = s.missWasWrite := by
  cases b <;> rfl
@[simp] theorem noteMiss_nmiMask (b : TbSel) (va : Word) (s : State) : (noteMiss b va s).nmiMask = s.nmiMask := by
  cases b <;> rfl
@[simp] theorem noteMiss_halted (b : TbSel) (va : Word) (s : State) : (noteMiss b va s).halted = s.halted := by
  cases b <;> rfl
@[simp] theorem noteMiss_pc (b : TbSel) (va : Word) (s : State) : (noteMiss b va s).pc = s.pc := by
  cases b <;> rfl
@[simp] theorem noteMiss_bitT (b : TbSel) (va : Word) (s : State) : (noteMiss b va s).bitT = s.bitT := by
  cases b <;> rfl

@[simp] theorem takeException_whami (e : Exc) (s : State) : (takeException e s).whami = s.whami := by
  cases e <;> simp only [takeException] <;> (try split) <;>
    simp [normalEntry, nestedFaultEntry, nestedMissEntry, firstMissEntry]
@[simp] theorem takeException_eb (e : Exc) (s : State) : (takeException e s).eb = s.eb := by
  cases e <;> simp only [takeException] <;> (try split) <;>
    simp [normalEntry, nestedFaultEntry, nestedMissEntry, firstMissEntry]
@[simp] theorem takeException_scratch0 (e : Exc) (s : State) : (takeException e s).scratch0 = s.scratch0 := by
  cases e <;> simp only [takeException] <;> (try split) <;>
    simp [normalEntry, nestedFaultEntry, nestedMissEntry, firstMissEntry]
@[simp] theorem takeException_scratch1 (e : Exc) (s : State) : (takeException e s).scratch1 = s.scratch1 := by
  cases e <;> simp only [takeException] <;> (try split) <;>
    simp [normalEntry, nestedFaultEntry, nestedMissEntry, firstMissEntry]
@[simp] theorem takeException_scratch2 (e : Exc) (s : State) : (takeException e s).scratch2 = s.scratch2 := by
  cases e <;> simp only [takeException] <;> (try split) <;>
    simp [normalEntry, nestedFaultEntry, nestedMissEntry, firstMissEntry]
@[simp] theorem takeException_scratch3 (e : Exc) (s : State) : (takeException e s).scratch3 = s.scratch3 := by
  cases e <;> simp only [takeException] <;> (try split) <;>
    simp [normalEntry, nestedFaultEntry, nestedMissEntry, firstMissEntry]
@[simp] theorem takeException_scratch4 (e : Exc) (s : State) : (takeException e s).scratch4 = s.scratch4 := by
  cases e <;> simp only [takeException] <;> (try split) <;>
    simp [normalEntry, nestedFaultEntry, nestedMissEntry, firstMissEntry]
@[simp] theorem takeException_itbIndex (e : Exc) (s : State) : (takeException e s).itbIndex = s.itbIndex := by
  cases e <;> simp only [takeException] <;> (try split) <;>
    simp [normalEntry, nestedFaultEntry, nestedMissEntry, firstMissEntry]
@[simp] theorem takeException_dtbIndex (e : Exc) (s : State) : (takeException e s).dtbIndex = s.dtbIndex := by
  cases e <;> simp only [takeException] <;> (try split) <;>
    simp [normalEntry, nestedFaultEntry, nestedMissEntry, firstMissEntry]
@[simp] theorem takeException_itb (e : Exc) (s : State) : (takeException e s).itb = s.itb := by
  cases e <;> simp only [takeException] <;> (try split) <;>
    simp [normalEntry, nestedFaultEntry, nestedMissEntry, firstMissEntry]
@[simp] theorem takeException_dtb (e : Exc) (s : State) : (takeException e s).dtb = s.dtb := by
  cases e <;> simp only [takeException] <;> (try split) <;>
    simp [normalEntry, nestedFaultEntry, nestedMissEntry, firstMissEntry]
@[simp] theorem takeException_icacheStale (e : Exc) (s : State) : (takeException e s).icacheStale = s.icacheStale := by
  cases e <;> simp only [takeException] <;> (try split) <;>
    simp [normalEntry, nestedFaultEntry, nestedMissEntry, firstMissEntry]
@[simp] theorem takeException_dcacheStale (e : Exc) (s : State) : (takeException e s).dcacheStale = s.dcacheStale := by
  cases e <;> simp only [takeException] <;> (try split) <;>
    simp [normalEntry, nestedFaultEntry, nestedMissEntry, firstMissEntry]
@[simp] theorem takeException_locked (e : Exc) (s : State) : (takeException e s).locked = s.locked := by
  cases e <;> simp only [takeException] <;> (try split) <;>
    simp [normalEntry, nestedFaultEntry, nestedMissEntry, firstMissEntry]
@[simp] theorem takeException_lockedAddr (e : Exc) (s : State) : (takeException e s).lockedAddr = s.lockedAddr := by
  cases e <;> simp only [takeException] <;> (try split) <;>
    simp [normalEntry, nestedFaultEntry, nestedMissEntry, firstMissEntry]
@[simp] theorem takeException_mem (e : Exc) (s : State) : (takeException e s).mem = s.mem := by
  cases e <;> simp only [takeException] <;> (try split) <;>
    simp [normalEntry, nestedFaultEntry, nestedMissEntry, firstMissEntry]
@[simp] theorem takeException_regions (e : Exc) (s : State) : (takeException e s).regions = s.regions := by
  cases e <;> simp only [takeException] <;> (try split) <;>
    simp [normalEntry, nestedFaultEntry, nestedMissEntry, firstMissEntry]
@[simp] theorem takeException_pteLayout (e : Exc) (s : State) : (takeException e s).pteLayout = s.pteLayout := by
  cases e <;> simp only [takeException] <;> (try split) <;>
    simp [normalEntry, nestedFaultEntry, nestedMissEntry, firstMissEntry]
@[simp] theorem takeException_intLine (e : Exc) (s : State) : (takeException e s).intLine = s.intLine := by
  cases e <;> simp only [takeException] <;> (try split) <;>
    simp [normalEntry, nestedFaultEntry, nestedMissEntry, firstMissEntry]
@[simp] theorem takeException_nmiPending (e : Exc) (s : State) : (takeException e s).nmiPending = s.nmiPending := by
  cases e <;> simp only [takeException] <;> (try split) <;>
    simp [normalEntry, nestedFaultEntry, nestedMissEntry, firstMissEntry]
@[simp] theorem takeException_inputs (e : Exc) (s : State) : (takeException e s).inputs = s.inputs := by
  cases e <;> simp only [takeException] <;> (try split) <;>
    simp [normalEntry, nestedFaultEntry, nestedMissEntry, firstMissEntry]
@[simp] theorem takeException_deviceLog (e : Exc) (s : State) : (takeException e s).deviceLog = s.deviceLog := by
  cases e <;> simp only [takeException] <;> (try split) <;>
    simp [normalEntry, nestedFaultEntry, nestedMissEntry, firstMissEntry]
@[simp] theorem takeException_fresh (e : Exc) (s : State) : (takeException e s).fresh = s.fresh := by
  cases e <;> simp only [takeException] <;> (try split) <;>
    simp [normalEntry, nestedFaultEntry, nestedMissEntry, firstMissEntry]

/-- Every entry reloads the NMI mask counter (60_exceptions R377). -/
@[simp] theorem takeException_nmiMask (e : Exc) (s : State) : (takeException e s).nmiMask = Config.nmiMaskInsns := by
  cases e <;> simp only [takeException] <;> (try split) <;>
    simp [normalEntry, nestedFaultEntry, nestedMissEntry, firstMissEntry]

/-- No entry writes a stored register but number 0. -/
theorem takeException_regs_other (e : Exc) (s : State) (i : Nat) (h : i < 32) (hi : i ≠ 0) :
    (takeException e s).regs[i] = s.regs[i] := by
  cases e <;> simp only [takeException] <;> (try split) <;>
    simp [normalEntry, nestedFaultEntry, nestedMissEntry, firstMissEntry, regs_setRs_other, hi]

/-- Only the first miss, which sets T, touches stored register 0. -/
theorem takeException_regs (e : Exc) (s : State) (h : s.bitT = true ∨ ∀ k va, e ≠ .tbMiss k va) :
    (takeException e s).regs = s.regs := by
  cases e <;> simp only [takeException] <;> (try split) <;>
    simp [normalEntry, nestedFaultEntry, nestedMissEntry, firstMissEntry]
  rcases h with h | h
  · contradiction
  · exact absurd rfl (h _ _)

/-- The register an entry leaves readable: every one but number 0. -/
theorem takeException_readReg (e : Exc) (s : State) {q : RegNum} (h : q ≠ 0#5) :
    (takeException e s).readReg q = s.readReg q := by
  have hq : q.toNat ≠ 0 := fun e => h (BitVec.eq_of_toNat_eq e)
  unfold State.readReg
  simp only [wired_of_ne_zero _ h]
  exact takeException_regs_other _ _ _ q.isLt hq

/-! ### The entries by the value of T -/

theorem takeException_plain (c : Cause) (s : State) : takeException (.plain c) s = normalEntry c none s := rfl
theorem takeException_bus (pa : Word) (s : State) : takeException (.bus pa) s = normalEntry .bus (some pa) s := rfl
theorem takeException_una (va : Word) (s : State) : takeException (.una va) s = normalEntry .una (some va) s := rfl

theorem takeException_pageFault {s : State} (h : s.bitT = false) (kind : AccessKind) (va : Word) :
    takeException (.pageFault kind va) s = normalEntry (pageFaultCause (kind == .write)) (some va) s := by
  simp [takeException, h]

theorem takeException_pageFault_nested {s : State} (h : s.bitT = true) (kind : AccessKind) (va : Word) :
    takeException (.pageFault kind va) s = nestedFaultEntry s := by
  simp [takeException, h]

theorem takeException_tbMiss {s : State} (h : s.bitT = false) (kind : AccessKind) (va : Word) :
    takeException (.tbMiss kind va) s = firstMissEntry kind va s := by
  simp [takeException, h]

theorem takeException_tbMiss_nested {s : State} (h : s.bitT = true) (kind : AccessKind) (va : Word) :
    takeException (.tbMiss kind va) s = nestedMissEntry kind va s := by
  simp [takeException, h]

/-! ### RS after an entry -/

/-- Setting T in an entered RS, bit by bit. -/
theorem rsEntered_withT_bit (code : BitVec 4) (rs : Word) (i : Nat) (h : i < 32) :
    (rsEntered code rs ||| 8).getLsbD i = ((rsEntered code rs).getLsbD i || decide (i = 3)) := by
  rw [BitVec.getLsbD_or]
  congr 1
  interval_cases i <;> rfl

/-- The handler's address with a page-aligned EB is EB + 256 times the code (60_exceptions R355). -/
theorem vectorOf_toNat (c : Cause) (s : State) (h : s.eb.toNat % 4096 = 0) :
    (vectorOf c s).toNat = s.eb.toNat + 256 * c.code.toNat := by
  have low : s.eb.extractLsb' 0 12 = 0 := by
    apply BitVec.eq_of_toNat_eq
    rw [BitVec.extractLsb'_toNat]
    simpa using h
  have disjoint : s.eb &&& (c.code.zeroExtend 32 <<< 8) = 0 := by
    apply BitVec.eq_of_getLsbD_eq
    intro i hi
    simp only [BitVec.getLsbD_and, BitVec.getLsbD_shiftLeft, BitVec.truncate_eq_setWidth, BitVec.getLsbD_setWidth]
    by_cases h12 : i < 12
    · have := congrArg (fun x => x.getLsbD i) low
      simp only [BitVec.getLsbD_extractLsb', h12, decide_true, Bool.true_and, Nat.zero_add] at this
      simp [this]
    · have : c.code.getLsbD (i - 8) = false := BitVec.getLsbD_of_ge _ _ (by omega)
      simp [this]
  rw [vectorOf, if_pos low, ← BitVec.add_eq_or_of_and_eq_zero _ _ disjoint, BitVec.toNat_add, BitVec.toNat_shiftLeft]
  simp only [BitVec.truncate_eq_setWidth, BitVec.toNat_setWidth, Nat.shiftLeft_eq]
  have := c.code.isLt
  have := s.eb.isLt
  omega

/-! ### Return -/

@[simp] theorem returnFromException_locked (s : State) : (returnFromException s).locked = false := rfl
@[simp] theorem returnFromException_rs (s : State) : (returnFromException s).rs = rsPopped s.rs := rfl
@[simp] theorem returnFromException_pc (s : State) :
    (returnFromException s).pc = if s.bitT then s.tbpc else s.epc := rfl
@[simp] theorem returnFromException_whami (s : State) : (returnFromException s).whami = s.whami := rfl
@[simp] theorem returnFromException_eb (s : State) : (returnFromException s).eb = s.eb := rfl
@[simp] theorem returnFromException_scratch0 (s : State) : (returnFromException s).scratch0 = s.scratch0 := rfl
@[simp] theorem returnFromException_scratch1 (s : State) : (returnFromException s).scratch1 = s.scratch1 := rfl
@[simp] theorem returnFromException_scratch2 (s : State) : (returnFromException s).scratch2 = s.scratch2 := rfl
@[simp] theorem returnFromException_scratch3 (s : State) : (returnFromException s).scratch3 = s.scratch3 := rfl
@[simp] theorem returnFromException_scratch4 (s : State) : (returnFromException s).scratch4 = s.scratch4 := rfl
@[simp] theorem returnFromException_itbIndex (s : State) : (returnFromException s).itbIndex = s.itbIndex := rfl
@[simp] theorem returnFromException_dtbIndex (s : State) : (returnFromException s).dtbIndex = s.dtbIndex := rfl
@[simp] theorem returnFromException_itb (s : State) : (returnFromException s).itb = s.itb := rfl
@[simp] theorem returnFromException_dtb (s : State) : (returnFromException s).dtb = s.dtb := rfl
@[simp] theorem returnFromException_icacheStale (s : State) : (returnFromException s).icacheStale = s.icacheStale := rfl
@[simp] theorem returnFromException_dcacheStale (s : State) : (returnFromException s).dcacheStale = s.dcacheStale := rfl
@[simp] theorem returnFromException_lockedAddr (s : State) : (returnFromException s).lockedAddr = s.lockedAddr := rfl
@[simp] theorem returnFromException_mem (s : State) : (returnFromException s).mem = s.mem := rfl
@[simp] theorem returnFromException_regions (s : State) : (returnFromException s).regions = s.regions := rfl
@[simp] theorem returnFromException_pteLayout (s : State) : (returnFromException s).pteLayout = s.pteLayout := rfl
@[simp] theorem returnFromException_intLine (s : State) : (returnFromException s).intLine = s.intLine := rfl
@[simp] theorem returnFromException_nmiPending (s : State) : (returnFromException s).nmiPending = s.nmiPending := rfl
@[simp] theorem returnFromException_inputs (s : State) : (returnFromException s).inputs = s.inputs := rfl
@[simp] theorem returnFromException_deviceLog (s : State) : (returnFromException s).deviceLog = s.deviceLog := rfl
@[simp] theorem returnFromException_fresh (s : State) : (returnFromException s).fresh = s.fresh := rfl
@[simp] theorem returnFromException_epc (s : State) : (returnFromException s).epc = s.epc := rfl
@[simp] theorem returnFromException_ebadaddr (s : State) : (returnFromException s).ebadaddr = s.ebadaddr := rfl
@[simp] theorem returnFromException_tbmissaddr (s : State) : (returnFromException s).tbmissaddr = s.tbmissaddr := rfl
@[simp] theorem returnFromException_tbpc (s : State) : (returnFromException s).tbpc = s.tbpc := rfl
@[simp] theorem returnFromException_itbTag (s : State) : (returnFromException s).itbTag = s.itbTag := rfl
@[simp] theorem returnFromException_dtbTag (s : State) : (returnFromException s).dtbTag = s.dtbTag := rfl
@[simp] theorem returnFromException_itbAddr (s : State) : (returnFromException s).itbAddr = s.itbAddr := rfl
@[simp] theorem returnFromException_dtbAddr (s : State) : (returnFromException s).dtbAddr = s.dtbAddr := rfl
@[simp] theorem returnFromException_missWasWrite (s : State) : (returnFromException s).missWasWrite = s.missWasWrite := rfl
@[simp] theorem returnFromException_nmiMask (s : State) : (returnFromException s).nmiMask = s.nmiMask := rfl
@[simp] theorem returnFromException_halted (s : State) : (returnFromException s).halted = s.halted := rfl

theorem returnFromException_regs_other (s : State) (i : Nat) (h : i < 32) (hi : i ≠ 0) :
    (returnFromException s).regs[i] = s.regs[i] :=
  regs_setRs_other s _ i h hi

end Sys2Proof.Machine
end

