-- ==== Sys2Proof/Laws/Memory.lean ====
section
/-! SUPPORT. Memory: reading after writing, the frame of a write, and the canonical form (spec/20_memory.md R80, R81). -/

namespace Sys2Proof.Machine

/-! ### One byte -/

/-- Cells that all lie above an address do not list it. -/
theorem Memory.lookup_of_lt (l : List Host.Cell) (a : Nat) (h : ∀ c ∈ l, a < c.1) :
    Memory.lookup l a = Memory.background := by
  induction l with
  | nil => rfl
  | cons c rest ih =>
    obtain ⟨b, v⟩ := c
    have hb : b ≠ a := (h (b, v) (by simp)).ne'
    simp only [Memory.lookup, if_neg hb]
    exact ih fun c hc => h c (by simp [hc])

/-- A write leaves every other address alone. -/
theorem Memory.lookup_update_other (l : List Host.Cell) (a b : Nat) (v : Byte) (h : b ≠ a) :
    Memory.lookup (Memory.update l a v) b = Memory.lookup l b := by
  induction l with
  | nil =>
    simp only [Memory.update]
    split <;> simp [Memory.lookup, Ne.symm h]
  | cons c rest ih =>
    obtain ⟨k, u⟩ := c
    simp only [Memory.update]
    split_ifs with h1 h2 h3 h4
    · rfl
    · simp [Memory.lookup, Ne.symm h]
    · subst h3
      simp [Memory.lookup, Ne.symm h]
    · subst h3
      simp [Memory.lookup, Ne.symm h]
    · simp [Memory.lookup, ih]

/-- A write to rising cells gives the value written. -/
theorem Memory.lookup_update_same (l : List Host.Cell) (a : Nat) (v : Byte)
    (h : l.Pairwise fun c d => c.1 < d.1) : Memory.lookup (Memory.update l a v) a = v := by
  induction l with
  | nil =>
    simp only [Memory.update]
    split <;> simp [Memory.lookup, *]
  | cons c rest ih =>
    obtain ⟨k, u⟩ := c
    obtain ⟨hk, hr⟩ := List.pairwise_cons.mp h
    simp only [Memory.update]
    split_ifs with h1 h2 h3 h4
    · rw [h2]
      exact Memory.lookup_of_lt _ _ fun c hc => by
        rcases List.mem_cons.mp hc with rfl | hc
        · exact h1
        · exact h1.trans (hk c hc)
    · simp [Memory.lookup]
    · subst h3
      rw [h4]
      exact Memory.lookup_of_lt _ _ fun c hc => hk c hc
    · simp [Memory.lookup]
    · simp [Memory.lookup, Ne.symm h3, ih hr]

/-- Where the cells of an updated list come from. -/
theorem Memory.mem_update (l : List Host.Cell) (a : Nat) (v : Byte) (c : Host.Cell) (h : c ∈ Memory.update l a v) :
    c ∈ l ∨ c = (a, v) ∧ v ≠ Memory.background := by
  induction l with
  | nil =>
    simp only [Memory.update] at h
    split at h
    · simp at h
    · exact .inr ⟨by simpa using h, by assumption⟩
  | cons d rest ih =>
    obtain ⟨k, u⟩ := d
    simp only [Memory.update] at h
    split_ifs at h with h1 h2 h3 h4
    · exact .inl h
    · rcases List.mem_cons.mp h with e | e
      · exact .inr ⟨e, h2⟩
      · exact .inl e
    · exact .inl (List.mem_cons_of_mem _ h)
    · rcases List.mem_cons.mp h with e | e
      · exact .inr ⟨e, h4⟩
      · exact .inl (List.mem_cons_of_mem _ e)
    · rcases List.mem_cons.mp h with e | e
      · exact .inl (by rw [e]; exact List.mem_cons_self)
      · rcases ih e with e | e
        · exact .inl (List.mem_cons_of_mem _ e)
        · exact .inr e

theorem Memory.update_rising (l : List Host.Cell) (a : Nat) (v : Byte) (h : l.Pairwise fun c d => c.1 < d.1) :
    (Memory.update l a v).Pairwise fun c d => c.1 < d.1 := by
  induction l with
  | nil =>
    simp only [Memory.update]
    split <;> simp
  | cons c rest ih =>
    obtain ⟨k, u⟩ := c
    obtain ⟨hk, hr⟩ := List.pairwise_cons.mp h
    simp only [Memory.update]
    split_ifs with h1 h2 h3 h4
    · exact h
    · refine List.pairwise_cons.mpr ⟨fun d hd => ?_, h⟩
      rcases List.mem_cons.mp hd with rfl | hd
      · exact h1
      · exact h1.trans (hk d hd)
    · exact hr
    · subst h3
      exact List.pairwise_cons.mpr ⟨hk, hr⟩
    · refine List.pairwise_cons.mpr ⟨fun d hd => ?_, ih hr⟩
      rcases Memory.mem_update _ _ _ _ hd with e | e
      · exact hk d e
      · rw [e.1]
        show k < a
        omega

/-- A write keeps the canonical form. -/
theorem Memory.write_wf {m : Memory} (h : m.wf) (a : Nat) (v : Byte) : (m.write a v).wf := by
  refine ⟨Memory.update_rising _ _ _ h.1, fun c hc => ?_⟩
  rcases Memory.mem_update _ _ _ _ hc with e | e
  · exact h.2 c e
  · rw [e.1]
    exact e.2

theorem Memory.read_write_other (m : Memory) {a b : Nat} (v : Byte) (h : b ≠ a) : (m.write a v).read b = m.read b :=
  Memory.lookup_update_other _ _ _ _ h

theorem Memory.read_write_same {m : Memory} (h : m.wf) (a : Nat) (v : Byte) : (m.write a v).read a = v :=
  Memory.lookup_update_same _ _ _ h.1

/-- Reading one byte after writing one byte. -/
theorem Memory.read_write {m : Memory} (h : m.wf) (a b : Nat) (v : Byte) :
    (m.write a v).read b = if b = a then v else m.read b := by
  split
  · subst_vars
    exact Memory.read_write_same h _ _
  · exact Memory.read_write_other _ _ ‹_›

/-! ### An access of one, two or four bytes -/

theorem Width.bytes_pos (w : Width) : 0 < w.bytes := by
  cases w <;> decide

/-- A wide write keeps the canonical form. -/
theorem Memory.writeLE_wf {m : Memory} (h : m.wf) (a : Nat) (w : Width) (v : Word) : (m.writeLE a w v).wf := by
  cases w
  · exact Memory.write_wf h _ _
  · exact Memory.write_wf (Memory.write_wf h _ _) _ _
  · exact Memory.write_wf (Memory.write_wf (Memory.write_wf (Memory.write_wf h _ _) _ _) _ _) _ _

/-- A wide write changes nothing outside its bytes. -/
theorem Memory.read_writeLE_other (m : Memory) (a : Nat) (w : Width) (v : Word) (b : Nat)
    (h : b < a ∨ a + w.bytes ≤ b) : (m.writeLE a w v).read b = m.read b := by
  cases w <;> simp only [Width.bytes] at h
  · exact Memory.read_write_other _ _ (by omega)
  · simp only [Memory.writeLE]
    rw [Memory.read_write_other _ _ (by omega), Memory.read_write_other _ _ (by omega)]
  · simp only [Memory.writeLE]
    rw [Memory.read_write_other _ _ (by omega), Memory.read_write_other _ _ (by omega),
      Memory.read_write_other _ _ (by omega), Memory.read_write_other _ _ (by omega)]

/-- Byte `k` of a wide write is byte `k` of the value: the low byte at the lowest address. -/
theorem Memory.read_writeLE_at {m : Memory} (h : m.wf) (a : Nat) (w : Width) (v : Word) (k : Nat) (hk : k < w.bytes) :
    (m.writeLE a w v).read (a + k) = v.extractLsb' (8 * k) 8 := by
  cases w <;> simp only [Width.bytes] at hk
  · obtain rfl : k = 0 := by omega
    exact Memory.read_write_same h _ _
  · have h1 := Memory.write_wf h a (v.extractLsb' 0 8)
    simp only [Memory.writeLE, Memory.read_write h1, Memory.read_write h]
    interval_cases k <;> simp
  · have h1 := Memory.write_wf h a (v.extractLsb' 0 8)
    have h2 := Memory.write_wf h1 (a + 1) (v.extractLsb' 8 8)
    have h3 := Memory.write_wf h2 (a + 2) (v.extractLsb' 16 8)
    simp only [Memory.writeLE, Memory.read_write h3, Memory.read_write h2, Memory.read_write h1, Memory.read_write h]
    interval_cases k <;> simp

/-- A byte of a word as a number. -/
theorem extract_byte_toNat (v : Word) (k : Nat) : (v.extractLsb' (8 * k) 8).toNat = v.toNat / 256 ^ k % 256 := by
  rw [BitVec.extractLsb'_toNat, Nat.shiftRight_eq_div_pow, Nat.pow_mul]

/-- The bytes read stand in the value read, the low byte first, and nothing else does (20_memory R81, R88). -/
theorem Memory.readLE_byte (m : Memory) (a : Nat) (w : Width) (k : Nat) (hk : k < w.bytes) :
    (m.readLE a w).extractLsb' (8 * k) 8 = m.read (a + k) := by
  apply BitVec.eq_of_getLsbD_eq
  intro i hi
  cases w <;> simp only [Width.bytes] at hk <;> interval_cases k <;>
    simp only [Memory.readLE, BitVec.getLsbD_extractLsb', BitVec.getLsbD_append, BitVec.truncate_eq_setWidth,
      BitVec.getLsbD_setWidth, hi, decide_true, Bool.true_and] <;>
    (try split_ifs) <;> (try (exfalso; omega)) <;> (try rw [decide_eq_true (by omega), Bool.true_and]) <;> congr 1 <;>
    omega

theorem Memory.readLE_lt (m : Memory) (a : Nat) (w : Width) : (m.readLE a w).toNat < 256 ^ w.bytes := by
  cases w <;> simp only [Memory.readLE, Width.bytes]
  · have := (m.read a).isLt
    simp only [BitVec.truncate_eq_setWidth, BitVec.toNat_setWidth]
    omega
  · have := (m.read (a + 1) ++ m.read a).isLt
    simp only [BitVec.truncate_eq_setWidth, BitVec.toNat_setWidth]
    omega
  · exact BitVec.isLt _

/-- Equal bytes make equal words. -/
theorem Memory.readLE_congr (m n : Memory) (a : Nat) (w : Width) (h : ∀ k, k < w.bytes → m.read (a + k) = n.read (a + k)) :
    m.readLE a w = n.readLE a w := by
  cases w <;> simp only [Width.bytes] at h <;> simp only [Memory.readLE]
  · rw [← Nat.add_zero a, h 0 (by omega)]
  · have h0 := h 0 (by omega)
    rw [Nat.add_zero] at h0
    rw [h0, h 1 (by omega)]
  · have h0 := h 0 (by omega)
    rw [Nat.add_zero] at h0
    rw [h0, h 1 (by omega), h 2 (by omega), h 3 (by omega)]

/-- A read outside the bytes of a write sees none of it. -/
theorem Memory.readLE_writeLE_other (m : Memory) (a : Nat) (w : Width) (v : Word) (b : Nat) (u : Width)
    (h : b + u.bytes ≤ a ∨ a + w.bytes ≤ b) : (m.writeLE a w v).readLE b u = m.readLE b u :=
  Memory.readLE_congr _ _ _ _ fun k hk => Memory.read_writeLE_other _ _ _ _ _ (by omega)

/-- Writing a word and reading it back. -/
theorem Memory.readLE_writeLE_long {m : Memory} (h : m.wf) (a : Nat) (v : Word) :
    (m.writeLE a .long v).readLE a .long = v := by
  have key := fun k hk => Memory.read_writeLE_at h a .long v k hk
  have h0 := key 0 (by decide)
  rw [Nat.add_zero] at h0
  simp only [Memory.readLE, h0, key 1 (by decide), key 2 (by decide), key 3 (by decide)]
  apply BitVec.eq_of_getLsbD_eq
  intro i hi
  simp only [BitVec.getLsbD_append, BitVec.getLsbD_extractLsb']
  split_ifs <;> (rw [decide_eq_true (by omega), Bool.true_and]; congr 1; omega)

/-! ### The older copies of words -/

/-- What a cache that does not follow a store may hold afterwards: what it could, and the word replaced if it changed
(20_memory R121, R128). -/
theorem mem_noteStale (copies : List StaleCopy) (a : Nat) (old new : Word) (c : StaleCopy) :
    c ∈ noteStale copies a old new ↔ c ∈ copies ∨ old ≠ new ∧ c = ⟨wordBase a, old⟩ := by
  unfold noteStale
  split
  · rename_i h
    refine ⟨.inl, ?_⟩
    rintro (hc | ⟨ne, rfl⟩)
    · exact hc
    · exact h.resolve_left ne
  · rename_i h
    rw [List.mem_cons, or_comm]
    refine or_congr_right ⟨fun e => ⟨fun eq => h (.inl eq), e⟩, And.right⟩

theorem width_mask_bit (w : Width) (i : Nat) : w.mask.getLsbD i = decide (i < 8 * w.bytes) := by
  by_cases h : i < 32
  · cases w <;> interval_cases i <;> rfl
  · rw [BitVec.getLsbD_of_ge _ _ (by omega), eq_comm, decide_eq_false_iff_not]
    cases w <;> simp only [Width.bytes] <;> omega

/-- Byte by byte, a word with the part at an address replaced. -/
theorem putLane_byte (word : Word) (a : Nat) (w : Width) (v : Word) (k : Nat) (hk : k < 4) :
    (putLane word a w v).extractLsb' (8 * k) 8 =
      if a % 4 ≤ k ∧ k < a % 4 + w.bytes then v.extractLsb' (8 * (k - a % 4)) 8 else word.extractLsb' (8 * k) 8 := by
  apply BitVec.eq_of_getLsbD_eq
  intro i hi
  have j : 8 * k + i < 32 := by omega
  simp only [putLane, BitVec.getLsbD_extractLsb', BitVec.getLsbD_or, BitVec.getLsbD_and, BitVec.getLsbD_not,
    BitVec.getLsbD_shiftLeft, width_mask_bit, hi, j, decide_true, Bool.true_and]
  by_cases h : a % 4 ≤ k ∧ k < a % 4 + w.bytes
  · have above : ¬8 * k + i < 8 * (a % 4) := by omega
    have e : 8 * k + i - 8 * (a % 4) = 8 * (k - a % 4) + i := by omega
    have inside : 8 * (k - a % 4) + i < 8 * w.bytes := by omega
    rw [if_pos h]
    simp [above, inside, hi, e]
  · rw [if_neg h]
    by_cases above : 8 * k + i < 8 * (a % 4)
    · simp [above, hi]
    · have outside : ¬8 * k + i - 8 * (a % 4) < 8 * w.bytes := by omega
      simp [above, outside, hi]

/-! ### The physical map -/

theorem regionAt_nil (a : Nat) : regionAt [] a = .ram := rfl

/-- The map owns aligned words: two addresses of one word have one owner. -/
theorem regionAt_wordBase (l : List Region) (a b : Nat) (h : wordBase a = wordBase b) : regionAt l a = regionAt l b := by
  induction l with
  | nil => rfl
  | cons r rest ih => simp only [regionAt, h, ih]

end Sys2Proof.Machine
end

