-- ==== Sys2Proof/Laws/Tb.lean ====
section
/-! SUPPORT. The translation buffers: insertion, invalidation and lookup on the lists of used entries
(spec/20_memory.md R100 to R111). -/

namespace Sys2Proof.Machine

theorem Config_itbSize_gt : 4 < Config.itbSize := by
  unfold Config.itbSize
  omega

theorem Config_dtbSize_gt : 4 < Config.dtbSize := by
  unfold Config.dtbSize
  omega

theorem Config_itbSize_le : Config.itbSize ≤ 4294967296 := by
  unfold Config.itbSize
  have := Config.itbExtra.isLt
  omega

theorem Config_dtbSize_le : Config.dtbSize ≤ 4294967296 := by
  unfold Config.dtbSize
  have := Config.dtbExtra.isLt
  omega

theorem Tb.wf_nil (size : Nat) : Tb.wf [] size := by
  simp [Tb.wf]

/-- The entries after an insertion: the new one, and the old ones of the other indices. -/
theorem Tb.mem_put (tb : Tb) (size i : Nat) (e : TbEntry) (h : tb.wf size) (x : TbSlot) :
    x ∈ tb.put i e ↔ x = ⟨i, e⟩ ∨ x ∈ tb ∧ x.index ≠ i := by
  induction tb with
  | nil => simp [Tb.put]
  | cons y rest ih =>
    obtain ⟨hy, hr⟩ := List.pairwise_cons.mp h.1
    have ih := ih ⟨hr, fun z hz => h.2 z (List.mem_cons_of_mem _ hz)⟩
    have above : ∀ z ∈ rest, y.index < z.index := hy
    simp only [Tb.put]
    split_ifs with h1 h2
    · constructor
      · intro hx
        rcases List.mem_cons.mp hx with e1 | hx
        · exact .inl e1
        · refine .inr ⟨hx, ?_⟩
          rcases List.mem_cons.mp hx with rfl | hx
          · omega
          · have := above x hx
            omega
      · rintro (rfl | ⟨hx, -⟩)
        · exact List.mem_cons_self
        · exact List.mem_cons_of_mem _ hx
    · constructor
      · intro hx
        rcases List.mem_cons.mp hx with e1 | hx
        · exact .inl e1
        · refine .inr ⟨List.mem_cons_of_mem _ hx, ?_⟩
          have := above x hx
          omega
      · rintro (rfl | ⟨hx, hn⟩)
        · exact List.mem_cons_self
        · rcases List.mem_cons.mp hx with rfl | hx
          · omega
          · exact List.mem_cons_of_mem _ hx
    · constructor
      · intro hx
        rcases List.mem_cons.mp hx with rfl | hx
        · exact .inr ⟨List.mem_cons_self, by omega⟩
        · rcases ih.mp hx with e1 | ⟨hx, hn⟩
          · exact .inl e1
          · exact .inr ⟨List.mem_cons_of_mem _ hx, hn⟩
      · rintro (rfl | ⟨hx, hn⟩)
        · exact List.mem_cons_of_mem _ (ih.mpr (.inl rfl))
        · rcases List.mem_cons.mp hx with rfl | hx
          · exact List.mem_cons_self
          · exact List.mem_cons_of_mem _ (ih.mpr (.inr ⟨hx, hn⟩))

/-- An insertion below the size keeps the canonical form. -/
theorem Tb.put_wf (tb : Tb) (size i : Nat) (e : TbEntry) (h : tb.wf size) (hi : i < size) : (tb.put i e).wf size := by
  refine ⟨?_, fun x hx => ?_⟩
  · induction tb with
    | nil => simp [Tb.put]
    | cons y rest ih =>
      obtain ⟨hy, hr⟩ := List.pairwise_cons.mp h.1
      have hrest : Tb.wf rest size := ⟨hr, fun z hz => h.2 z (List.mem_cons_of_mem _ hz)⟩
      simp only [Tb.put]
      split_ifs with h1 h2
      · refine List.pairwise_cons.mpr ⟨fun z hz => ?_, h.1⟩
        rcases List.mem_cons.mp hz with rfl | hz
        · exact h1
        · exact h1.trans (hy z hz)
      · refine List.pairwise_cons.mpr ⟨fun z hz => ?_, hr⟩
        have := hy z hz
        show i < z.index
        omega
      · refine List.pairwise_cons.mpr ⟨fun z hz => ?_, ih hrest⟩
        rcases (Tb.mem_put rest size i e hrest z).mp hz with rfl | ⟨hz, -⟩
        · show y.index < i
          omega
        · exact hy z hz
  · rcases (Tb.mem_put tb size i e h x).mp hx with rfl | ⟨hx, -⟩
    · exact hi
    · exact h.2 x hx

theorem Tb.filter_wf (tb : Tb) (size : Nat) (p : TbSlot → Bool) (h : tb.wf size) : Tb.wf (tb.filter p) size :=
  ⟨h.1.filter p, fun x hx => h.2 x (List.mem_filter.mp hx).1⟩

theorem Tb.ofFree_wf (size : Nat) (l : List (Nat × Word × Word)) : (Tb.ofFree size l).wf size := by
  unfold Tb.ofFree
  suffices key : ∀ (k : List (Nat × Word × Word)) (tb : Tb), (∀ x ∈ k, x.1 < size) → tb.wf size →
      (k.foldl (fun tb x => tb.put x.1 ⟨x.2.1, x.2.2⟩) tb).wf size by
    exact key _ _ (fun x hx => by simpa using (List.mem_filter.mp hx).2) (Tb.wf_nil size)
  intro k
  induction k with
  | nil => intro tb _ h; exact h
  | cons x rest ih =>
    intro tb hk h
    exact ih _ (fun y hy => hk y (List.mem_cons_of_mem _ hy)) (Tb.put_wf tb size _ _ h (hk x List.mem_cons_self))

/-- Two used entries of one index are one entry. -/
theorem Tb.eq_of_index {tb : Tb} {size : Nat} (h : tb.wf size) {x y : TbSlot} (hx : x ∈ tb) (hy : y ∈ tb)
    (e : x.index = y.index) : x = y := by
  induction tb with
  | nil => simp at hx
  | cons z rest ih =>
    obtain ⟨hz, hr⟩ := List.pairwise_cons.mp h.1
    rcases List.mem_cons.mp hx with ex | hx' <;> rcases List.mem_cons.mp hy with ey | hy'
    · rw [ex, ey]
    · subst ex
      have := hz y hy'
      omega
    · subst ey
      have := hz x hx'
      omega
    · exact ih ⟨hr, fun w hw => h.2 w (List.mem_cons_of_mem _ hw)⟩ hx' hy'

/-- No used entry matches: no hit. -/
theorem Tb.hits_eq_nil (l : PteLayout) (tb : Tb) (vpn : BitVec 20) (asid : BitVec 12)
    (h : ∀ x ∈ tb, x.entry.hit l vpn asid = false) : tb.hits l vpn asid = [] := by
  simp only [Tb.hits, List.filter_eq_nil_iff, List.mem_map]
  rintro e ⟨x, hx, rfl⟩
  simp [h x hx]

/-- One used entry matches and no other does: one hit. -/
theorem Tb.hits_eq_one {l : PteLayout} {tb : Tb} {size : Nat} (h : tb.wf size) {vpn : BitVec 20} {asid : BitVec 12} {x : TbSlot}
    (hx : x ∈ tb) (hit : x.entry.hit l vpn asid = true) (only : ∀ y ∈ tb, y.entry.hit l vpn asid = true → y = x) :
    tb.hits l vpn asid = [x.entry] := by
  induction tb with
  | nil => simp at hx
  | cons z rest ih =>
    obtain ⟨hz, hr⟩ := List.pairwise_cons.mp h.1
    have hrest : Tb.wf rest size := ⟨hr, fun w hw => h.2 w (List.mem_cons_of_mem _ hw)⟩
    by_cases e : z = x
    · subst e
      have none : Tb.hits l rest vpn asid = [] := by
        refine Tb.hits_eq_nil _ _ _ _ fun y hy => ?_
        by_contra hc
        have := only y (List.mem_cons_of_mem _ hy) (by simpa using hc)
        subst this
        exact absurd (hz y hy) (lt_irrefl _)
      simp only [Tb.hits, List.map_cons, List.filter_cons, hit, if_true]
      simp only [Tb.hits] at none
      rw [none]
    · have hx' : x ∈ rest := by
        rcases List.mem_cons.mp hx with e' | e'
        · exact absurd e'.symm e
        · exact e'
      have hz' : z.entry.hit l vpn asid = false := by
        by_contra hc
        exact e (only z List.mem_cons_self (by simpa using hc))
      have := ih hrest hx' fun y hy => only y (List.mem_cons_of_mem _ hy)
      simp only [Tb.hits] at this ⊢
      rw [List.map_cons, List.filter_cons, if_neg (by simp [hz']), this]

/-! ### Insertion and invalidation -/

/-- An insertion whose index is below the size (20_memory R108). -/
theorem insertion_of_lt (tb : Tb) (size : Nat) (index : Word) (e : TbEntry) (n : Nat) (h : index.toNat < size) :
    insertion tb size index e n =
      (tb.put index.toNat e, if index.toNat + 1 = size then 4 else index + 1) := by
  simp [insertion, h]

/-- Whatever the index, an insertion keeps the canonical form. -/
theorem insertion_wf (tb : Tb) (size : Nat) (index : Word) (e : TbEntry) (n : Nat) (h : tb.wf size) :
    (insertion tb size index e n).1.wf size := by
  unfold insertion
  by_cases h1 : index.toNat < size
  · rw [if_pos h1]
    exact Tb.put_wf _ _ _ _ h h1
  · rw [if_neg h1]
    by_cases h2 : Config.freeNat n .tbIndex < size
    · rw [if_pos h2]
      exact Tb.put_wf _ _ _ _ h h2
    · rw [if_neg h2]
      exact h

/-- Everything an invalidation command can answer (20_memory R111). -/
theorem tbCommand_cases (l : PteLayout) (tb : Tb) (v : Word) :
    (∃ p : TbSlot → Bool, tbCommand l tb v = .ok (tb.filter p)) ∨ tbCommand l tb v = .refused .commandBits := by
  unfold tbCommand
  split
  · exact .inl ⟨fun _ => false, by simp⟩
  · exact .inl ⟨_, rfl⟩
  · exact .inl ⟨_, rfl⟩
  · split
    · exact .inl ⟨_, rfl⟩
    · exact .inr rfl

/-- Everything a cache command can answer (20_memory R125). -/
theorem cacheCommand_cases (copies : List StaleCopy) (v : Word) :
    (∃ l, cacheCommand copies v = .ok l ∧ ∀ c ∈ l, c ∈ copies) ∨ cacheCommand copies v = .refused .commandBits ∨
      cacheCommand copies v = .fault .unpredictableCacheCommand := by
  unfold cacheCommand
  split
  · exact .inl ⟨[], rfl, by simp⟩
  · split
    · exact .inl ⟨_, rfl, fun c hc => (List.mem_filter.mp hc).1⟩
    · exact .inr (.inl rfl)
  · exact .inr (.inr rfl)

end Sys2Proof.Machine
end

