-- ==== Sys2Proof/Laws/Access.lean ====
section
/-! SUPPORT. Accesses: for each shared operation, once, everything it can answer (spec/20_memory.md R86 to R104, R120 to
R128, R135). -/

namespace Sys2Proof.Machine

/-! ### Sequencing -/

@[simp] theorem Access.bind_ok {α β : Type} (a : α) (k : α → Access β) : (Access.ok a).bind k = k a := rfl
@[simp] theorem Access.bind_trap {α β : Type} (e : Exc) (k : α → Access β) : (Access.trap e).bind k = .trap e := rfl
@[simp] theorem Access.bind_fault {α β : Type} (f : Fault) (k : α → Access β) : (Access.fault f).bind k = .fault f := rfl
@[simp] theorem Access.bind_refused {α β : Type} (r : Refusal) (k : α → Access β) :
    (Access.refused r).bind k = .refused r := rfl

theorem Access.bind_eq_ok {α β : Type} {r : Access α} {k : α → Access β} {b : β} (h : r.bind k = .ok b) :
    ∃ a, r = .ok a ∧ k a = .ok b := by
  cases r <;> first | exact ⟨_, rfl, h⟩ | cases h

@[simp] theorem Access.finish_ok {α : Type} (a : α) (s : State) (k : α → Result) : (Access.ok a).finish s k = k a := rfl
@[simp] theorem Access.finish_trap {α : Type} (e : Exc) (s : State) (k : α → Result) :
    (Access.trap e : Access α).finish s k = .next (takeException e s) := rfl
@[simp] theorem Access.finish_fault {α : Type} (f : Fault) (s : State) (k : α → Result) :
    (Access.fault f : Access α).finish s k = .fault f := rfl
@[simp] theorem Access.finish_refused {α : Type} (r : Refusal) (s : State) (k : α → Result) :
    (Access.refused r : Access α).finish s k = .refused r := rfl

/-- An instruction that ends with an access answers a next state in two ways: the access gave a value, or it raised an
exception, which the unchanged state takes. -/
theorem Access.finish_next {α : Type} {r : Access α} {s t : State} {k : α → Result} (h : r.finish s k = .next t) :
    (∃ a, r = .ok a ∧ k a = .next t) ∨ ∃ e, r = .trap e ∧ t = takeException e s := by
  cases r with
  | ok a => exact .inl ⟨a, rfl, h⟩
  | trap e =>
    simp only [Access.finish_trap, Host.Outcome.next.injEq] at h
    exact .inr ⟨e, rfl, h.symm⟩
  | fault f => cases h
  | refused f => cases h

/-! ### Translation -/

theorem aligned_iff (w : Width) (a : Word) : w.aligned a = true ↔ a.toNat % w.bytes = 0 := by
  cases w
  · simp [Width.aligned, Width.bytes, Nat.mod_one]
  · simp only [Width.aligned, Width.bytes, beq_iff_eq, ← BitVec.toNat_inj, BitVec.extractLsb'_toNat]
    simp
  · simp only [Width.aligned, Width.bytes, beq_iff_eq, ← BitVec.toNat_inj, BitVec.extractLsb'_toNat]
    simp

/-- With M = 0 the physical address is the virtual one; at or above 3 GB the caches are bypassed (R99, R122). -/
theorem translateVa_off {s : State} (h : s.bitM = false) (va : Word) (kind : AccessKind) :
    translateVa va kind s = .ok (va, decide (0xC0000000 ≤ va)) := by
  simp [translateVa, h]

theorem translateVa_on {s : State} (h : s.bitM = true) (va : Word) (kind : AccessKind)
    (asid : tagAsid (s.tagOf kind.tb) ≠ 0xFFF) :
    translateVa va kind s =
      match (s.tbOf kind.tb).hits s.pteLayout (vpnOf va) (tagAsid (s.tagOf kind.tb)) with
      | [] => .trap (.tbMiss kind va)
      | [e] => translateBy e va kind s
      | _ :: _ :: _ => .refused .severalTbMatches := by
  rw [translateVa, if_pos h]
  exact if_neg asid

/-- Translation reads RS, the two tags, the two TBs and the PTE layout, nothing else. -/
theorem translateVa_congr {s t : State} (va : Word) (kind : AccessKind) (rs : t.rs = s.rs)
    (tag : t.tagOf kind.tb = s.tagOf kind.tb) (tb : t.tbOf kind.tb = s.tbOf kind.tb) (l : t.pteLayout = s.pteLayout) :
    translateVa va kind t = translateVa va kind s := by
  have m : t.bitM = s.bitM := by simp only [State.bitM, rs]
  have u : t.bitU = s.bitU := by simp only [State.bitU, rs]
  simp only [translateVa, translateBy, m, u, tag, tb, l]

theorem resolve_eq_ok {va : Word} {w : Width} {kind : AccessKind} {s : State} {p : Word × Bool}
    (h : resolve va w kind s = .ok p) : w.aligned va = true ∧ translateVa va kind s = .ok p := by
  unfold resolve at h
  split at h
  · exact ⟨‹_›, h⟩
  · cases h

theorem resolve_of_aligned {va : Word} {w : Width} {kind : AccessKind} {s : State} (h : va.toNat % w.bytes = 0) :
    resolve va w kind s = translateVa va kind s := by
  rw [resolve, if_pos ((aligned_iff w va).mpr h)]

theorem resolve_of_not_aligned {va : Word} {w : Width} {kind : AccessKind} {s : State} (h : va.toNat % w.bytes ≠ 0) :
    resolve va w kind s = .trap (.una va) := by
  rw [resolve, if_neg fun c => h ((aligned_iff w va).mp c)]

/-! ### Reads -/

theorem physRead_memory {pa : Word} {s : State} (h : regionAt s.regions pa.toNat = .ram ∨ regionAt s.regions pa.toNat = .rom)
    (w : Width) (bypass : Bool) :
    physRead pa w bypass s =
      .ok (seenThrough s.dcacheStale (Config.freeNat s.fresh .dcache) s.mem pa w bypass, s) := by
  unfold physRead
  rcases h with h | h <;> rw [h]

theorem physFetch_memory {pa : Word} {s : State} (h : regionAt s.regions pa.toNat = .ram ∨ regionAt s.regions pa.toNat = .rom)
    (bypass : Bool) :
    physFetch pa bypass s =
      .ok (seenThrough s.icacheStale (Config.freeNat s.fresh .icache) s.mem pa .long bypass, s) := by
  unfold physFetch
  rcases h with h | h <;> rw [h]

/-- A device's answer changes the record of device accesses and nothing else. -/
theorem noteDevice_eq (a : DeviceAccess) (bypass : Bool) (s : State) :
    noteDevice a bypass s = { s with deviceLog := (noteDevice a bypass s).deviceLog } := by
  unfold noteDevice
  split <;> rfl

/-- Everything a device can answer: a bus error at the address, or its value with at most one entry in the record. -/
theorem deviceAnswer_cases (a : DeviceAccess) (bypass : Bool) (s : State) :
    deviceAnswer a bypass s = .trap (.bus a.addr) ∨
      ∃ log, (log = a :: s.deviceLog ∨ bypass = false ∧ log = s.deviceLog) ∧
        deviceAnswer a bypass s = .ok (a.value, { s with deviceLog := log }) := by
  unfold deviceAnswer noteDevice
  split
  · exact .inl rfl
  · refine .inr ?_
    split
    · exact ⟨_, .inl rfl, rfl⟩
    · rename_i h
      refine ⟨s.deviceLog, .inr ⟨?_, rfl⟩, rfl⟩
      rw [Bool.or_eq_true, not_or, Bool.not_eq_true] at h
      exact h.1

/-- Everything a physical read can answer leaves the state but the record of device accesses. -/
theorem physRead_eq_ok {pa : Word} {w : Width} {bypass : Bool} {s : State} {r : Word × State}
    (h : physRead pa w bypass s = .ok r) : ∃ log, r.2 = { s with deviceLog := log } := by
  unfold physRead at h
  split at h
  · cases h
  · rcases deviceAnswer_cases ⟨.read, pa, w, deviceValue false w s, ‹Bool›⟩ bypass s with e | ⟨log, -, e⟩ <;>
      rw [e] at h <;> cases h
    exact ⟨log, rfl⟩
  · cases h
    exact ⟨s.deviceLog, rfl⟩
  · cases h
    exact ⟨s.deviceLog, rfl⟩

theorem physFetch_eq_ok {pa : Word} {bypass : Bool} {s : State} {r : Word × State}
    (h : physFetch pa bypass s = .ok r) : ∃ log, r.2 = { s with deviceLog := log } := by
  unfold physFetch at h
  split at h
  · cases h
  · rcases deviceAnswer_cases ⟨.fetch, pa, .long, deviceValue true .long s, ‹Bool›⟩ bypass s with e | ⟨log, -, e⟩ <;>
      rw [e] at h <;> cases h
    exact ⟨log, rfl⟩
  · cases h
    exact ⟨s.deviceLog, rfl⟩
  · cases h
    exact ⟨s.deviceLog, rfl⟩

@[simp] theorem seenThrough_bypass (copies : List StaleCopy) (n : Nat) (mem : Memory) (pa : Word) (w : Width) :
    seenThrough copies n mem pa w true = mem.readLE pa.toNat w := rfl

theorem seenThrough_fresh {copies : List StaleCopy} {pa : Word} (h : ∀ c ∈ copies, c.addr ≠ wordBase pa.toNat) (n : Nat)
    (mem : Memory) (w : Width) (bypass : Bool) : seenThrough copies n mem pa w bypass = mem.readLE pa.toNat w := by
  have none : staleWords copies pa.toNat = [] := by
    simp only [staleWords, List.map_eq_nil_iff, List.filter_eq_nil_iff]
    intro c hc
    simpa using h c hc
  cases bypass <;> simp [seenThrough, none]

/-- The copy chosen is the current word or one of the older ones. -/
theorem chooseCopy_mem (n : Nat) (current : Word) (older : List Word) :
    chooseCopy n current older = current ∨ chooseCopy n current older ∈ older := by
  have hn : n % (older.length + 1) < (current :: older).length := by
    simpa using Nat.mod_lt n (Nat.succ_pos older.length)
  have : chooseCopy n current older ∈ current :: older := by
    rw [chooseCopy, List.getD_eq_getElem _ _ hn]
    exact List.getElem_mem hn
  simpa using this

theorem width_mask_toNat (w : Width) : w.mask.toNat = 256 ^ w.bytes - 1 := by
  cases w <;> rfl

/-- The part of a word that an access sees, as a number. -/
theorem lane_toNat (word : Word) (a : Nat) (w : Width) :
    (lane word a w).toNat = word.toNat / 256 ^ (a % 4) % 256 ^ w.bytes := by
  have p : 256 ^ w.bytes = 2 ^ (8 * w.bytes) := by
    rw [Nat.pow_mul]
  rw [lane, BitVec.toNat_and, width_mask_toNat, BitVec.toNat_ushiftRight, Nat.shiftRight_eq_div_pow, p,
    Nat.and_two_pow_sub_one_eq_mod, Nat.pow_mul]

theorem readLE_toNat_byte (m : Memory) (a : Nat) (w : Width) (k : Nat) (hk : k < w.bytes) :
    (m.readLE a w).toNat / 256 ^ k % 256 = (m.read (a + k)).toNat := by
  rw [← extract_byte_toNat, Memory.readLE_byte m a w k hk]

/-- An aligned access sees its bytes of the aligned word (R84). -/
theorem lane_readLE (m : Memory) (a : Nat) (w : Width) (h : a % w.bytes = 0) :
    lane (m.readLE (wordBase a) .long) a w = m.readLE a w := by
  have bits : ∀ k, k < w.bytes → (lane (m.readLE (wordBase a) .long) a w).toNat / 256 ^ k % 256 =
      (m.readLE a w).toNat / 256 ^ k % 256 := by
    intro k hk
    have fits : a % 4 + k < 4 := by
      cases w <;> simp only [Width.bytes] at h hk <;> omega
    rw [readLE_toNat_byte m a w k hk, lane_toNat]
    have whole := readLE_toNat_byte m (wordBase a) .long (a % 4 + k) (by simpa [Width.bytes] using fits)
    have e : wordBase a + (a % 4 + k) = a + k := by
      unfold wordBase
      omega
    rw [e] at whole
    rw [← whole, Nat.pow_add, ← Nat.div_div_eq_div_mul]
    generalize (m.readLE (wordBase a) Width.long).toNat / 256 ^ (a % 4) = x
    cases w <;> simp only [Width.bytes] at hk ⊢ <;> interval_cases k <;> omega
  have bound : (lane (m.readLE (wordBase a) .long) a w).toNat < 256 ^ w.bytes := by
    rw [lane_toNat]
    exact Nat.mod_lt _ (Nat.pow_pos (by decide))
  have bound' := Memory.readLE_lt m a w
  apply BitVec.eq_of_toNat_eq
  generalize (lane (m.readLE (wordBase a) .long) a w).toNat = x at *
  generalize (m.readLE a w).toNat = y at *
  cases w <;> simp only [Width.bytes] at *
  · have := bits 0 (by decide)
    omega
  · have := bits 0 (by decide)
    have := bits 1 (by decide)
    omega
  · have := bits 0 (by decide)
    have := bits 1 (by decide)
    have := bits 2 (by decide)
    have := bits 3 (by decide)
    omega

/-- Everything a read through a cache, or around it, can see: memory's bytes or an older copy's (R121, R128). -/
theorem seenThrough_cases (copies : List StaleCopy) (n : Nat) (mem : Memory) (pa : Word) (w : Width) (bypass : Bool)
    (h : pa.toNat % w.bytes = 0) :
    seenThrough copies n mem pa w bypass = mem.readLE pa.toNat w ∨
      bypass = false ∧ ∃ c ∈ copies, c.addr = wordBase pa.toNat ∧
        seenThrough copies n mem pa w bypass = lane c.word pa.toNat w := by
  cases bypass with
  | true => exact .inl rfl
  | false =>
    unfold seenThrough
    simp only [Bool.false_eq_true, if_false]
    split
    · exact .inl rfl
    · rename_i o older eq
      rcases chooseCopy_mem n (mem.readLE (wordBase pa.toNat) .long) (o :: older) with e | e
      · rw [e, lane_readLE mem _ w h]
        exact .inl rfl
      · refine .inr ⟨trivial, ?_⟩
        rw [← eq] at e ⊢
        obtain ⟨c, hc, hw⟩ := List.mem_map.mp e
        obtain ⟨hm, ha⟩ := List.mem_filter.mp hc
        exact ⟨c, hm, by simpa using ha, by rw [hw]⟩

/-! ### Writes -/

/-- Everything a physical write can answer: the store into RAM, or a state that differs in the record of device accesses
only. -/
theorem physWrite_eq_ok {pa : Word} {w : Width} {v : Word} {bypass : Bool} {s t : State}
    (h : physWrite pa w v bypass s = .ok t) :
    (∃ log, t = { s with deviceLog := log }) ∨ regionAt s.regions pa.toNat = .ram ∧ t = s.ownStore pa.toNat w v := by
  unfold physWrite at h
  split at h
  · cases h
  · rcases deviceAnswer_cases ⟨.write, pa, w, v &&& w.mask, true⟩ bypass s with e | ⟨log, -, e⟩ <;>
      rw [e] at h <;> cases h
    exact .inl ⟨log, rfl⟩
  · split at h
    · cases h
    · cases h
      exact .inl ⟨s.deviceLog, rfl⟩
  · cases h
    exact .inr ⟨by assumption, rfl⟩

/-- Everything a data write can answer. -/
theorem memWrite_eq_ok {va : Word} {w : Width} {v : Word} {s t : State} (h : memWrite va w v s = .ok t) :
    ∃ p, resolve va w .write s = .ok p ∧
      ((∃ log, t = { s with deviceLog := log }) ∨
        regionAt s.regions p.1.toNat = .ram ∧ t = s.ownStore p.1.toNat w v) := by
  obtain ⟨p, hp, h⟩ := Access.bind_eq_ok h
  exact ⟨p, hp, physWrite_eq_ok h⟩

/-- Everything a data read can answer. -/
theorem memRead_eq_ok {va : Word} {w : Width} {s : State} {r : Word × State} (h : memRead va w s = .ok r) :
    ∃ log, r.2 = { s with deviceLog := log } := by
  obtain ⟨p, -, h⟩ := Access.bind_eq_ok h
  exact physRead_eq_ok h

theorem memWrite_ram {va pa : Word} {w : Width} {n : Bool} {s : State} (al : va.toNat % w.bytes = 0)
    (tr : translateVa va .write s = .ok (pa, n)) (ram : regionAt s.regions pa.toNat = .ram) (v : Word) :
    memWrite va w v s = .ok (s.ownStore pa.toNat w v) := by
  simp only [memWrite, resolve_of_aligned al, tr, Access.bind_ok, physWrite, ram]

theorem memRead_memory {va pa : Word} {w : Width} {n : Bool} {s : State} (al : va.toNat % w.bytes = 0)
    (tr : translateVa va .read s = .ok (pa, n))
    (mem : regionAt s.regions pa.toNat = .ram ∨ regionAt s.regions pa.toNat = .rom) :
    memRead va w s = .ok (seenThrough s.dcacheStale (Config.freeNat s.fresh .dcache) s.mem pa w n, s) := by
  simp only [memRead, resolve_of_aligned al, tr, Access.bind_ok, physRead_memory mem]

/-- A translation keeps the byte offset, so alignment too (R83). -/
theorem translateVa_offset {va : Word} {kind : AccessKind} {s : State} {p : Word × Bool}
    (h : translateVa va kind s = .ok p) : p.1.toNat % 4096 = va.toNat % 4096 := by
  have phys : ∀ (l : PteLayout) (pte : Word), (physOf l pte va).toNat % 4096 = va.toNat % 4096 := by
    intro l pte
    rw [physOf, BitVec.toNat_append, pageOffset, BitVec.extractLsb'_toNat, Nat.shiftLeft_eq]
    have : (ptePfn l pte).toNat * 2 ^ 12 ||| (va.toNat >>> 0 % 2 ^ 12) =
        (ptePfn l pte).toNat * 2 ^ 12 + va.toNat >>> 0 % 2 ^ 12 := by
      rw [Nat.mul_comm]
      exact (Nat.two_pow_add_eq_or_of_lt (Nat.mod_lt _ (by decide)) _).symm
    rw [this]
    simp only [Nat.shiftRight_zero]
    omega
  unfold translateVa at h
  split at h
  · split at h
    · cases h
    · split at h
      · cases h
      · unfold translateBy at h
        split at h
        · simp only [Access.ok.injEq] at h
          rw [← h]
          exact phys _ _
        · cases h
      · cases h
  · simp only [Access.ok.injEq] at h
    rw [← h]

theorem translateVa_aligned {va : Word} {kind : AccessKind} {s : State} {p : Word × Bool} (w : Width)
    (h : translateVa va kind s = .ok p) (al : va.toNat % w.bytes = 0) : p.1.toNat % w.bytes = 0 := by
  have := translateVa_offset h
  cases w <;> simp only [Width.bytes] at al ⊢ <;> omega

end Sys2Proof.Machine
end

