-- ==== Sys2Proof/Laws/Decode.lean ====
section
/-! SUPPORT. The fields of an encoded word, and the bytes a word is stored as (spec/30_encoding.md R150 to R156, R180). -/

namespace Sys2Proof

/-! ### Bytes -/

theorem wordOfBytes_bytes (w : Word) :
    wordOfBytes (w.extractLsb' 0 8) (w.extractLsb' 8 8) (w.extractLsb' 16 8) (w.extractLsb' 24 8) = w := by
  unfold wordOfBytes
  apply BitVec.eq_of_getLsbD_eq
  intro i hi
  simp only [BitVec.getLsbD_append, BitVec.getLsbD_extractLsb']
  split_ifs <;> (rw [decide_eq_true (by omega), Bool.true_and]; congr 1; omega)

/-- Decoding the bytes of a word is decoding the word. -/
@[simp] theorem decodeBytes_bytesOfWord (w : Word) : decodeBytes (bytesOfWord w) = decode w := by
  simp only [bytesOfWord, decodeBytes, wordOfBytes_bytes]

/-! ### Fields -/

/-- The part of a concatenation that lies in its low operand. -/
theorem extract_append_low {n m : Nat} (x : BitVec n) (y : BitVec m) (k l : Nat) (h : k + l ≤ m) :
    (x ++ y).extractLsb' k l = y.extractLsb' k l := by
  apply BitVec.eq_of_getLsbD_eq
  intro i hi
  simp only [BitVec.getLsbD_extractLsb', BitVec.getLsbD_append, hi, decide_true, Bool.true_and]
  rw [if_pos (by omega)]

/-- The part of a concatenation that lies in its high operand. -/
theorem extract_append_high {n m : Nat} (x : BitVec n) (y : BitVec m) (k l : Nat) (h : m ≤ k) :
    (x ++ y).extractLsb' k l = x.extractLsb' (k - m) l := by
  apply BitVec.eq_of_getLsbD_eq
  intro i hi
  simp only [BitVec.getLsbD_extractLsb', BitVec.getLsbD_append, hi, decide_true, Bool.true_and]
  rw [if_neg (by omega)]
  congr 1
  omega

theorem extract_all {n : Nat} (x : BitVec n) : x.extractLsb' 0 n = x := by
  apply BitVec.eq_of_getLsbD_eq
  intro i hi
  simp [hi]

section Fields

variable (op6 : BitVec 6) (op3 : BitVec 3) (f : BitVec 4) (ra rb : RegNum) (sc : ShiftedReg)
variable (imm16 : BitVec 16) (imm21 : BitVec 21) (imm29 : BitVec 29)

@[simp] theorem encJump_format : (encJump op3 imm29).extractLsb' 0 3 = op3 := by
  rw [encJump, extract_append_low _ _ _ _ (by decide), extract_all]
@[simp] theorem encJump_imm : imm29Field (encJump op3 imm29) = imm29 := by
  rw [imm29Field, encJump, extract_append_high _ _ _ _ (by decide), extract_all]

@[simp] theorem encBranch_format : (encBranch op6 ra imm21).extractLsb' 0 3 = op6.extractLsb' 0 3 := by
  rw [encBranch, extract_append_low _ _ _ _ (by decide)]
@[simp] theorem encBranch_op : opField (encBranch op6 ra imm21) = op6 := by
  rw [opField, encBranch, extract_append_low _ _ _ _ (by decide), extract_all]
@[simp] theorem encBranch_ra : raField (encBranch op6 ra imm21) = ra := by
  rw [raField, encBranch, extract_append_high _ _ _ _ (by decide), extract_append_low _ _ _ _ (by decide), extract_all]
@[simp] theorem encBranch_imm : imm21Field (encBranch op6 ra imm21) = imm21 := by
  rw [imm21Field, encBranch, extract_append_high _ _ _ _ (by decide), extract_append_high _ _ _ _ (by decide),
    extract_all]

@[simp] theorem encImm_format : (encImm op6 ra rb imm16).extractLsb' 0 3 = op6.extractLsb' 0 3 := by
  rw [encImm, extract_append_low _ _ _ _ (by decide)]
@[simp] theorem encImm_op : opField (encImm op6 ra rb imm16) = op6 := by
  rw [opField, encImm, extract_append_low _ _ _ _ (by decide), extract_all]
@[simp] theorem encImm_ra : raField (encImm op6 ra rb imm16) = ra := by
  rw [raField, encImm, extract_append_high _ _ _ _ (by decide), extract_append_low _ _ _ _ (by decide), extract_all]
@[simp] theorem encImm_rb : rbField (encImm op6 ra rb imm16) = rb := by
  rw [rbField, encImm, extract_append_high _ _ _ _ (by decide), extract_append_high _ _ _ _ (by decide),
    extract_append_low _ _ _ _ (by decide), extract_all]
@[simp] theorem encImm_imm : imm16Field (encImm op6 ra rb imm16) = imm16 := by
  rw [imm16Field, encImm, extract_append_high _ _ _ _ (by decide), extract_append_high _ _ _ _ (by decide),
    extract_append_high _ _ _ _ (by decide), extract_all]

@[simp] theorem encReg_format : (encReg op6 f ra rb sc).extractLsb' 0 3 = op6.extractLsb' 0 3 := by
  rw [encReg, extract_append_low _ _ _ _ (by decide)]
@[simp] theorem encReg_op : opField (encReg op6 f ra rb sc) = op6 := by
  rw [opField, encReg, extract_append_low _ _ _ _ (by decide), extract_all]
@[simp] theorem encReg_ra : raField (encReg op6 f ra rb sc) = ra := by
  rw [raField, encReg, extract_append_high _ _ _ _ (by decide), extract_append_low _ _ _ _ (by decide), extract_all]
@[simp] theorem encReg_rb : rbField (encReg op6 f ra rb sc) = rb := by
  rw [rbField, encReg, extract_append_high _ _ _ _ (by decide), extract_append_high _ _ _ _ (by decide),
    extract_append_low _ _ _ _ (by decide), extract_all]
@[simp] theorem encReg_rc : rcField (encReg op6 f ra rb sc) = sc.rc := by
  rw [rcField, encReg, extract_append_high _ _ _ _ (by decide), extract_append_high _ _ _ _ (by decide),
    extract_append_high _ _ _ _ (by decide), extract_append_low _ _ _ _ (by decide), extract_all]
@[simp] theorem encReg_shamt : shamtField (encReg op6 f ra rb sc) = sc.amount := by
  rw [shamtField, encReg, extract_append_high _ _ _ _ (by decide), extract_append_high _ _ _ _ (by decide),
    extract_append_high _ _ _ _ (by decide), extract_append_high _ _ _ _ (by decide),
    extract_append_low _ _ _ _ (by decide), extract_all]
@[simp] theorem encReg_shift : shiftField (encReg op6 f ra rb sc) = sc.kind.toBits := by
  rw [shiftField, encReg, extract_append_high _ _ _ _ (by decide), extract_append_high _ _ _ _ (by decide),
    extract_append_high _ _ _ _ (by decide), extract_append_high _ _ _ _ (by decide),
    extract_append_high _ _ _ _ (by decide), extract_append_low _ _ _ _ (by decide), extract_all]
@[simp] theorem encReg_funct : functField (encReg op6 f ra rb sc) = f := by
  rw [functField, encReg, extract_append_high _ _ _ _ (by decide), extract_append_high _ _ _ _ (by decide),
    extract_append_high _ _ _ _ (by decide), extract_append_high _ _ _ _ (by decide),
    extract_append_high _ _ _ _ (by decide), extract_append_high _ _ _ _ (by decide), extract_all]

end Fields

@[simp] theorem ShiftType.ofBits_toBits (t : ShiftType) : ShiftType.ofBits t.toBits = t := by
  cases t <;> rfl

end Sys2Proof
end

