-- ==== Sys2Proof/Laws/Exec.lean ====
section
/-! SUPPORT. What an instruction can do, once for all 61 (spec/40_jump.md to spec/45_privileged_101001.md), and what each
of these effects keeps. -/

namespace Sys2Proof.Machine

/-- Every way an instruction can answer a next state. -/
inductive Effect (i : Instr) (s : State) : State → Prop where
  /-- an exception, from the unchanged state -/
  | trap (e : Exc) : Effect i s (takeException e s)
  /-- the pc only, and the record of device accesses -/
  | goto (p : Word) (log : List DeviceAccess) : Effect i s (({ s with deviceLog := log } : State).goto p)
  /-- one register and the pc, and the record of device accesses -/
  | write (r : RegNum) (v p : Word) (log : List DeviceAccess) (dest : destOf i = some r) :
      Effect i s ((({ s with deviceLog := log } : State).writeReg r v).goto p)
  /-- a register and the reservation, and the record of device accesses -/
  | link (r : RegNum) (v a : Word) (log : List DeviceAccess) (ll : ∃ ra rb, i = .ll ra rb) (dest : destOf i = some r) :
      Effect i s (({ s with deviceLog := log, locked := true, lockedAddr := a } : State).writeReg r v).advance
  /-- a store -/
  | store (st : isStore i = true) (pa : Nat) (w : Width) (v : Word) : Effect i s (s.ownStore pa w v).advance
  /-- a store and a register -/
  | storeWrite (st : isStore i = true) (pa : Nat) (w : Width) (v : Word) (r : RegNum) (x : Word)
      (dest : destOf i = some r) : Effect i s ((s.ownStore pa w v).writeReg r x).advance
  /-- MFCR -/
  | readControl (kernel : s.bitU = false) (r : RegNum) (v : Word) (mfcr : ∃ cr, i = .mfcr r cr) :
      Effect i s (s.writeReg r v).reloadNmiMask.advance
  /-- MTCR -/
  | writeControl (kernel : s.bitU = false) (cr : CrNum) (rb : RegNum) (mtcr : i = .mtcr cr rb) (c : CtrlReg)
      (names : CtrlReg.ofNum cr = some c) (u : State) (h : Machine.writeControl c (s.readReg rb) s = .ok u) :
      Effect i s u.reloadNmiMask.advance
  /-- HLT -/
  | halt (kernel : s.bitU = false) (hlt : i = .hlt) : Effect i s { s.advance with halted := true }
  /-- RFE -/
  | ret (kernel : s.bitU = false) (rfe : i = .rfe) : Effect i s (returnFromException s)

theorem advance_eq_goto (s : State) : s.advance = s.goto s.nextPc := rfl

theorem effect_write {i : Instr} {s t : State} {r : RegNum} {v : Word} (dest : destOf i = some r)
    (h : writeAndAdvance r v s = .next t) : Effect i s t := by
  simp only [writeAndAdvance, Host.Outcome.next.injEq] at h
  subst h
  exact .write r v _ s.deviceLog dest

theorem effect_load {i : Instr} {s t : State} {r : RegNum} {va : Word} {w : Width} (dest : destOf i = some r)
    (h : loadInto r va w s = .next t) : Effect i s t := by
  rcases Access.finish_next h with ⟨p, hp, h⟩ | ⟨e, -, rfl⟩
  · obtain ⟨log, hs⟩ := memRead_eq_ok hp
    simp only [writeAndAdvance, Host.Outcome.next.injEq, hs] at h
    subst h
    exact .write _ _ _ log dest
  · exact .trap e

theorem effect_store {i : Instr} {s t : State} {va : Word} {w : Width} {v : Word} (st : isStore i = true)
    (h : storeFrom va w v s = .next t) : Effect i s t := by
  rcases Access.finish_next h with ⟨u, hu, h⟩ | ⟨e, -, rfl⟩
  · simp only [Host.Outcome.next.injEq] at h
    subst h
    obtain ⟨p, -, ⟨log, rfl⟩ | ⟨-, rfl⟩⟩ := memWrite_eq_ok hu
    · exact .goto _ log
    · exact .store st _ _ _
  · exact .trap e

theorem effect_branch {i : Instr} {s t : State} {b : Bool} {imm : BitVec 21} (h : branchIf b imm s = .next t) :
    Effect i s t := by
  simp only [branchIf, Host.Outcome.next.injEq] at h
  subst h
  exact .goto _ s.deviceLog

theorem privileged_next {s t : State} {k : Result} (h : privileged s k = .next t) :
    s.bitU = true ∧ t = takeException (.plain .prv) s ∨ s.bitU = false ∧ k = .next t := by
  unfold privileged at h
  split at h
  · simp only [Host.Outcome.next.injEq] at h
    exact .inl ⟨‹_›, h.symm⟩
  · rename_i k
    exact .inr ⟨by simpa using k, h⟩

/-- Everything an instruction can do. -/
theorem exec_effect {i : Instr} {s t : State} (h : exec i s = .next t) : Effect i s t := by
  cases i <;> simp only [exec] at h
  case j imm =>
    simp only [execJ, Host.Outcome.next.injEq] at h
    subst h
    exact .goto _ s.deviceLog
  case jal imm =>
    simp only [execJal, Host.Outcome.next.injEq] at h
    subst h
    exact .write _ _ _ s.deviceLog rfl
  case jalr ra rb imm =>
    simp only [execJalr, Host.Outcome.next.injEq] at h
    subst h
    exact .write _ _ _ s.deviceLog rfl
  case beq => exact effect_branch h
  case bne => exact effect_branch h
  case blt => exact effect_branch h
  case bgt => exact effect_branch h
  case ble => exact effect_branch h
  case bge => exact effect_branch h
  case bpe => exact effect_branch h
  case bpo => exact effect_branch h
  case loadByte => exact effect_load rfl h
  case loadInt => exact effect_load rfl h
  case loadLong => exact effect_load rfl h
  case loadByteX => exact effect_load rfl h
  case loadIntX => exact effect_load rfl h
  case loadLongX => exact effect_load rfl h
  case storeByte => exact effect_store rfl h
  case storeInt => exact effect_store rfl h
  case storeLong => exact effect_store rfl h
  case storeByteSmall => exact effect_store rfl h
  case storeIntSmall => exact effect_store rfl h
  case storeLongSmall => exact effect_store rfl h
  case storeByteX => exact effect_store rfl h
  case storeIntX => exact effect_store rfl h
  case storeLongX => exact effect_store rfl h
  case ll ra rb =>
    rcases Access.finish_next h with ⟨p, -, h⟩ | ⟨e, -, rfl⟩
    · rcases Access.finish_next h with ⟨v, hv, h⟩ | ⟨e, -, rfl⟩
      · obtain ⟨log, hs⟩ := physRead_eq_ok hv
        simp only [writeAndAdvance, Host.Outcome.next.injEq, hs] at h
        subst h
        exact .link _ _ _ log ⟨_, _, rfl⟩ rfl
      · exact .trap e
    · exact .trap e
  case sc ra rb rc =>
    unfold execSc at h
    split at h
    · rcases Access.finish_next h with ⟨u, hu, h⟩ | ⟨e, -, rfl⟩
      · simp only [writeAndAdvance, Host.Outcome.next.injEq] at h
        subst h
        obtain ⟨p, -, ⟨log, rfl⟩ | ⟨-, rfl⟩⟩ := memWrite_eq_ok hu
        · exact .write _ _ _ log rfl
        · exact .storeWrite rfl _ _ _ _ _ rfl
      · exact .trap e
    · exact effect_write rfl h
  case pause =>
    simp only [execPause, Host.Outcome.next.injEq] at h
    subst h
    exact .goto _ s.deviceLog
  case mb =>
    simp only [execMb, Host.Outcome.next.injEq] at h
    subst h
    exact .goto _ s.deviceLog
  case wmb =>
    simp only [execWmb, Host.Outcome.next.injEq] at h
    subst h
    exact .goto _ s.deviceLog
  case brk =>
    simp only [execBrk, Host.Outcome.next.injEq] at h
    subst h
    exact .trap _
  case sys =>
    simp only [execSys, Host.Outcome.next.injEq] at h
    subst h
    exact .trap _
  case mfcr ra cr =>
    rcases privileged_next h with ⟨-, rfl⟩ | ⟨k, h⟩
    · exact .trap _
    · split at h
      · simp only [Host.Outcome.next.injEq] at h
        subst h
        exact .readControl k _ _ ⟨_, rfl⟩
      · cases h
  case mtcr cr rb =>
    rcases privileged_next h with ⟨-, rfl⟩ | ⟨k, h⟩
    · exact .trap _
    · split at h
      · rename_i c hc
        rcases Access.finish_next h with ⟨u, hu, h⟩ | ⟨e, -, rfl⟩
        · simp only [Host.Outcome.next.injEq] at h
          subst h
          exact .writeControl k cr rb rfl c hc u hu
        · exact .trap e
      · cases h
  case hlt =>
    rcases privileged_next h with ⟨-, rfl⟩ | ⟨k, h⟩
    · exact .trap _
    · simp only [Host.Outcome.next.injEq] at h
      subst h
      exact .halt k rfl
  case rfe =>
    rcases privileged_next h with ⟨-, rfl⟩ | ⟨k, h⟩
    · exact .trap _
    · simp only [Host.Outcome.next.injEq] at h
      subst h
      exact .ret k rfl
  all_goals exact effect_write rfl h

/-! ### Control register writes -/

/-- Everything a write of a control register can answer, register by register. -/
theorem writeControl_eq_ok {c : CtrlReg} {v : Word} {s u : State} (h : writeControl c v s = .ok u) :
    (c = .rs ∧ u = s.setRs (rsWritten s.fresh v)) ∨
    (∃ b, c = .tbPte b ∧ u = insertEntry b v s) ∨
    (c = .tbCtrl .itb ∧ ∃ tb, tbCommand s.pteLayout s.itb v = .ok tb ∧ u = { s with itb := tb }) ∨
    (c = .tbCtrl .dtb ∧ ∃ tb, tbCommand s.pteLayout s.dtb v = .ok tb ∧ u = { s with dtb := tb }) ∨
    (c = .cacheCtrl .itb ∧ ∃ l, cacheCommand s.icacheStale v = .ok l ∧ u = { s with icacheStale := l }) ∨
    (c = .cacheCtrl .dtb ∧ ∃ l, cacheCommand s.dcacheStale v = .ok l ∧ u = { s with dcacheStale := l }) ∨
    (∃ eb epc ebadaddr tbmissaddr tbpc scratch0 scratch1 scratch2 scratch3 scratch4 itbTag dtbTag itbIndex dtbIndex
        itbAddr dtbAddr,
      u = { s with
        eb := eb, epc := epc, ebadaddr := ebadaddr, tbmissaddr := tbmissaddr, tbpc := tbpc, scratch0 := scratch0,
        scratch1 := scratch1, scratch2 := scratch2, scratch3 := scratch3, scratch4 := scratch4, itbTag := itbTag,
        dtbTag := dtbTag, itbIndex := itbIndex, dtbIndex := dtbIndex, itbAddr := itbAddr, dtbAddr := dtbAddr }) := by
  have plain : ∀ {w : State}, Access.ok w = Access.ok u → w = u := fun e => by injection e
  cases c with
  | rs => exact .inl ⟨rfl, (plain h).symm⟩
  | whami => cases h
  | tbPte b => exact .inr (.inl ⟨b, rfl, (plain h).symm⟩)
  | tbCtrl b =>
    cases b
    · obtain ⟨tb, ht, h⟩ := Access.bind_eq_ok h
      exact .inr (.inr (.inl ⟨rfl, tb, ht, (plain h).symm⟩))
    · obtain ⟨tb, ht, h⟩ := Access.bind_eq_ok h
      exact .inr (.inr (.inr (.inl ⟨rfl, tb, ht, (plain h).symm⟩)))
  | cacheCtrl b =>
    cases b
    · obtain ⟨l, hl, h⟩ := Access.bind_eq_ok h
      exact .inr (.inr (.inr (.inr (.inl ⟨rfl, l, hl, (plain h).symm⟩))))
    · obtain ⟨l, hl, h⟩ := Access.bind_eq_ok h
      exact .inr (.inr (.inr (.inr (.inr (.inl ⟨rfl, l, hl, (plain h).symm⟩)))))
  | tbTag b =>
    refine .inr (.inr (.inr (.inr (.inr (.inr ?_)))))
    cases b <;> exact ⟨_, _, _, _, _, _, _, _, _, _, _, _, _, _, _, _, (plain h).symm⟩
  | tbIndex b =>
    refine .inr (.inr (.inr (.inr (.inr (.inr ?_)))))
    cases b <;> exact ⟨_, _, _, _, _, _, _, _, _, _, _, _, _, _, _, _, (plain h).symm⟩
  | tbAddr b =>
    refine .inr (.inr (.inr (.inr (.inr (.inr ?_)))))
    cases b <;> exact ⟨_, _, _, _, _, _, _, _, _, _, _, _, _, _, _, _, (plain h).symm⟩
  | _ =>
    exact .inr (.inr (.inr (.inr (.inr (.inr
      ⟨_, _, _, _, _, _, _, _, _, _, _, _, _, _, _, _, (plain h).symm⟩)))))

/-- A control register write raises no exception. -/
theorem writeControl_ne_trap (c : CtrlReg) (v : Word) (s : State) (e : Exc) : writeControl c v s ≠ .trap e := by
  intro h
  cases c with
  | tbTag b => cases b <;> cases h
  | tbIndex b => cases b <;> cases h
  | tbAddr b => cases b <;> cases h
  | tbCtrl b =>
    cases b <;> simp only [writeControl, commandTb] at h
    · rcases tbCommand_cases s.pteLayout s.itb v with ⟨p, hp⟩ | hp <;> rw [hp] at h <;> cases h
    · rcases tbCommand_cases s.pteLayout s.dtb v with ⟨p, hp⟩ | hp <;> rw [hp] at h <;> cases h
  | cacheCtrl b =>
    cases b <;> simp only [writeControl, commandCache] at h
    · rcases cacheCommand_cases s.icacheStale v with ⟨l, hl, -⟩ | hl | hl <;> rw [hl] at h <;> cases h
    · rcases cacheCommand_cases s.dcacheStale v with ⟨l, hl, -⟩ | hl | hl <;> rw [hl] at h <;> cases h
  | _ => cases h

/-- What a control register write leaves: memory, the pc, the reservation, the platform, WHAMI, and every stored register
but number 0. -/
theorem writeControl_frame {c : CtrlReg} {v : Word} {s u : State} (h : writeControl c v s = .ok u) :
    u.mem = s.mem ∧ u.pc = s.pc ∧ u.whami = s.whami ∧ u.locked = s.locked ∧ u.lockedAddr = s.lockedAddr ∧
      u.regions = s.regions ∧ u.pteLayout = s.pteLayout ∧ u.halted = s.halted ∧ u.missWasWrite = s.missWasWrite ∧
      u.intLine = s.intLine ∧ u.nmiPending = s.nmiPending ∧ u.inputs = s.inputs ∧ u.deviceLog = s.deviceLog ∧ u.fresh = s.fresh ∧
      ∀ (i : Nat) (hi : i < 32), i ≠ 0 → u.regs[i] = s.regs[i] := by
  rcases writeControl_eq_ok h with ⟨-, rfl⟩ | ⟨b, -, rfl⟩ | ⟨-, _, -, rfl⟩ | ⟨-, _, -, rfl⟩ | ⟨-, _, -, rfl⟩ |
    ⟨-, _, -, rfl⟩ | ⟨_, _, _, _, _, _, _, _, _, _, _, _, _, _, _, _, rfl⟩
  · exact ⟨rfl, rfl, rfl, rfl, rfl, rfl, rfl, rfl, rfl, rfl, rfl, rfl, rfl, rfl, fun i hi h0 => regs_setRs_other _ _ _ hi h0⟩
  · cases b <;> exact ⟨rfl, rfl, rfl, rfl, rfl, rfl, rfl, rfl, rfl, rfl, rfl, rfl, rfl, rfl, fun _ _ _ => rfl⟩
  all_goals exact ⟨rfl, rfl, rfl, rfl, rfl, rfl, rfl, rfl, rfl, rfl, rfl, rfl, rfl, rfl, fun _ _ _ => rfl⟩

/-- A TB command that answers leaves some of the entries used. -/
theorem tbCommand_eq_ok {l : PteLayout} {tb : Tb} {v : Word} {r : Tb} (h : tbCommand l tb v = .ok r) :
    ∃ p : TbSlot → Bool, r = tb.filter p := by
  rcases tbCommand_cases l tb v with ⟨p, hp⟩ | hp
  · rw [hp] at h
    injection h with h
    exact ⟨p, h.symm⟩
  · rw [hp] at h
    cases h

/-- A control register write keeps both TBs in their canonical form. -/
theorem writeControl_tb_wf {c : CtrlReg} {v : Word} {s u : State} (h : writeControl c v s = .ok u)
    (hi : s.itb.wf Config.itbSize) (hd : s.dtb.wf Config.dtbSize) :
    u.itb.wf Config.itbSize ∧ u.dtb.wf Config.dtbSize := by
  rcases writeControl_eq_ok h with ⟨-, rfl⟩ | ⟨b, -, rfl⟩ | ⟨-, tb, ht, rfl⟩ | ⟨-, tb, ht, rfl⟩ | ⟨-, _, -, rfl⟩ |
    ⟨-, _, -, rfl⟩ | ⟨_, _, _, _, _, _, _, _, _, _, _, _, _, _, _, _, rfl⟩
  · exact ⟨hi, hd⟩
  · cases b
    · exact ⟨insertion_wf _ _ _ _ _ hi, hd⟩
    · exact ⟨hi, insertion_wf _ _ _ _ _ hd⟩
  · obtain ⟨p, rfl⟩ := tbCommand_eq_ok ht
    exact ⟨Tb.filter_wf _ _ _ hi, hd⟩
  · obtain ⟨p, rfl⟩ := tbCommand_eq_ok ht
    exact ⟨hi, Tb.filter_wf _ _ _ hd⟩
  all_goals exact ⟨hi, hd⟩

end Sys2Proof.Machine
end

