-- ==== Sys2Proof/Laws/PerInstr.lean ====
section
/-! SUPPORT. Per instruction: the low three bits of its word select its format (spec/30_encoding.md R151). -/

namespace Sys2Proof.Laws.Format

/-- The low three bits R151 gives the instruction's format and group. -/
def bits : Instr → BitVec 3
  -- jump format, JAL
  | .jal _ => 7
  -- jump format, J
  | .j _ => 6
  -- branch format
  | .beq _ _ | .bne _ _ | .blt _ _ | .bgt _ _ | .ble _ _ | .bge _ _ | .bpe _ _ | .bpo _ _ => 5
  -- immediate operate, arithmetic and logic
  | .addi _ _ _ | .subi _ _ _ | .slti _ _ _ | .sltiSigned _ _ _ | .andi _ _ _ | .xori _ _ _
  | .ori _ _ _ | .lui _ _ _ => 4
  -- immediate operate, loads
  | .loadByte _ _ _ | .loadInt _ _ _ | .loadLong _ _ _ => 3
  -- immediate operate, stores
  | .storeByte _ _ _ | .storeInt _ _ _ | .storeLong _ _ _ | .storeByteSmall _ _ _
  | .storeIntSmall _ _ _ | .storeLongSmall _ _ _ => 2
  -- immediate operate, JALR
  | .jalr _ _ _ => 0
  -- register operate
  | .loadByteX _ _ _ | .loadIntX _ _ _ | .loadLongX _ _ _ | .storeByteX _ _ _ | .storeIntX _ _ _
  | .storeLongX _ _ _ | .lsh _ _ _ | .rsh _ _ _ | .ash _ _ _ | .ror _ _ _ | .add _ _ _
  | .sub _ _ _ | .slt _ _ _ | .sltSigned _ _ _ | .and _ _ _ | .xor _ _ _ | .or _ _ _ | .nor _ _ _
  | .mul _ _ _ | .div _ _ _ | .divSigned _ _ _ | .mod _ _ _ | .ll _ _ | .sc _ _ _ | .pause | .mb
  | .wmb | .brk | .sys | .mfcr _ _ | .mtcr _ _ | .hlt | .rfe => 1

/-- The instruction's word has the low three bits of its format. -/
def Statement (i : Instr) : Prop := (encode i).extractLsb' 0 3 = bits i

theorem j (imm : BitVec 29) : Statement (.j imm) :=
  encJump_format _ _

theorem jal (imm : BitVec 29) : Statement (.jal imm) :=
  encJump_format _ _

theorem beq (ra : RegNum) (imm : BitVec 21) : Statement (.beq ra imm) :=
  (encBranch_format _ _ _).trans rfl

theorem bne (ra : RegNum) (imm : BitVec 21) : Statement (.bne ra imm) :=
  (encBranch_format _ _ _).trans rfl

theorem blt (ra : RegNum) (imm : BitVec 21) : Statement (.blt ra imm) :=
  (encBranch_format _ _ _).trans rfl

theorem bgt (ra : RegNum) (imm : BitVec 21) : Statement (.bgt ra imm) :=
  (encBranch_format _ _ _).trans rfl

theorem ble (ra : RegNum) (imm : BitVec 21) : Statement (.ble ra imm) :=
  (encBranch_format _ _ _).trans rfl

theorem bge (ra : RegNum) (imm : BitVec 21) : Statement (.bge ra imm) :=
  (encBranch_format _ _ _).trans rfl

theorem bpe (ra : RegNum) (imm : BitVec 21) : Statement (.bpe ra imm) :=
  (encBranch_format _ _ _).trans rfl

theorem bpo (ra : RegNum) (imm : BitVec 21) : Statement (.bpo ra imm) :=
  (encBranch_format _ _ _).trans rfl

theorem addi (ra : RegNum) (rb : RegNum) (imm : BitVec 16) : Statement (.addi ra rb imm) :=
  (encImm_format _ _ _ _).trans rfl

theorem subi (ra : RegNum) (rb : RegNum) (imm : BitVec 16) : Statement (.subi ra rb imm) :=
  (encImm_format _ _ _ _).trans rfl

theorem slti (ra : RegNum) (rb : RegNum) (imm : BitVec 16) : Statement (.slti ra rb imm) :=
  (encImm_format _ _ _ _).trans rfl

theorem sltiSigned (ra : RegNum) (rb : RegNum) (imm : BitVec 16) : Statement (.sltiSigned ra rb imm) :=
  (encImm_format _ _ _ _).trans rfl

theorem andi (ra : RegNum) (rb : RegNum) (imm : BitVec 16) : Statement (.andi ra rb imm) :=
  (encImm_format _ _ _ _).trans rfl

theorem xori (ra : RegNum) (rb : RegNum) (imm : BitVec 16) : Statement (.xori ra rb imm) :=
  (encImm_format _ _ _ _).trans rfl

theorem ori (ra : RegNum) (rb : RegNum) (imm : BitVec 16) : Statement (.ori ra rb imm) :=
  (encImm_format _ _ _ _).trans rfl

theorem lui (ra : RegNum) (rb : RegNum) (imm : BitVec 16) : Statement (.lui ra rb imm) :=
  (encImm_format _ _ _ _).trans rfl

theorem loadByte (ra : RegNum) (rb : RegNum) (imm : BitVec 16) : Statement (.loadByte ra rb imm) :=
  (encImm_format _ _ _ _).trans rfl

theorem loadInt (ra : RegNum) (rb : RegNum) (imm : BitVec 16) : Statement (.loadInt ra rb imm) :=
  (encImm_format _ _ _ _).trans rfl

theorem loadLong (ra : RegNum) (rb : RegNum) (imm : BitVec 16) : Statement (.loadLong ra rb imm) :=
  (encImm_format _ _ _ _).trans rfl

theorem storeByte (ra : RegNum) (rb : RegNum) (imm : BitVec 16) : Statement (.storeByte ra rb imm) :=
  (encImm_format _ _ _ _).trans rfl

theorem storeInt (ra : RegNum) (rb : RegNum) (imm : BitVec 16) : Statement (.storeInt ra rb imm) :=
  (encImm_format _ _ _ _).trans rfl

theorem storeLong (ra : RegNum) (rb : RegNum) (imm : BitVec 16) : Statement (.storeLong ra rb imm) :=
  (encImm_format _ _ _ _).trans rfl

theorem storeByteSmall (ra : RegNum) (small : BitVec 5) (imm : BitVec 16) : Statement (.storeByteSmall ra small imm) :=
  (encImm_format _ _ _ _).trans rfl

theorem storeIntSmall (ra : RegNum) (small : BitVec 5) (imm : BitVec 16) : Statement (.storeIntSmall ra small imm) :=
  (encImm_format _ _ _ _).trans rfl

theorem storeLongSmall (ra : RegNum) (small : BitVec 5) (imm : BitVec 16) : Statement (.storeLongSmall ra small imm) :=
  (encImm_format _ _ _ _).trans rfl

theorem jalr (ra : RegNum) (rb : RegNum) (imm : BitVec 16) : Statement (.jalr ra rb imm) :=
  (encImm_format _ _ _ _).trans rfl

theorem loadByteX (ra : RegNum) (rb : RegNum) (sc : ShiftedReg) : Statement (.loadByteX ra rb sc) :=
  (encReg_format _ _ _ _ _).trans rfl

theorem loadIntX (ra : RegNum) (rb : RegNum) (sc : ShiftedReg) : Statement (.loadIntX ra rb sc) :=
  (encReg_format _ _ _ _ _).trans rfl

theorem loadLongX (ra : RegNum) (rb : RegNum) (sc : ShiftedReg) : Statement (.loadLongX ra rb sc) :=
  (encReg_format _ _ _ _ _).trans rfl

theorem storeByteX (ra : RegNum) (rb : RegNum) (sc : ShiftedReg) : Statement (.storeByteX ra rb sc) :=
  (encReg_format _ _ _ _ _).trans rfl

theorem storeIntX (ra : RegNum) (rb : RegNum) (sc : ShiftedReg) : Statement (.storeIntX ra rb sc) :=
  (encReg_format _ _ _ _ _).trans rfl

theorem storeLongX (ra : RegNum) (rb : RegNum) (sc : ShiftedReg) : Statement (.storeLongX ra rb sc) :=
  (encReg_format _ _ _ _ _).trans rfl

theorem lsh (ra : RegNum) (rc : RegNum) (rb : RegNum) : Statement (.lsh ra rc rb) :=
  (encReg_format _ _ _ _ _).trans rfl

theorem rsh (ra : RegNum) (rc : RegNum) (rb : RegNum) : Statement (.rsh ra rc rb) :=
  (encReg_format _ _ _ _ _).trans rfl

theorem ash (ra : RegNum) (rc : RegNum) (rb : RegNum) : Statement (.ash ra rc rb) :=
  (encReg_format _ _ _ _ _).trans rfl

theorem ror (ra : RegNum) (rc : RegNum) (rb : RegNum) : Statement (.ror ra rc rb) :=
  (encReg_format _ _ _ _ _).trans rfl

theorem add (ra : RegNum) (rb : RegNum) (sc : ShiftedReg) : Statement (.add ra rb sc) :=
  (encReg_format _ _ _ _ _).trans rfl

theorem sub (ra : RegNum) (rb : RegNum) (sc : ShiftedReg) : Statement (.sub ra rb sc) :=
  (encReg_format _ _ _ _ _).trans rfl

theorem slt (ra : RegNum) (rb : RegNum) (sc : ShiftedReg) : Statement (.slt ra rb sc) :=
  (encReg_format _ _ _ _ _).trans rfl

theorem sltSigned (ra : RegNum) (rb : RegNum) (sc : ShiftedReg) : Statement (.sltSigned ra rb sc) :=
  (encReg_format _ _ _ _ _).trans rfl

theorem and (ra : RegNum) (rb : RegNum) (sc : ShiftedReg) : Statement (.and ra rb sc) :=
  (encReg_format _ _ _ _ _).trans rfl

theorem xor (ra : RegNum) (rb : RegNum) (sc : ShiftedReg) : Statement (.xor ra rb sc) :=
  (encReg_format _ _ _ _ _).trans rfl

theorem or (ra : RegNum) (rb : RegNum) (sc : ShiftedReg) : Statement (.or ra rb sc) :=
  (encReg_format _ _ _ _ _).trans rfl

theorem nor (ra : RegNum) (rb : RegNum) (sc : ShiftedReg) : Statement (.nor ra rb sc) :=
  (encReg_format _ _ _ _ _).trans rfl

theorem mul (ra : RegNum) (rb : RegNum) (rc : RegNum) : Statement (.mul ra rb rc) :=
  (encReg_format _ _ _ _ _).trans rfl

theorem div (ra : RegNum) (rb : RegNum) (rc : RegNum) : Statement (.div ra rb rc) :=
  (encReg_format _ _ _ _ _).trans rfl

theorem divSigned (ra : RegNum) (rb : RegNum) (rc : RegNum) : Statement (.divSigned ra rb rc) :=
  (encReg_format _ _ _ _ _).trans rfl

theorem mod (ra : RegNum) (rb : RegNum) (rc : RegNum) : Statement (.mod ra rb rc) :=
  (encReg_format _ _ _ _ _).trans rfl

theorem ll (ra : RegNum) (rb : RegNum) : Statement (.ll ra rb) :=
  (encReg_format _ _ _ _ _).trans rfl

theorem sc (ra : RegNum) (rb : RegNum) (rc : RegNum) : Statement (.sc ra rb rc) :=
  (encReg_format _ _ _ _ _).trans rfl

theorem pause : Statement .pause :=
  (encReg_format _ _ _ _ _).trans rfl

theorem mb : Statement .mb :=
  (encReg_format _ _ _ _ _).trans rfl

theorem wmb : Statement .wmb :=
  (encReg_format _ _ _ _ _).trans rfl

theorem brk : Statement .brk :=
  (encReg_format _ _ _ _ _).trans rfl

theorem sys : Statement .sys :=
  (encReg_format _ _ _ _ _).trans rfl

theorem mfcr (ra : RegNum) (cr : CrNum) : Statement (.mfcr ra cr) :=
  (encReg_format _ _ _ _ _).trans rfl

theorem mtcr (cr : CrNum) (rb : RegNum) : Statement (.mtcr cr rb) :=
  (encReg_format _ _ _ _ _).trans rfl

theorem hlt : Statement .hlt :=
  (encReg_format _ _ _ _ _).trans rfl

theorem rfe : Statement .rfe :=
  (encReg_format _ _ _ _ _).trans rfl

end Sys2Proof.Laws.Format
end

