-- ==== Sys2Proof/Laws/Step.lean ====
section
/-! SUPPORT. One step: what the environment's moves, an interrupt, a halt and an instruction can do
(spec/60_exceptions.md R353, R354; spec/00_scope.md R7). -/

namespace Sys2Proof.Machine

/-! ### Stores, by this processor or another agent -/

@[simp] theorem storeBytes_mem (s : State) (a : Nat) (w : Width) (v : Word) :
    (s.storeBytes a w v).mem = s.mem.writeLE a w v := rfl
@[simp] theorem ownStore_mem (s : State) (a : Nat) (w : Width) (v : Word) :
    (s.ownStore a w v).mem = s.mem.writeLE a w v := rfl

theorem holdsLE_readLE (m : Memory) (a : Nat) (w : Width) : HoldsLE m a w (m.readLE a w) :=
  fun k hk => (readLE_toNat_byte m a w k hk).symm

theorem holdsLE_writeLE {m : Memory} (h : m.wf) (a : Nat) (w : Width) (v : Word) : HoldsLE (m.writeLE a w v) a w v := by
  intro k hk
  rw [Memory.read_writeLE_at h a w v k hk, extract_byte_toNat]

/-- What a cache that does not follow a store keeps (20_memory R121, R128). -/
theorem keepsOldWord_noteStale (a : Nat) (m n : Memory) (copies : List StaleCopy) :
    KeepsOldWord a m n copies
      (noteStale copies a (m.readLE (wordBase a) .long) (n.readLE (wordBase a) .long)) := by
  refine ⟨fun c hc => (mem_noteStale _ _ _ _ _).mpr (.inl hc), fun c hc => ?_, ?_⟩
  · rcases (mem_noteStale _ _ _ _ _).mp hc with hc | ⟨-, rfl⟩
    · exact .inl hc
    · exact .inr ⟨rfl, holdsLE_readLE _ _ _⟩
  · rintro ⟨k, hk, differ⟩
    refine ⟨_, (mem_noteStale _ _ _ _ _).mpr (.inr ⟨fun e => differ ?_, rfl⟩), rfl, holdsLE_readLE _ _ _⟩
    have old := holdsLE_readLE m (wordBase a) .long k hk
    have new := holdsLE_readLE n (wordBase a) .long k hk
    rw [← e] at new
    exact BitVec.eq_of_toNat_eq (new.trans old.symm)

/-- What a store makes of the copies in a cache that follows it (20_memory R127, R130a). -/
theorem followsStore_storeIntoStale (a : Nat) (w : Width) (v : Word) (copies : List StaleCopy) :
    List.Forall₂ (FollowsStore a w v) copies (storeIntoStale copies a w v) := by
  unfold storeIntoStale
  rw [List.forall₂_map_right_iff, List.forall₂_same]
  intro c _
  by_cases h : c.addr = wordBase a
  · rw [if_pos h]
    refine ⟨rfl, fun ne => absurd h ne, fun _ k hk => ?_⟩
    have e : a / 4 * 4 + k - a = k - a % 4 := by omega
    simp only [byteOf]
    rw [← extract_byte_toNat, putLane_byte _ _ _ _ _ hk, e, ← extract_byte_toNat, ← extract_byte_toNat]
    split_ifs <;> first | rfl | (exfalso; omega)
  · rw [if_neg h]
    exact ⟨rfl, fun _ => rfl, fun eq => absurd eq h⟩

/-- Everything a processor's store does to memory and the caches (20_memory R81, R89, R121, R130a). -/
theorem storesBytes_ownStore {s : State} (h : s.mem.wf) (a : Nat) (w : Width) (v : Word) :
    StoresBytes a w v s (s.ownStore a w v) :=
  ⟨holdsLE_writeLE h a w v, fun b hb => Memory.read_writeLE_other _ _ _ _ b hb, keepsOldWord_noteStale _ _ _ _,
    followsStore_storeIntoStale _ _ _ _⟩

/-! ### The invariant -/

/-- The invariant speaks of memory and the TBs only. -/
theorem Inv_of_same {s t : State} (h : Inv s) (m : t.mem = s.mem) (i : t.itb = s.itb) (d : t.dtb = s.dtb) : Inv t := by
  unfold Inv
  rw [m, i, d]
  exact h

theorem Inv_takeException {s : State} (h : Inv s) (e : Exc) : Inv (takeException e s) :=
  Inv_of_same h (by simp) (by simp) (by simp)

theorem Inv_ownStore {s : State} (h : Inv s) (a : Nat) (w : Width) (v : Word) : Inv (s.ownStore a w v) :=
  ⟨Memory.writeLE_wf h.1 a w v, h.2⟩

theorem Inv_applyMove {s : State} (h : Inv s) (m : EnvMove) : Inv (applyMove m s) := by
  cases m with
  | interruptLine l => exact h
  | nmi => exact h
  | reset => exact ⟨h.1, Tb.ofFree_wf _ _, Tb.ofFree_wf _ _⟩
  | processorStore pa w v =>
    simp only [applyMove, otherProcessorStore]
    split
    · exact ⟨Memory.writeLE_wf h.1 _ w v, h.2⟩
    · exact h
  | deviceStore pa w v =>
    simp only [applyMove, deviceWrite, State.deviceBytes]
    split
    · split
      · exact Inv_ownStore h _ w v
      · exact ⟨Memory.writeLE_wf h.1 _ w v, h.2⟩
    · exact h

theorem Inv_applyMoves {s : State} (h : Inv s) (l : List EnvMove) : Inv (applyMoves l s) := by
  induction l generalizing s with
  | nil => exact h
  | cons m rest ih => exact ih (Inv_applyMove h m)

theorem Inv_beginStep {s : State} (h : Inv s) : Inv (beginStep s) := by
  unfold beginStep
  split
  · exact h
  · refine Inv_applyMoves ?_ _
    exact h

/-! ### The outcomes of a step -/

/-- Everything a step can do, after the environment's moves. -/
theorem step_cases {s t : State} (h : step s = .next t) :
    (nmiDeliverable (beginStep s) = true ∧ t = takeNmi (beginStep s)) ∨
    (nmiDeliverable (beginStep s) = false ∧ intDeliverable (beginStep s) = true ∧ t = takeInt (beginStep s)) ∨
    (nmiDeliverable (beginStep s) = false ∧ intDeliverable (beginStep s) = false ∧ (beginStep s).halted = true ∧
      t = tickNmi (beginStep s)) ∨
    (nmiDeliverable (beginStep s) = false ∧ intDeliverable (beginStep s) = false ∧ (beginStep s).halted = false ∧
      runInstruction (tickNmi (beginStep s)) = .next t) := by
  have next : ∀ {u : State}, (Host.Outcome.next u : Result) = .next t → t = u := fun e => by injection e with e; exact e.symm
  unfold step at h
  simp only at h
  split at h
  · exact .inl ⟨‹_›, next h⟩
  · rename_i h1
    rw [Bool.not_eq_true] at h1
    split at h
    · exact .inr (.inl ⟨h1, ‹_›, next h⟩)
    · rename_i h2
      rw [Bool.not_eq_true] at h2
      split at h
      · exact .inr (.inr (.inl ⟨h1, h2, ‹_›, next h⟩))
      · rename_i h3
        rw [Bool.not_eq_true] at h3
        exact .inr (.inr (.inr ⟨h1, h2, h3, h⟩))

/-- Everything a fetch can answer leaves the state but the record of device accesses. -/
theorem fetchWord_eq_ok {s : State} {r : Word × State} (h : fetchWord s = .ok r) :
    ∃ log, r.2 = { s with deviceLog := log } := by
  obtain ⟨p, -, h⟩ := Access.bind_eq_ok h
  exact physFetch_eq_ok h

/-- Everything running an instruction can do: the exception of its fetch or decoding, or the instruction's effect, in the
state the fetch leaves. -/
theorem runInstruction_cases {s t : State} (h : runInstruction s = .next t) :
    ∃ log, (∃ e, t = takeException e { s with deviceLog := log }) ∨
      ∃ i, fetchInstr s = .ok i ∧ exec i { s with deviceLog := log } = .next t := by
  rcases Access.finish_next h with ⟨⟨w, u⟩, hw, h⟩ | ⟨e, -, rfl⟩
  · obtain ⟨log, rfl⟩ := fetchWord_eq_ok hw
    refine ⟨log, ?_⟩
    rcases Access.finish_next h with ⟨i, hi, h⟩ | ⟨e, -, rfl⟩
    · exact .inr ⟨i, by rw [fetchInstr, hw]; exact hi, h⟩
    · exact .inl ⟨e, rfl⟩
  · exact ⟨s.deviceLog, .inl ⟨e, rfl⟩⟩

/-! ### Without moves of the environment -/

theorem beginStep_nil {s : State} (h : s.inputs = []) : beginStep s = { s with fresh := s.fresh + 1 } := by
  unfold beginStep
  rw [h]

/-- A step in which no interrupt is taken and the processor is not halted runs an instruction. -/
theorem step_run {s : State} (h : s.inputs = []) (nmi : nmiDeliverable s = false) (int : intDeliverable s = false)
    (halt : s.halted = false) :
    step s = runInstruction { s with fresh := s.fresh + 1, nmiMask := s.nmiMask - 1 } := by
  have n : nmiDeliverable { s with fresh := s.fresh + 1 } = false := nmi
  have i : intDeliverable { s with fresh := s.fresh + 1 } = false := int
  simp only [step, beginStep_nil h]
  rw [if_neg (by rw [n]; decide), if_neg (by rw [i]; decide), if_neg (by rw [halt]; decide)]
  rfl

end Sys2Proof.Machine
end

