-- ==== Sys2Proof/Tests/Slice0.lean ====
section
/-! SUPPORT. Tests. Words and expected results come from spec/95_test_vectors.md and from the tables of
spec/30_encoding.md; the last part shows, for every statement with hypotheses, a state and operands that meet them. -/

namespace Sys2Proof.Tests
open Sys2Proof.Machine

/-! ## Ill-formed instructions -/

theorem test_wf_refuses_mfcr_of_an_absent_register : Instr.wellFormed (.mfcr 1 8) = false := by decide
theorem test_wf_refuses_mtcr_to_an_absent_register : Instr.wellFormed (.mtcr 31 1) = false := by decide
theorem test_wf_refuses_mtcr_to_whami : Instr.wellFormed (.mtcr 1 1) = false := by decide
theorem test_wf_refuses_jalr_through_its_link : Instr.wellFormed (.jalr 31 31 0xFFFF) = false := by decide
theorem test_wf_accepts_jalr_that_discards_its_link : Instr.wellFormed (.jalr 0 0 1) = true := by decide

/-! ## One word of every instruction (95_test_vectors) -/

theorem test_decode_j : decode 0xFFFFFFFE = .ok (.j 0x1FFFFFFF) := by decide
theorem test_decode_jal : decode 0x00002027 = .ok (.jal 0x404) := by decide
theorem test_decode_beq : decode 0xFFFFF83D = .ok (.beq 0 0x1FFFFF) := by decide
theorem test_decode_bne : decode 0xFFFFF075 = .ok (.bne 1 0x1FFFFE) := by decide
theorem test_decode_blt : decode 0x0000206D = .ok (.blt 1 4) := by decide
theorem test_decode_bgt : decode 0x00002065 = .ok (.bgt 1 4) := by decide
theorem test_decode_ble : decode 0x0000205D = .ok (.ble 1 4) := by decide
theorem test_decode_bge : decode 0x00002055 = .ok (.bge 1 4) := by decide
theorem test_decode_bpe : decode 0x0000204D = .ok (.bpe 1 4) := by decide
theorem test_decode_bpo : decode 0x00002045 = .ok (.bpo 1 4) := by decide
theorem test_decode_addi : decode 0xFFFF08BC = .ok (.addi 2 1 0xFFFF) := by decide
theorem test_decode_subi : decode 0x000108B4 = .ok (.subi 2 1 1) := by decide
theorem test_decode_slti : decode 0x000608AC = .ok (.slti 2 1 6) := by decide
theorem test_decode_slti_signed : decode 0x800008A4 = .ok (.sltiSigned 2 1 0x8000) := by decide
theorem test_decode_andi : decode 0xF0F0089C = .ok (.andi 2 1 0xF0F0) := by decide
theorem test_decode_xori : decode 0xFFFF0894 = .ok (.xori 2 1 0xFFFF) := by decide
theorem test_decode_ori : decode 0x5678088C = .ok (.ori 2 1 0x5678) := by decide
theorem test_decode_lui : decode 0x12340884 = .ok (.lui 2 1 0x1234) := by decide
theorem test_decode_load_byte : decode 0x000308BB = .ok (.loadByte 2 1 3) := by decide
theorem test_decode_load_int : decode 0x000308B3 = .ok (.loadInt 2 1 3) := by decide
theorem test_decode_load_long : decode 0x159E10AB = .ok (.loadLong 2 2 0x159E) := by decide
theorem test_decode_store_byte : decode 0x0001107A = .ok (.storeByte 1 2 1) := by decide
theorem test_decode_store_int : decode 0x00011072 = .ok (.storeInt 1 2 1) := by decide
theorem test_decode_store_long : decode 0x159E106A = .ok (.storeLong 1 2 0x159E) := by decide
theorem test_decode_store_byte_small : decode 0x0003F85A = .ok (.storeByteSmall 1 0x1F 3) := by decide
theorem test_decode_store_int_small : decode 0x00018052 = .ok (.storeIntSmall 1 0x10 1) := by decide
theorem test_decode_store_long_small : decode 0x0001784A = .ok (.storeLongSmall 1 0xF 1) := by decide
theorem test_decode_jalr : decode 0xFFFF0FF8 = .ok (.jalr 31 1 0xFFFF) := by decide
theorem test_decode_load_byte_x : decode 0xF00208F9 = .ok (.loadByteX 3 1 ⟨2, .lsh, 0⟩) := by decide
theorem test_decode_load_int_x : decode 0xE02208F9 = .ok (.loadIntX 3 1 ⟨2, .lsh, 1⟩) := by decide
theorem test_decode_load_long_x : decode 0xD44208F9 = .ok (.loadLongX 3 1 ⟨2, .rsh, 2⟩) := by decide
theorem test_decode_store_byte_x : decode 0xB00208F9 = .ok (.storeByteX 3 1 ⟨2, .lsh, 0⟩) := by decide
theorem test_decode_store_int_x : decode 0xA02208F9 = .ok (.storeIntX 3 1 ⟨2, .lsh, 1⟩) := by decide
theorem test_decode_store_long_x : decode 0x906208F9 = .ok (.storeLongX 3 1 ⟨2, .lsh, 3⟩) := by decide
theorem test_decode_lsh : decode 0x800208F9 = .ok (.lsh 3 2 1) := by decide
theorem test_decode_rsh : decode 0x840208F9 = .ok (.rsh 3 2 1) := by decide
theorem test_decode_ash : decode 0x880208F9 = .ok (.ash 3 2 1) := by decide
theorem test_decode_ror : decode 0x8C0208F9 = .ok (.ror 3 2 1) := by decide
theorem test_decode_add : decode 0x7D0208F9 = .ok (.add 3 1 ⟨2, .ror, 8⟩) := by decide
theorem test_decode_sub : decode 0x602208F9 = .ok (.sub 3 1 ⟨2, .lsh, 1⟩) := by decide
theorem test_decode_slt : decode 0x500208F9 = .ok (.slt 3 1 ⟨2, .lsh, 0⟩) := by decide
theorem test_decode_slt_signed : decode 0x400208F9 = .ok (.sltSigned 3 1 ⟨2, .lsh, 0⟩) := by decide
theorem test_decode_and : decode 0x300208F9 = .ok (.and 3 1 ⟨2, .lsh, 0⟩) := by decide
theorem test_decode_xor : decode 0x200208F9 = .ok (.xor 3 1 ⟨2, .lsh, 0⟩) := by decide
theorem test_decode_or : decode 0x100208F9 = .ok (.or 3 1 ⟨2, .lsh, 0⟩) := by decide
theorem test_decode_nor : decode 0x000208F9 = .ok (.nor 3 1 ⟨2, .lsh, 0⟩) := by decide
theorem test_decode_mul : decode 0xF00208F1 = .ok (.mul 3 1 2) := by decide
theorem test_decode_div : decode 0xD00208F1 = .ok (.div 3 1 2) := by decide
theorem test_decode_div_signed : decode 0xC00208F1 = .ok (.divSigned 3 1 2) := by decide
theorem test_decode_mod : decode 0xB00208F1 = .ok (.mod 3 1 2) := by decide
theorem test_decode_ll : decode 0x900008B1 = .ok (.ll 2 1) := by decide
theorem test_decode_sc : decode 0x800208F1 = .ok (.sc 3 1 2) := by decide
theorem test_decode_pause : decode 0x60000031 = .ok (.pause) := by decide
theorem test_decode_mb : decode 0x30000031 = .ok (.mb) := by decide
theorem test_decode_wmb : decode 0x20000031 = .ok (.wmb) := by decide
theorem test_decode_brk : decode 0x10000031 = .ok (.brk) := by decide
theorem test_decode_sys : decode 0x00000031 = .ok (.sys) := by decide
theorem test_decode_mfcr : decode 0xF01D0029 = .ok (.mfcr 0 29) := by decide
theorem test_decode_mtcr : decode 0xE01B0829 = .ok (.mtcr 27 1) := by decide
theorem test_decode_hlt : decode 0xC0000029 = .ok (.hlt) := by decide
theorem test_decode_rfe : decode 0xB0000029 = .ok (.rfe) := by decide

theorem test_decode_all_zeroes : decode 0 = .error (.unassignedOpcode 0) := by decide
theorem test_decode_store_without_a_number : decode 0xC00208F9 = .error (.unassignedFunct39 0xC) := by decide
theorem test_decode_unassigned_31 : decode 0x70000031 = .error (.unassignedFunct31 7) := by decide
theorem test_decode_unassigned_29 : decode 0x00000029 = .error (.unassignedFunct29 0) := by decide
theorem test_decode_table_word : decodeTableWord 32 0x12340044 = some (.lui 1 0 0x1234) := by decide

/-! ## Steps -/

/-- The start state of the vectors: kernel mode, pc 0x1000, EB 0x10000. -/
def start : State := { State.reset with pc := 0x1000, eb := 0x10000 }

/-- With general registers. -/
def regs (l : List (RegNum × Word)) (s : State) : State :=
  l.foldl (fun s p => { s with regs := s.regs.set p.1.toNat p.2 p.1.isLt }) s

/-- With words of memory. -/
def words (l : List (Nat × Word)) (s : State) : State :=
  l.foldl (fun s p => { s with mem := s.mem.writeLE p.1 .long p.2 }) s

/-- With RS. -/
def status (rs : Word) (s : State) : State := { s with rs := rs }

/-- What the state after one step of a word shows. -/
def after {α : Type} (w : Nat) (s : State) (look : State → α) : Option α :=
  match step (s.withFetchWord 32 w) with
  | .next t => some (look t)
  | .fault _ => none
  | .refused _ => none

/-- A register. -/
def reg (r : RegNum) (s : State) : Word := s.readReg r

/-- A word of memory. -/
def word (a : Nat) (s : State) : Word := s.mem.readLE a .long

/-- pc, RS, EPC and EBADADDR. -/
def entry (s : State) : Word × Word × Word × Word := (s.pc, s.rs, s.epc, s.ebadaddr)

theorem test_j_keeps_the_upper_half :
    after 0x00002006 ({ start with pc := 0x80000040 }) State.pc = some 0x80001000 := by decide
theorem test_jal_wraps_the_link :
    after 0x00000007 ({ start with pc := 0xFFFFFFFC }) (fun s => (s.pc, reg 31 s)) = some (0x80000000, 0) := by decide
theorem test_beq_zero :
    after 0x0000207D (regs [(1, 0)] start) State.pc = some 0x1010 := by decide
theorem test_bne_zero :
    after 0x00002075 (regs [(1, 0)] start) State.pc = some 0x1004 := by decide
theorem test_blt_most_negative :
    after 0x0000206D (regs [(1, 0x80000000)] start) State.pc = some 0x1010 := by decide
theorem test_bgt_zero :
    after 0x00002065 (regs [(1, 0)] start) State.pc = some 0x1004 := by decide
theorem test_ble_zero :
    after 0x0000205D (regs [(1, 0)] start) State.pc = some 0x1010 := by decide
theorem test_bge_minus_one :
    after 0x00002055 (regs [(1, 0xFFFFFFFF)] start) State.pc = some 0x1004 := by decide
theorem test_bpe_minus_one :
    after 0x0000204D (regs [(1, 0xFFFFFFFF)] start) State.pc = some 0x1004 := by decide
theorem test_bpo_most_negative :
    after 0x00002045 (regs [(1, 0x80000000)] start) State.pc = some 0x1004 := by decide
theorem test_blt_zero :
    after 0x0000206D (regs [(1, 0)] start) State.pc = some 0x1004 := by decide
theorem test_bgt_largest :
    after 0x00002065 (regs [(1, 0x7FFFFFFF)] start) State.pc = some 0x1010 := by decide
theorem test_beq_most_negative_offset :
    after 0x8000003D ({ start with pc := 0x400000 }) State.pc = some 0 := by decide
theorem test_beq_of_a_real_register_zero :
    after 0x0000203D (regs [(0, 12)] (status 8 { start with nmiMask := 0 })) State.pc = some 0x1004 := by decide
theorem test_addi_no_sign :
    after 0xFFFF08BC (regs [(1, 0x7FFFFFFF)] start) (reg 2) = some 0x8000FFFE := by decide
theorem test_subi_wraps :
    after 0x000108B4 (regs [(1, 0)] start) (reg 2) = some 0xFFFFFFFF := by decide
theorem test_slti_unsigned :
    after 0xFFFF08AC (regs [(1, 0xFFFFFFFF)] start) (reg 2) = some 0 := by decide
theorem test_slti_below :
    after 0xFFFF08AC (regs [(1, 0x0000FFFE)] start) (reg 2) = some 1 := by decide
theorem test_slti_signed_least :
    after 0x800008A4 (regs [(1, 0x80000000)] start) (reg 2) = some 1 := by decide
theorem test_slti_signed_minus_one :
    after 0xFFFF08A4 (regs [(1, 0)] start) (reg 2) = some 0 := by decide
theorem test_andi :
    after 0xF0F0089C (regs [(1, 0xFFFFFFFF)] start) (reg 2) = some 0xF0F0 := by decide
theorem test_xori :
    after 0xFFFF0894 (regs [(1, 0xFFFFFFFF)] start) (reg 2) = some 0xFFFF0000 := by decide
theorem test_ori :
    after 0x5678088C (regs [(1, 0x12340000)] start) (reg 2) = some 0x12345678 := by decide
theorem test_lui_is_an_or :
    after 0x80000884 (regs [(1, 0x0000FFFF)] start) (reg 2) = some 0x8000FFFF := by decide
theorem test_addi_to_a_real_register_zero :
    after 0x0005003C (regs [(0, 7)] (status 8 start)) (reg 0) = some 12 := by decide
theorem test_load_byte_zero_extends :
    after 0x000308BB (words [(0x2000, 0x8899AABB), (0x2004, 0x11223344), (0x2008, 0x55667788)] (regs [(1, 0x2000)] start)) (reg 2) = some 0x88 := by decide
theorem test_load_int_scales :
    after 0x000308B3 (words [(0x2000, 0x8899AABB), (0x2004, 0x11223344), (0x2008, 0x55667788)] (regs [(1, 0x2000)] start)) (reg 2) = some 0x1122 := by decide
theorem test_load_long_scales :
    after 0x000108AB (words [(0x2000, 0x8899AABB), (0x2004, 0x11223344), (0x2008, 0x55667788)] (regs [(1, 0x2000)] start)) (reg 2) = some 0x11223344 := by decide
theorem test_store_byte :
    after 0x0001107A (words [(0x2000, 0x11111111), (0x2004, 0x22222222)] (regs [(1, 0x2000), (2, 0x123456FF)] start)) (fun s => (word 0x2000 s, word 0x2004 s)) = some (0x1111FF11, 0x22222222) := by decide
theorem test_store_int :
    after 0x00011072 (words [(0x2000, 0x11111111), (0x2004, 0x22222222)] (regs [(1, 0x2000), (2, 0x1234ABCD)] start)) (fun s => (word 0x2000 s, word 0x2004 s)) = some (0xABCD1111, 0x22222222) := by decide
theorem test_store_long :
    after 0x0001106A (words [(0x2000, 0x11111111), (0x2004, 0x22222222)] (regs [(1, 0x2000), (2, 0xCAFEBABE)] start)) (fun s => (word 0x2000 s, word 0x2004 s)) = some (0x11111111, 0xCAFEBABE) := by decide
theorem test_store_byte_minus_one :
    after 0x0003F85A (words [(0x2000, 0x11111111), (0x2004, 0x22222222)] (regs [(1, 0x2000), (2, 0)] start)) (fun s => (word 0x2000 s, word 0x2004 s)) = some (0xFF111111, 0x22222222) := by decide
theorem test_store_int_minus_sixteen :
    after 0x00018052 (words [(0x2000, 0x11111111), (0x2004, 0x22222222)] (regs [(1, 0x2000), (2, 0)] start)) (fun s => (word 0x2000 s, word 0x2004 s)) = some (0xFFF01111, 0x22222222) := by decide
theorem test_store_long_fifteen :
    after 0x0001784A (words [(0x2000, 0x11111111), (0x2004, 0x22222222)] (regs [(1, 0x2000), (2, 0)] start)) (fun s => (word 0x2000 s, word 0x2004 s)) = some (0x11111111, 0x0000000F) := by decide
theorem test_load_unaligned :
    after 0x000008B3 (regs [(1, 0x2001), (2, 0xDEAD)] start) (fun s => (entry s, reg 2 s)) = some ((0x10900, 0x90000000, 0x1000, 0x2001), 0xDEAD) := by decide
theorem test_load_bus_error :
    after 0x000208AB (regs [(1, 0x200000), (2, 5)] { start with regions := [⟨0x100000, 0xFFF00000, .empty⟩] }) (fun s => (entry s, reg 2 s)) = some ((0x10400, 0x40000000, 0x1000, 0x200008), 5) := by decide
theorem test_jalr_back_by_four :
    after 0xFFFF0FF8 (regs [(1, 0x4000)] start) (fun s => (s.pc, reg 31 s)) = some (0x3FFC, 0x1004) := by decide
theorem test_jalr_discards_its_link :
    after 0x0000F838 (regs [(31, 0x1234)] start) (fun s => (s.pc, reg 0 s)) = some (0x1234, 0) := by decide
theorem test_load_byte_x :
    after 0xF00208F9 (words [(0x2000, 0x8899AABB), (0x2004, 0x11223344), (0x2008, 0x55667788)] (regs [(1, 0x2000), (2, 5)] start)) (reg 3) = some 0x33 := by decide
theorem test_load_int_x :
    after 0xE02208F9 (words [(0x2000, 0x8899AABB), (0x2004, 0x11223344), (0x2008, 0x55667788)] (regs [(1, 0x2000), (2, 3)] start)) (reg 3) = some 0x1122 := by decide
theorem test_load_long_x_negative_index :
    after 0xD00208F9 (words [(0x2000, 0x8899AABB), (0x2004, 0x11223344), (0x2008, 0x55667788)] (regs [(1, 0x2008), (2, 0xFFFFFFFC)] start)) (reg 3) = some 0x11223344 := by decide
theorem test_store_byte_x :
    after 0xB00208F9 (words [(0x2000, 0x8899AABB), (0x2004, 0x11223344), (0x2008, 0x55667788)] (regs [(1, 0x2000), (2, 6), (3, 0x1234567F)] start)) (word 0x2004) = some 0x117F3344 := by decide
theorem test_store_int_x :
    after 0xA02208F9 (words [(0x2000, 0x8899AABB), (0x2004, 0x11223344), (0x2008, 0x55667788)] (regs [(1, 0x2000), (2, 1), (3, 0xFFFFBEEF)] start)) (word 0x2000) = some 0xBEEFAABB := by decide
theorem test_store_long_x :
    after 0x906208F9 (words [(0x2000, 0x8899AABB), (0x2004, 0x11223344), (0x2008, 0x55667788)] (regs [(1, 0x2000), (2, 1), (3, 0xCAFEBABE)] start)) (word 0x2008) = some 0xCAFEBABE := by decide
theorem test_lsh_31 :
    after 0x800208F9 (regs [(1, 31), (2, 1)] start) (reg 3) = some 0x80000000 := by decide
theorem test_rsh_31 :
    after 0x840208F9 (regs [(1, 31), (2, 0x80000000)] start) (reg 3) = some 1 := by decide
theorem test_ash_4 :
    after 0x880208F9 (regs [(1, 4), (2, 0x80000000)] start) (reg 3) = some 0xF8000000 := by decide
theorem test_ror_8 :
    after 0x8C0208F9 (regs [(1, 8), (2, 0x12345678)] start) (reg 3) = some 0x78123456 := by decide
theorem test_add_ror_8 :
    after 0x7D0208F9 (regs [(1, 0), (2, 0x12345678)] start) (reg 3) = some 0x78123456 := by decide
theorem test_add_ash_31 :
    after 0x7BE208F9 (regs [(1, 0), (2, 0x80000000)] start) (reg 3) = some 0xFFFFFFFF := by decide
theorem test_sub_wraps :
    after 0x602208F9 (regs [(1, 5), (2, 3)] start) (reg 3) = some 0xFFFFFFFF := by decide
theorem test_slt_unsigned :
    after 0x500208F9 (regs [(1, 1), (2, 0xFFFFFFFF)] start) (reg 3) = some 1 := by decide
theorem test_slt_signed :
    after 0x400208F9 (regs [(1, 1), (2, 0xFFFFFFFF)] start) (reg 3) = some 0 := by decide
theorem test_and :
    after 0x300208F9 (regs [(1, 0xFF00FF00), (2, 0x0FF00FF0)] start) (reg 3) = some 0x0F000F00 := by decide
theorem test_xor :
    after 0x200208F9 (regs [(1, 0xFF00FF00), (2, 0x0FF00FF0)] start) (reg 3) = some 0xF0F0F0F0 := by decide
theorem test_or :
    after 0x100208F9 (regs [(1, 0xFF00FF00), (2, 0x0FF00FF0)] start) (reg 3) = some 0xFFF0FFF0 := by decide
theorem test_nor :
    after 0x000208F9 (regs [(1, 0xFF00FF00), (2, 0x0FF00FF0)] start) (reg 3) = some 0x000F000F := by decide
theorem test_add_reads_before_it_writes :
    after 0x70210879 (regs [(1, 7)] start) (reg 1) = some 0x15 := by decide
theorem test_mul_wraps :
    after 0xF00208F1 (regs [(1, 0x12345678), (2, 0x9ABCDEF0)] start) (reg 3) = some 0x242D2080 := by decide
theorem test_div_unsigned :
    after 0xD00208F1 (regs [(1, 0x80000000), (2, 0xFFFFFFFF)] start) (reg 3) = some 0 := by decide
theorem test_div_signed_truncates :
    after 0xC00208F1 (regs [(1, 0xFFFFFFF9), (2, 2)] start) (reg 3) = some 0xFFFFFFFD := by decide
theorem test_div_signed_least :
    after 0xC00208F1 (regs [(1, 0x80000000), (2, 1)] start) (reg 3) = some 0x80000000 := by decide
theorem test_mod_unsigned :
    after 0xB00208F1 (regs [(1, 0xFFFFFFF9), (2, 2)] start) (reg 3) = some 1 := by decide
theorem test_ll :
    after 0x900008B1 (words [(0x3000, 41)] (regs [(1, 0x3000)] start)) (fun s => (reg 2 s, s.locked, s.lockedAddr)) = some (41, true, 0x3000) := by decide
theorem test_sc_locked :
    after 0x800208F1 (regs [(1, 0x4000), (2, 5)] { start with locked := true, lockedAddr := 0x3000 }) (fun s => (word 0x4000 s, reg 3 s, s.locked)) = some (5, 1, true) := by decide
theorem test_sc_unlocked_and_misaligned :
    after 0x800208F1 (regs [(1, 0x3001), (3, 0xAA)] start) (fun s => (reg 3 s, s.pc)) = some (0, 0x1004) := by decide
theorem test_pause :
    after 0x60000031 (start) State.pc = some 0x1004 := by decide
theorem test_mb :
    after 0x30000031 (start) State.pc = some 0x1004 := by decide
theorem test_wmb :
    after 0x20000031 (start) State.pc = some 0x1004 := by decide
theorem test_brk :
    after 0x10000031 (status 1 start) (fun s => (s.pc, s.rs)) = some (0x10600, 0x60000100) := by decide
theorem test_sys :
    after 0x00000031 (status 2 start) (fun s => (s.pc, s.rs)) = some (0x10200, 0x20000200) := by decide
theorem test_invalid_word :
    after 0x00000000 (status 1 start) entry = some (0x10700, 0x70000100, 0x1000, 0) := by decide
theorem test_unassigned_29_in_usermode :
    after 0x00000029 (status 1 start) entry = some (0x10800, 0x80000100, 0x1000, 0) := by decide
theorem test_unassigned_29_in_kernel_mode :
    after 0x00000029 (start) entry = some (0x10700, 0x70000000, 0x1000, 0) := by decide
theorem test_mfcr_rs :
    after 0xF0000069 (status 2 start) (reg 1) = some 2 := by decide
theorem test_mfcr_in_usermode :
    after 0xF0000069 (status 3 start) entry = some (0x10800, 0x80000300, 0x1000, 0) := by decide
theorem test_mtcr_rs :
    after 0xE0000829 (regs [(1, 0x107)] start) State.rs = some 0x107 := by decide
theorem test_hlt :
    after 0xC0000029 (status 2 start) (fun s => (s.halted, s.pc)) = some (true, 0x1004) := by decide
theorem test_hlt_in_usermode :
    after 0xC0000029 (status 3 start) State.rs = some 0x80000300 := by decide
theorem test_rfe :
    after 0xB0000029 (status 0x20000300 { start with epc := 0x5000, locked := true }) (fun s => (s.pc, s.rs, s.locked)) = some (0x5000, 0x20000003, false) := by decide
theorem test_rfe_of_a_miss :
    after 0xB0000029 (status 0xF0030308 { start with epc := 0x5000, tbpc := 0x6000 }) (fun s => (s.pc, s.rs)) = some (0x6000, 0xF0000303) := by decide

/-! ### Devices, interrupts, translation, the TBs -/

/-- The state after one step of what stands in memory, seen through `look`. -/
def afterStep {α : Type} (s : State) (look : State → α) : Option α :=
  match step s with
  | .next t => some (look t)
  | .fault _ => none
  | .refused _ => none

theorem test_interrupt_ends_a_halt :
    afterStep { status 2 start with pc := 0x1004, halted := true, intLine := true } (fun s => (entry s, s.halted)) =
      some ((0x10100, 0x10000200, 0x1004, 0), false) := by decide
theorem test_nmi_drops_the_third_level :
    afterStep { status 0x00010203 start with pc := 0x1008, nmiPending := 1 } entry =
      some (0x10500, 0x50020300, 0x1008, 0) := by decide

/-- Example T1: a TB with four entries (20_memory R105). -/
def t1Tb : Tb :=
  [⟨0, 0x00AA5, 0x00000001⟩, ⟨1, 0x00B36, 0x00608B41⟩, ⟨2, 0x00CCD, 0x00000001⟩, ⟨3, 0x003C4, 0x00000001⟩]

/-- One request gives one exception (60_exceptions R376): of two made at one boundary, one is left after the entry. -/
theorem test_two_nmi_requests :
    afterStep { start with inputs := [[.nmi, .nmi]] } (fun s => (s.pc, s.nmiPending)) = some (0x10500, 1) := by decide

/-- An access that bypasses the caches reaches the device once, at its width (20_memory R137). -/
theorem test_device_access_is_noted_once :
    (noteDevice ⟨.write, 0xC0000004, .int, 0xBEEF, true⟩ true start).deviceLog =
      [⟨.write, 0xC0000004, .int, 0xBEEF, true⟩] := by decide

/-- Another processor's store clears the flag of its word (60_exceptions R404), and no ROM changes. -/
theorem test_store_of_another_processor :
    (let s := otherProcessorStore 0x3002 .int 0xABCD { start with locked := true, lockedAddr := 0x3000 }
     (s.locked, word 0x3000 s)) = (false, 0xABCD0000) ∧
      word 0x3000 (otherProcessorStore 0x3000 .long 5 { start with regions := [⟨0x3000, 4, .rom⟩] }) = 0 := by decide

/-- The example under another PTE layout (00_scope R5): V in bit 31, the page number in bits 19:0. -/
theorem test_translation_under_another_layout :
    translateVa 0x00B36499 .read (status 4 { start with
      pteLayout := ⟨31, 30, 29, 28, 27, 0⟩, dtb := [⟨1, 0x00B36, 0x9003045A⟩] }) = .ok (0x3045A499, true) := by decide

theorem test_translation_example :
    translateVa 0x00B36499 .read (status 4 { start with dtb := t1Tb }) = .ok (0x3045A499, false) := by decide

/-- The start of the translation vectors with a PTE for page 0x00403. -/
def paged (rs tag pte : Word) : State :=
  regs [(1, 0x00403000), (2, 0x77)] { status rs start with
    itbTag := 0x00500000, dtbTag := 0x00500000, itb := [⟨0, 0x00500001, 0x00000031⟩, ⟨1, 0x00500010, 0x00000211⟩],
    dtb := [⟨4, tag, pte⟩] }

theorem test_paged_load :
    after 0x000208AB (words [(0x55008, 0xDEADBEEF)] (paged 6 0x00500403 0xAA3)) (reg 2) = some 0xDEADBEEF := by decide
theorem test_page_fault_on_an_invalid_page :
    after 0x000208AB (paged 6 0x00500403 0xAA2) (fun s => (entry s, reg 2 s)) =
      some ((0x10C00, 0xC0000604, 0x1000, 0x00403008), 0x77) := by decide
theorem test_page_fault_write :
    after 0x0002106A (paged 6 0x00500403 0xAA1) (fun s => (s.pc, s.rs, word 0x55008 s)) =
      some (0x10D00, 0xD0000604, 0) := by decide
theorem test_page_fault_on_a_kernel_page :
    after 0x000208AB (paged 7 0x00500403 0xAA7) State.rs = some 0xC0000704 := by decide
theorem test_miss_under_another_asid :
    after 0x000208AB (paged 6 0x00600403 0xAA3)
        (fun s => ((s.pc, s.rs, s.tbpc, s.tbmissaddr), (s.dtbTag, s.dtbAddr, s.epc, s.missWasWrite))) =
      some ((0x10F00, 0xF000060C, 0x1000, 0x00403008), (0x00500403, 0x100C, 0, false)) := by decide

/-- The TB of the command vectors. -/
def commandTb : Tb :=
  [⟨0, 0x00500010, 0x10⟩, ⟨1, 0x00500011, 0⟩, ⟨4, 0x00500020, 0⟩, ⟨5, 0x00600020, 0⟩, ⟨6, 0x00700030, 0x10⟩,
    ⟨7, 0x00500040, 0⟩]

/-- The indices that a DTB command leaves used. -/
def leaves (v : Word) : Option (List Nat) :=
  after 0xE01B0829 (regs [(1, v)] { start with dtb := commandTb }) fun s => s.dtb.map TbSlot.index

theorem test_tb_command_all : leaves 3 = some [] := by decide
theorem test_tb_command_private : leaves 2 = some [0, 1, 6] := by decide
theorem test_tb_command_not_wired : leaves 1 = some [0, 1] := by decide
theorem test_tb_command_page : leaves 0x00020000 = some [0, 1, 6, 7] := by decide
theorem test_tb_command_wired_page : leaves 0x00010000 = some [1, 4, 5, 6, 7] := by decide

/-- Mode stack example T8: RS after SYS, after a miss in its handler, after the two RFEs. -/
theorem test_mode_stack :
    rsEntered 2 7 = 0x20000704 ∧ (rsEntered 15 0x20000704 ||| 8) = 0xF007040C ∧
      rsPopped 0xF007040C = 0xF0000704 ∧ rsPopped 0xF0000704 = 0xF0000007 := by decide

theorem test_reset_memory_is_canonical : State.reset.mem.wf := by decide
/-! ## The statements' hypotheses can be met

Each theorem gives states and operands that meet the hypotheses of one statement, clause by clause where it has several;
its name is the statement's. -/

theorem witness_RejectedWordsAreTheUnassignedOnes :
    decode 0xFFFFFF30 = .error (.unassignedOpcode 0x30) ∧ decode 0xCFFFFFF9 = .error (.unassignedFunct39 0xC) ∧
      decode 0x4FFFFFF1 = .error (.unassignedFunct31 4) ∧ decode 0xDFFFFFE9 = .error (.unassignedFunct29 0xD) ∧
      decode 0xFFFFFFF9 = .ok (.loadByteX 31 31 ⟨31, .ror, 31⟩) := by decide

theorem witness_FetchAndDecodeExceptions :
    (({ start with pc := 0x1001 } : State).pc.toNat % 4 ≠ 0 ∧ ({ start with pc := 0xFFFFFFFF } : State).pc.toNat % 4 ≠ 0) ∧
      fetchWord (status 4 start) = .trap (.tbMiss .fetch 0x1000) ∧
      (fetchWord start = .ok (0, start) ∧ decode 0 = .error (.unassignedOpcode 0)) ∧
      (∃ s : State, s = status 1 (words [(0x1000, 0x29)] start) ∧ fetchWord s = .ok (0x29, s) ∧
        decode 0x29 = .error (.unassignedFunct29 0)) :=
  ⟨by decide, rfl, ⟨rfl, rfl⟩, _, rfl, rfl, rfl⟩

/-- Through the caches, and around them with an old copy that does not matter. -/
theorem witness_StepRunsTheDecodedInstruction :
    (∀ s ∈ [words [(0x1000, 0x0005007C)] start, words [(0xFFFE1000, 0x0005007C)]
        { State.reset with icacheStale := [⟨0xFFFE1000, 0⟩] }],
      s.inputs = [] ∧ (s.nmiPending = 0 ∨ s.nmiMask ≠ 0) ∧ (s.intLine = false ∨ s.bitI = false) ∧
        s.halted = false ∧ s.pc.toNat % 4 = 0 ∧ translateVa s.pc .fetch s = .ok (s.pc, decide (0xC0000000 ≤ s.pc)) ∧
        (regionAt s.regions s.pc.toNat = .ram ∨ regionAt s.regions s.pc.toNat = .rom) ∧
        (decide (0xC0000000 ≤ s.pc) = true ∨ ∀ c ∈ s.icacheStale, c.addr ≠ s.pc.toNat / 4 * 4) ∧
        decodeBytes [s.mem.read s.pc.toNat, s.mem.read (s.pc.toNat + 1), s.mem.read (s.pc.toNat + 2),
          s.mem.read (s.pc.toNat + 3)] = .ok (.addi 1 0 5)) := by decide

theorem witness_ZeroRegisterRule :
    start.bitT = false ∧ (status 8 start).bitT = true ∧ (31 : RegNum) ≠ 0 ∧ (1 : RegNum) ≠ 0 := by decide

theorem witness_ResetState :
    ∃ r, applyMove .reset start = applyMove .reset r := ⟨start, rfl⟩

theorem witness_JalrTarget :
    ((31 : RegNum) ≠ 1 ∨ (31 : RegNum) = 0 ∧ start.bitT = false) ∧
      ((0 : RegNum) ≠ 0 ∨ (0 : RegNum) = 0 ∧ start.bitT = false) := by decide

theorem witness_JalrThroughItsLinkRegister :
    ((31 : RegNum) ≠ 0 ∨ start.bitT = true) ∧ ((0 : RegNum) ≠ 0 ∨ (status 8 start).bitT = true) := by decide

theorem witness_ShiftByRegister :
    ((regs [(1, 31)] start).readReg 1).toNat < 32 ∧ ((regs [(1, 0)] start).readReg 1).toNat < 32 ∧
      ¬((regs [(1, 32)] start).readReg 1).toNat < 32 := by decide

theorem witness_MultiplyAndDivide :
    ∃ s : State, s = regs [(1, 0x80000000), (2, 0xFFFFFFFE)] start ∧ (s.readReg 2).toNat ≠ 0 ∧
      ¬((s.readReg 1).toInt = -2 ^ 31 ∧ (s.readReg 2).toInt = -1) := ⟨_, rfl, by decide, by decide⟩

/-- Register 1 holds 0x2000, register 2 holds 4, and the Dcache may hold an old copy of the word at 0x2000. -/
def accessState : State :=
  regs [(1, 0x2000), (2, 4)] (words [(0x2000, 0x8899AABB)] { start with dcacheStale := [⟨0x2000, 5⟩] })

theorem witness_LoadsReadTheirBytes :
    ∀ p ∈ ([(.loadByte 3 1 3, 0x2003, .byte), (.loadInt 3 1 1, 0x2002, .int), (.loadLong 3 1 0xFFFF, 0x41FFC, .long),
        (.loadByteX 3 1 ⟨2, .lsh, 0⟩, 0x2004, .byte), (.loadIntX 3 1 ⟨2, .rsh, 1⟩, 0x2002, .int),
        (.loadLongX 3 1 ⟨2, .lsh, 31⟩, 0x2000, .long)] : List (Instr × Word × Width)),
      loadOf accessState p.1 = some (3, p.2.1, p.2.2) ∧ p.2.1.toNat % p.2.2.bytes = 0 ∧
        translateVa p.2.1 .read accessState = .ok (p.2.1, false) ∧
        (regionAt accessState.regions p.2.1.toNat = .ram ∨ regionAt accessState.regions p.2.1.toNat = .rom) := by decide

theorem witness_StoresWriteTheirBytes :
    accessState.mem.wf ∧
    ∀ p ∈ ([(.storeByte 1 2 3, 0x2003, .byte, 4), (.storeInt 1 2 1, 0x2002, .int, 4), (.storeLong 1 2 1, 0x2004, .long, 4),
        (.storeByteSmall 1 0x1F 0, 0x2000, .byte, 0xFFFFFFFF), (.storeIntSmall 1 0x10 1, 0x2002, .int, 0xFFFFFFF0),
        (.storeLongSmall 1 0xF 1, 0x2004, .long, 15), (.storeByteX 2 1 ⟨2, .lsh, 0⟩, 0x2004, .byte, 4),
        (.storeIntX 2 1 ⟨2, .lsh, 1⟩, 0x2008, .int, 4), (.storeLongX 2 1 ⟨2, .ash, 31⟩, 0x2000, .long, 4)] :
        List (Instr × Word × Width × Word)),
      storeOf accessState p.1 = some (p.2.1, p.2.2.1, p.2.2.2) ∧ p.2.1.toNat % p.2.2.1.bytes = 0 ∧
        translateVa p.2.1 .write accessState = .ok (p.2.1, false) ∧
        regionAt accessState.regions p.2.1.toNat = .ram := by decide

/-- A platform with a ROM, a device and a hole; the register 1 word selects one. -/
def platformState (a : Word) : State :=
  regs [(1, a)] { start with
    regions := [⟨0x10000, 0x1000, .rom⟩, ⟨0x20000, 0x1000, .device true⟩, ⟨0x30000, 0x1000, .empty⟩] }

/-- Misaligned; a miss, because the DTB is empty; a hole; a device; the reserved ASID; two matches; a ROM. -/
theorem witness_AccessesThatDoNotReachMemory :
    (accessOf (platformState 0x2001) (.loadInt 3 1 0) = some (0x2001, .int, .read) ∧ (0x2001 : Word).toNat % 2 ≠ 0) ∧
    (accessOf { platformState 0x2003 with locked := true } (.sc 3 1 2) = some (0x2003, .long, .write) ∧
      (0x2003 : Word).toNat % 4 ≠ 0) ∧
    (accessOf (status 4 (platformState 0x2000)) (.storeLong 1 2 0) = some (0x2000, .long, .write) ∧
      translateVa 0x2000 .write (status 4 (platformState 0x2000)) = .trap (.tbMiss .write 0x2000)) ∧
    (accessOf (platformState 0x30000) (.ll 3 1) = some (0x30000, .long, .read) ∧
      translateVa 0x30000 .read (platformState 0x30000) = .ok (0x30000, false) ∧
      regionAt (platformState 0x30000).regions 0x30000 = .empty) ∧
    (accessOf (platformState 0x20FFF) (.loadByte 3 1 0) = some (0x20FFF, .byte, .read) ∧
      translateVa 0x20FFF .read (platformState 0x20FFF) = .ok (0x20FFF, false) ∧
      regionAt (platformState 0x20FFF).regions 0x20FFF = .device true) ∧
    (accessOf (platformState 0x20FFE) (.storeIntSmall 1 0x1F 0) = some (0x20FFE, .int, .write) ∧
      translateVa 0x20FFE .write (platformState 0x20FFE) = .ok (0x20FFE, false) ∧
      regionAt (platformState 0x20FFE).regions 0x20FFE = .device true) ∧
    translateVa 0x2000 .write (status 4 { platformState 0x2000 with dtbTag := 0xFFF00000 }) = .fault .reservedAsid ∧
    translateVa 0x2000 .write (status 4 { platformState 0x2000 with dtb := [⟨0, 2, 0x10⟩, ⟨1, 2, 0⟩] }) =
      .refused .severalTbMatches ∧
    (accessOf (platformState 0x10000) (.storeByte 1 2 0) = some (0x10000, .byte, .write) ∧
      translateVa 0x10000 .write (platformState 0x10000) = .ok (0x10000, false) ∧
      regionAt (platformState 0x10000).regions 0x10000 = .rom) := by
  refine ⟨?_, ?_, ?_, ?_, ?_, ?_, ?_, ?_, ?_⟩ <;> decide

theorem witness_LoadSeesOwnStore :
    accessState.mem.wf ∧ storeOf accessState (.storeByteX 2 1 ⟨0, .lsh, 0⟩) = some (0x2000, .byte, 4) ∧
      loadOf accessState (.loadByte 3 1 0) = some (3, 0x2000, .byte) ∧ accessState.wired 3 = false ∧
      (0x2000 : Word).toNat % 1 = 0 ∧ translateVa 0x2000 .write accessState = .ok (0x2000, false) ∧
      regionAt accessState.regions 0x2000 = .ram := by decide

theorem witness_FetchReadsMemoryOrAnOldCopy :
    (start.pc.toNat % 4 = 0 ∧ translateVa start.pc .fetch start = .ok (0x1000, false) ∧
      regionAt start.regions (0x1000 : Word).toNat = .ram) ∧
    (translateVa 0x20000 .fetch (platformState 0) = .ok (0x20000, false) ∧
      regionAt (platformState 0).regions (0x20000 : Word).toNat = .device true) ∧
    (translateVa 0x30FFC .fetch (platformState 0) = .ok (0x30FFC, false) ∧
      regionAt (platformState 0).regions (0x30FFC : Word).toNat = .empty) := by
  refine ⟨?_, ?_, ?_⟩ <;> decide

/-- One command word for each clause: 11 with any high bits, 10 on the last frame, 01, 00, and 10 with a bit among 11:2. -/
theorem witness_CacheCommands :
    start.bitU = false ∧
      ((regs [(1, 0xFFFFFFFF)] start).readReg 1).toNat % 4 = 3 ∧
      ((regs [(1, 0xFFFFF002)] start).readReg 1).toNat % 4096 = 2 ∧
      ((regs [(1, 1)] start).readReg 1).toNat % 4 < 2 ∧ ((regs [(1, 0)] start).readReg 1).toNat % 4 < 2 ∧
      (((regs [(1, 6)] start).readReg 1).toNat % 4 = 2 ∧ ((regs [(1, 6)] start).readReg 1).toNat % 4096 ≠ 2) := by decide

/-- The paged states meet the invariant: four is below the size of every TB. -/
theorem paged_inv (rs tag pte : Word) : Inv (paged rs tag pte) := by
  have i := Config_itbSize_gt
  have d := Config_dtbSize_gt
  have m : (⟨[]⟩ : Memory).wf := by decide
  have p : Tb.wf [⟨0, 0x00500001, 0x00000031⟩, ⟨1, 0x00500010, 0x00000211⟩] 2 := by decide
  refine ⟨m, ⟨p.1, ?_⟩, ⟨?_, ?_⟩⟩
  · intro x hx
    simp only [paged, regs, List.foldl, status, List.mem_cons, List.not_mem_nil, or_false] at hx
    rcases hx with rfl | rfl <;> simp only <;> omega
  · exact List.pairwise_singleton _ _
  · intro x hx
    simp only [paged, regs, List.foldl, status, List.mem_singleton] at hx
    subst hx
    exact d

/-- An entry that allows a read and one that allows no write, under the ASID 5; translation off. -/
theorem witness_TranslationByTheOneMatch :
    start.bitM = false ∧
    (Inv (paged 6 0x00500403 0xAA1) ∧ (paged 6 0x00500403 0xAA1).bitM = true ∧
      ((paged 6 0x00500403 0xAA1).tagOf .dtb).toNat / 2 ^ 20 ≠ 0xFFF ∧
      (∃ x ∈ (paged 6 0x00500403 0xAA1).tbOf .dtb, Matches .usual x 0x00403FFF ((paged 6 0x00500403 0xAA1).tagOf .dtb) ∧
        (∀ y ∈ (paged 6 0x00500403 0xAA1).tbOf .dtb, y = x) ∧
        Allows .usual x.entry.pte .read (paged 6 0x00500403 0xAA1).bitU ∧
        ¬Allows .usual x.entry.pte .write (paged 6 0x00500403 0xAA1).bitU)) := by
  refine ⟨by decide, paged_inv _ _ _, by decide, by decide, ⟨4, 0x00500403, 0xAA1⟩, by decide, ?_, by decide, ?_, ?_⟩
  · unfold Matches; decide
  · unfold Allows; decide
  · unfold Allows; decide

/-- No entry for a page; two entries for one page; the reserved ASID. -/
theorem witness_TranslationWithoutOneMatch :
    (∃ s : State, s = paged 6 0x00500403 0xAA3 ∧ s.bitM = true ∧ (s.tagOf .dtb).toNat / 2 ^ 20 ≠ 0xFFF ∧
      ∀ y ∈ s.tbOf .dtb, ¬Matches .usual y 0x00404000 (s.tagOf .dtb)) ∧
    (∃ s : State, s = status 4 { start with dtb := [⟨0, 0x00000403, 0⟩, ⟨1, 0x00500403, 0x10⟩] } ∧ s.bitM = true ∧
      (s.tagOf .dtb).toNat / 2 ^ 20 ≠ 0xFFF ∧
      ∃ x ∈ s.tbOf .dtb, ∃ y ∈ s.tbOf .dtb, x ≠ y ∧ Matches .usual x 0x00403000 (s.tagOf .dtb) ∧
        Matches .usual y 0x00403000 (s.tagOf .dtb)) ∧
    (∃ s : State, s = status 4 { start with itbTag := 0xFFF00000 } ∧ s.bitM = true ∧
      (s.tagOf .itb).toNat / 2 ^ 20 = 0xFFF) := by
  refine ⟨⟨_, rfl, by decide, by decide, ?_⟩, ⟨_, rfl, by decide, by decide, ?_⟩, ⟨_, rfl, by decide, by decide⟩⟩
  · unfold Matches; decide
  · unfold Matches; decide

/-- The first index, and the last, after which the index wraps. -/
theorem witness_TbInsertion :
    (Inv start ∧ start.bitU = false ∧ start.itbIndex.toNat < Config.itbSize ∧ start.dtbIndex.toNat < Config.dtbSize) ∧
    ∃ s : State, s = { start with itbIndex := BitVec.ofNat 32 (Config.itbSize - 1) } ∧ Inv s ∧ s.bitU = false ∧
      s.itbIndex.toNat < Config.itbSize ∧ s.itbIndex.toNat + 1 = Config.itbSize := by
  have i := Config_itbSize_gt
  have l := Config_itbSize_le
  have d := Config_dtbSize_gt
  have e : (BitVec.ofNat 32 (Config.itbSize - 1)).toNat = Config.itbSize - 1 := by
    rw [BitVec.toNat_ofNat]
    omega
  have m : (⟨[]⟩ : Memory).wf := by decide
  have inv : ∀ x : Word, Inv { start with itbIndex := x } := fun _ => ⟨m, Tb.wf_nil _, Tb.wf_nil _⟩
  refine ⟨⟨inv 0, by decide, ?_, ?_⟩, _, rfl, inv _, by decide, ?_, ?_⟩
  · show 0 < Config.itbSize
    omega
  · show 0 < Config.dtbSize
    omega
  · show (BitVec.ofNat 32 (Config.itbSize - 1)).toNat < _
    omega
  · show (BitVec.ofNat 32 (Config.itbSize - 1)).toNat + 1 = _
    omega

theorem witness_TbSizeProbe :
    start.bitU = false ∧ start.itbIndex = 0 ∧ start.dtbIndex = 0 ∧ Config.itbSize ≤ Config.itbSize ∧
      0 ≤ Config.dtbSize := ⟨by decide, by decide, by decide, Nat.le_refl _, Nat.zero_le _⟩

/-- One value for each of the four commands, with the set of entries it keeps. -/
theorem witness_TbCommands :
    start.bitU = false ∧
    (((regs [(1, 0xFFFFFFFF)] start).readReg 1).toNat % 4 = 3 ∧ ∀ _x : TbSlot, ¬False) ∧
    (((regs [(1, 2)] start).readReg 1).toNat % 4 = 2 ∧
      ∀ x : TbSlot, (x.index < 4 ∨ x.entry.pte.getLsbD 4 = true) ↔ x.index < 4 ∨ x.entry.pte.getLsbD 4 = true) ∧
    (((regs [(1, 1)] start).readReg 1).toNat % 4 = 1 ∧ ∀ x : TbSlot, x.index < 4 ↔ x.index < 4) ∧
    (((regs [(1, 0xFFFFF000)] start).readReg 1).toNat % 4096 = 0 ∧
      ∀ x : TbSlot, x.entry.tag.toNat % 2 ^ 20 ≠ 0xFFFFF ↔
        x.entry.tag.toNat % 2 ^ 20 ≠ ((regs [(1, 0xFFFFF000)] start).readReg 1).toNat / 2 ^ 12) :=
  ⟨by decide, ⟨by decide, fun _ => id⟩, ⟨by decide, fun _ => Iff.rfl⟩, ⟨by decide, fun _ => Iff.rfl⟩,
    ⟨by decide, fun _ => Iff.rfl⟩⟩

/-- For the first miss, the plain page fault, the return, and the pseudo-instructions: T clear. -/
theorem witness_FirstTbMissEntry : start.bitT = false ∧ start.eb.toNat % 4096 = 0 := by decide
theorem witness_NestedTbMissEntry : (status 8 start).bitT = true ∧ (status 8 start).eb.toNat % 4096 = 0 := by decide
theorem witness_PageFaultEntry : start.bitT = false := by decide
theorem witness_NestedPageFaultEntry :
    (status 8 { start with missWasWrite := true }).bitT = true ∧ (status 8 start).bitT = true := by decide

/-- A miss on page 0x00403 with the linear page table at 0xC0000000 and its page in the wired entry 0. -/
def missState : State :=
  words [(0x2100C, 0xAA3)] (status 6 { start with
    itbTag := 0x00500000, dtbTag := 0x00500000, dtbAddr := 0xC0000000, dtbIndex := 4,
    dtb := [⟨0, 0x005C0001, 0x00000437⟩] })

theorem witness_MissRoutineRefillsAndReturns :
    Inv missState ∧ AccessKind.read ≠ .fetch ∧ missState.bitM = true ∧ missState.bitT = false ∧
      missState.dtbTag.toNat / 2 ^ 20 ≠ 0xFFF ∧ (∀ y ∈ missState.dtb, ¬Matches .usual y 0x00403008 missState.dtbTag) ∧
      missState.dtbIndex.toNat < Config.dtbSize ∧
      translateVa (BitVec.ofNat 32 (missState.dtbAddr.toNat / 2 ^ 22 * 2 ^ 22 + (0x00403008 : Word).toNat / 2 ^ 12 * 4))
        .read (takeException (.tbMiss .read 0x00403008) missState) = .ok (0x2100C, false) ∧
      OrdinaryMemory missState 0x2100C ∧ HoldsLE missState.mem 0x2100C .long 0xAA3 ∧
      (∀ c ∈ missState.dcacheStale, c.addr ≠ 0x2100C / 4 * 4) ∧ Allows .usual 0xAA3 .read missState.bitU ∧
      ¬Allows .usual 0xAA1 .write missState.bitU := by
  have d := Config_dtbSize_gt
  refine ⟨⟨by decide, Tb.wf_nil _, List.pairwise_singleton _ _, ?_⟩, by decide, by decide, by decide, by decide, ?_, d,
    by decide, .inl (by decide), ?_, by decide, ?_, ?_⟩
  · intro x hx
    simp only [missState, words, status, List.foldl, List.mem_singleton] at hx
    subst hx
    simp only
    omega
  · unfold Matches; decide
  · unfold HoldsLE; decide
  · unfold Allows; decide
  · unfold Allows; decide

theorem witness_EntriesGoToTheVectorsInKernelMode :
    start.eb.toNat % 4096 = 0 ∧ start.bitT = false ∧
      ∀ k va, (Exc.plain .nmi) ≠ .tbMiss k va ∧ (Exc.plain .nmi) ≠ .pageFault k va :=
  ⟨by decide, by decide, fun _ _ => ⟨by simp, by simp⟩⟩

theorem witness_ReturnFromException :
    (status 1 start).bitU = true ∧ (status 0x20000300 start).bitU = false ∧
      ((status 8 start).bitT = true ∧ (status 8 start).bitU = false) ∧
      ((status 0x800 start).rs.getLsbD 11 = true ∧ (status 0x700 start).rs.getLsbD 11 = false) := by decide

theorem witness_ReturnResumesWhereTheExceptionWasTaken :
    (status 7 start).bitT = false ∧ Exc.tbMiss .fetch 0x1000 ≠ .plain .sys ∧ Exc.tbMiss .fetch 0x1000 ≠ .plain .brk := by
  decide

theorem witness_PrivilegedInstructionsInUsermode : (status 1 start).bitU = true := by decide
theorem witness_MoveFromControlRegister : start.bitU = false := by decide
theorem witness_MoveToStoringControlRegister :
    start.bitU = false ∧ ∃ u : State, u = { start with pc := start.pc + 4, nmiMask := Config.nmiMaskInsns } :=
  ⟨by decide, _, rfl⟩

/-- A value that sets T and an MBZ bit; one that sets neither; T set already. -/
theorem witness_MoveToStatusRegister :
    start.bitU = false ∧ ((regs [(1, 0x18)] start).readReg 1).getLsbD 3 = true ∧
      ((regs [(1, 0x18)] start).readReg 1).getLsbD 4 = true ∧ ((regs [(1, 7)] start).readReg 1).getLsbD 3 = false ∧
      ((status 8 start).bitT = true ∧ (status 8 start).bitU = false) := by decide

theorem witness_ControlRegisterStops :
    start.bitU = false ∧
      (((regs [(1, 4)] start).readReg 1).toNat % 4 = 0 ∧ ((regs [(1, 4)] start).readReg 1).toNat % 4096 ≠ 0) ∧
      (((regs [(1, 0xFFFFFFFC)] start).readReg 1).toNat % 4 = 0 ∧
        ((regs [(1, 0xFFFFFFFC)] start).readReg 1).toNat % 4096 ≠ 0) := by decide

theorem witness_HaltWaits :
    start.bitU = false ∧
      ∃ s : State, s = { start with halted := true, intLine := true } ∧ s.halted = true ∧ s.inputs = [] ∧
        (s.intLine = false ∨ s.bitI = false) ∧ (s.nmiPending = 0 ∨ s.nmiMask ≠ 0) :=
  ⟨by decide, _, rfl, by decide⟩

theorem witness_ExternalInterruptEntry :
    ∃ s : State, s = status 2 { start with intLine := true, halted := true, nmiPending := 2, nmiMask := 1 } ∧
      s.inputs = [] ∧ s.intLine = true ∧ s.bitI = true ∧ (s.nmiPending = 0 ∨ s.nmiMask ≠ 0) :=
  ⟨_, rfl, by decide⟩

/-- Running, halted without and with an enabled interrupt, and masked. -/
theorem witness_NmiEntryAndMask :
    (∃ s : State, s = { start with nmiPending := 1 } ∧ s.inputs = [] ∧ s.nmiPending ≠ 0 ∧ s.nmiMask = 0 ∧
      s.halted = false) ∧
    (∃ s : State, s = { start with nmiPending := 2, halted := true, intLine := true } ∧ s.inputs = [] ∧
      s.nmiPending ≠ 0 ∧ s.nmiMask = 0 ∧ s.halted = true ∧ (s.intLine = false ∨ s.bitI = false)) ∧
    (∃ s : State, s = status 2 { start with nmiPending := 2, halted := true, intLine := true } ∧ s.inputs = [] ∧
      s.nmiPending ≠ 0 ∧ s.nmiMask = 0 ∧ s.halted = true ∧ s.intLine = true ∧ s.bitI = true) ∧
    ∃ s : State, s = words [(0x1000, 0x3C)] { start with nmiPending := 1, nmiMask := 1 } ∧ s.inputs = [] ∧
      s.nmiMask ≠ 0 ∧ s.goesOn :=
  ⟨⟨_, rfl, by decide⟩, ⟨_, rfl, by decide⟩, ⟨_, rfl, by decide⟩, _, rfl, by decide, by decide, _, rfl⟩

theorem witness_LoadLocked :
    (accessState.readReg 1).toNat % 4 = 0 ∧ translateVa (accessState.readReg 1) .read accessState = .ok (0x2000, false) ∧
      (regionAt accessState.regions 0x2000 = .ram ∨ regionAt accessState.regions 0x2000 = .rom) := by decide

theorem witness_StoreConditional :
    accessState.locked = false ∧
      ∃ s : State, s = { accessState with locked := true } ∧ s.locked = true ∧ s.mem.wf ∧ (s.readReg 1).toNat % 4 = 0 ∧
        translateVa (s.readReg 1) .write s = .ok (0x2000, false) ∧ regionAt s.regions 0x2000 = .ram :=
  ⟨by decide, _, rfl, by decide⟩

/-- A store to the last halfword below a boundary in RAM, one to ROM, one at an odd address; and an RFE. -/
theorem witness_StoresOfOtherAgentsAndTheReservation :
    ((platformState 0).mem.wf ∧ 0xFFFE = (0xFFFE : Word).toNat / Width.int.bytes * Width.int.bytes ∧
      regionAt (platformState 0).regions 0xFFFE = .ram) ∧
    (0x10000 = (0x10003 : Word).toNat / Width.long.bytes * Width.long.bytes ∧
      regionAt (platformState 0).regions 0x10000 ≠ .ram) ∧
    ∃ s t : State, s = { start with locked := true } ∧ exec .rfe s = .next t ∧ s.locked = true ∧ t.locked = false :=
  ⟨by decide, by decide, _, _, rfl, rfl, rfl, rfl⟩

theorem witness_StepKeepsTheInvariant :
    Inv (words [(0x1000, 0x3C)] start) ∧ (words [(0x1000, 0x3C)] start).goesOn :=
  ⟨⟨by decide, Tb.wf_nil _, Tb.wf_nil _⟩, _, rfl⟩

theorem witness_UsermodeCannotTouchPrivilegedState :
    (status 1 start).bitU = true ∧ (∃ t, exec (.add 1 1 ⟨1, .lsh, 0⟩) (status 1 start) = .next t) ∧
      ∃ t, exec .sys (status 1 start) = .next t := ⟨by decide, ⟨_, rfl⟩, _, rfl⟩

/-- RFE with U in the old mode, and MTCR of RS. -/
theorem witness_UsermodeIsEnteredOnlyByRfeOrMtcr :
    (afterStep (words [(0x1000, 0xB0000029)] (status 0x100 start)) State.bitU = some true ∧
      (status 0x100 start).bitU = false) ∧
    (afterStep (words [(0x1000, 0xE0000829)] (regs [(1, 1)] start)) State.bitU = some true ∧
      (regs [(1, 1)] start).bitU = false) := by decide

theorem witness_OnlyTheDestinationChanges :
    (∃ t, exec (.jal 0) start = .next t) ∧ destOf (.jal 0) = some 31 ∧ isStore (.jal 0) = false := ⟨⟨_, rfl⟩, rfl, rfl⟩

theorem witness_SoftwareRegistersChangeOnlyByMtcr :
    (words [(0x1000, 0xE00B0829)] start).goesOn ∧ (words [(0x1000, 0xE00B0829)] start).inputs = [] := ⟨⟨_, rfl⟩, rfl⟩

theorem witness_PcStaysAligned :
    start.pc.toNat % 4 = 0 ∧ start.eb.toNat % 4096 = 0 ∧ (∀ ra rb imm, Instr.beq 0 1 ≠ .jalr ra rb imm) ∧
      Instr.beq 0 1 ≠ .rfe ∧ ∃ t, exec (.beq 0 1) start = .next t :=
  ⟨by decide, by decide, fun _ _ _ => by simp, by simp, _, rfl⟩

/-- T clear; an address that register 3 reaches, and the one that the wired zero reaches for the same operand. -/
theorem witness_PseudoInstructions :
    start.bitT = false ∧ start.mem.wf ∧ (0x12345678 : Word).toNat % Width.long.bytes = 0 ∧
    ((0x12345678 : Word).toNat = (if (3 : RegNum) = 0 then (0x12345678 : Word).toNat % 2 ^ 16 else
        (0x12345678 : Word).toNat) ∧ translateVa 0x12345678 .write start = .ok (0x12345678, false)) ∧
    ((0x5678 : Word).toNat = (if (0 : RegNum) = 0 then (0x12345678 : Word).toNat % 2 ^ 16 else
        (0x12345678 : Word).toNat) ∧ translateVa 0x5678 .read start = .ok (0x5678, false)) ∧
    regionAt start.regions (0x5678 : Word).toNat = .ram := by
  refine ⟨?_, ?_, ?_, ?_, ?_, ?_⟩ <;> decide

end Sys2Proof.Tests
end

section
/-! What an instruction and a step leave unchanged (spec/10_state.md R22 to R39), where control registers have no meaning,
and when the pc stays aligned. -/

namespace Sys2Proof.Machine

/-! ### Register 0 and the other registers -/

/-- A register that is not the wired zero reads as stored (10_state R22). -/
theorem readReg_of_not_wired {s : State} {r : RegNum} (h : s.wired r = false) :
    s.readReg r = s.regs[r.toNat]'r.isLt := by
  simp [State.readReg, h]

/-- A write to the wired zero is ignored (10_state R23). -/
theorem regs_writeReg_of_wired {s : State} {r : RegNum} (h : s.wired r = true) (v : Word) :
    (s.writeReg r v).regs = s.regs := by
  simp [State.writeReg, h]

/-- A register that is not the wired zero holds what is written (10_state R23). -/
theorem regs_writeReg_same {s : State} {r : RegNum} (h : s.wired r = false) (v : Word) :
    (s.writeReg r v).regs[r.toNat]'r.isLt = v := by
  simp [State.writeReg, h]

/-- The two ways a register number is not the wired zero (10_state R22). -/
theorem not_wired {s : State} {r : RegNum} (h : r ≠ 0 ∨ s.bitT = true) : s.wired r = false := by
  rcases h with nonzero | t
  · exact wired_of_ne_zero s nonzero
  · simp [State.wired, t]

/-- Settles O8, from the rules for reading after a write. -/
theorem zeroRegisterRule : Obligations.ZeroRegisterRule := by
  unfold Obligations.ZeroRegisterRule
  intro s r q v
  refine ⟨fun clear => ⟨readReg_zero_of_not_bitT clear, regs_writeReg_of_wired ((wired_iff s 0).mpr ⟨rfl, clear⟩) v⟩,
    fun real => ?_, readReg_writeReg_other s v⟩
  have stored : s.wired r = false := not_wired real
  exact ⟨readReg_of_not_wired stored, regs_writeReg_same stored v, by simp [stored]⟩

/-! ### What an instruction leaves of the registers and of memory -/

/-- No instruction writes a stored register but number 0 and its destination (10_state R25). -/
theorem exec_regs_other {i : Instr} {s t : State} (h : exec i s = .next t) (k : Nat) (hk : k < 32) (nonzero : k ≠ 0)
    (other : ∀ r, destOf i = some r → k ≠ r.toNat) : t.regs[k] = s.regs[k] := by
  cases exec_effect h with
  | trap e => exact takeException_regs_other e s k hk nonzero
  | goto => rfl
  | write r _ _ _ dest => exact regs_writeReg_other _ _ _ k hk (.inl (other r dest))
  | link r _ _ _ _ dest => exact regs_writeReg_other _ _ _ k hk (.inl (other r dest))
  | store => rfl
  | storeWrite _ _ _ _ r _ dest => exact regs_writeReg_other _ _ _ k hk (.inl (other r dest))
  | readControl _ r _ mfcr =>
    obtain ⟨cr, rfl⟩ := mfcr
    exact regs_writeReg_other _ _ _ k hk (.inl (other r rfl))
  | writeControl _ _ _ _ _ _ u hu =>
    obtain ⟨-, -, -, -, -, -, -, -, -, -, -, -, -, -, keeps⟩ := writeControl_frame hu
    exact keeps k hk nonzero
  | halt => rfl
  | ret => exact returnFromException_regs_other s k hk nonzero

/-- No instruction but the stores and SC writes memory. -/
theorem exec_mem_of_not_store {i : Instr} {s t : State} (h : exec i s = .next t) (reads : isStore i = false) :
    t.mem = s.mem := by
  have cannotStore : isStore i = true → t.mem = s.mem := fun st => by simp [st] at reads
  cases exec_effect h with
  | trap e => exact takeException_mem e s
  | store st => exact cannotStore st
  | storeWrite st => exact cannotStore st
  | writeControl _ _ _ _ _ _ u hu =>
    obtain ⟨same, -⟩ := writeControl_frame hu
    exact same
  | goto | write | link | readControl | halt | ret => rfl

/-- Settles O57, by the effects an instruction can have. -/
theorem onlyTheDestinationChanges : Obligations.OnlyTheDestinationChanges := by
  unfold Obligations.OnlyTheDestinationChanges
  intro s t i h
  exact ⟨fun k hk nonzero other => exec_regs_other h k hk nonzero other,
    fun reads a => by rw [exec_mem_of_not_store h reads]⟩

/-! ### WHAMI and the platform -/

/-- WHAMI, the platform's map and the PTE layout are the same (10_state R33, 00_scope R5). -/
def SamePlatform (s t : State) : Prop := t.whami = s.whami ∧ t.regions = s.regions ∧ t.pteLayout = s.pteLayout

theorem SamePlatform.refl (s : State) : SamePlatform s s := ⟨rfl, rfl, rfl⟩

theorem SamePlatform.trans {s t u : State} (first : SamePlatform s t) (second : SamePlatform t u) : SamePlatform s u := by
  obtain ⟨whami, regions, layout⟩ := first
  obtain ⟨whami', regions', layout'⟩ := second
  exact ⟨whami'.trans whami, regions'.trans regions, layout'.trans layout⟩

theorem samePlatform_takeException (e : Exc) (s : State) : SamePlatform s (takeException e s) :=
  ⟨takeException_whami e s, takeException_regions e s, takeException_pteLayout e s⟩

theorem exec_samePlatform {i : Instr} {s t : State} (h : exec i s = .next t) : SamePlatform s t := by
  cases exec_effect h with
  | trap e => exact samePlatform_takeException e s
  | writeControl _ _ _ _ _ _ u hu =>
    obtain ⟨-, -, whami, -, -, regions, layout, -⟩ := writeControl_frame hu
    exact ⟨whami, regions, layout⟩
  | goto | write | link | store | storeWrite | readControl | halt | ret => exact ⟨rfl, rfl, rfl⟩

theorem samePlatform_applyMove (m : EnvMove) (s : State) : SamePlatform s (applyMove m s) := by
  cases m with
  | interruptLine | nmi | reset => exact ⟨rfl, rfl, rfl⟩
  | processorStore pa w v =>
    simp only [applyMove, otherProcessorStore]
    split <;> exact ⟨rfl, rfl, rfl⟩
  | deviceStore pa w v =>
    simp only [applyMove, deviceWrite, State.deviceBytes]
    split
    · split <;> exact ⟨rfl, rfl, rfl⟩
    · exact .refl s

theorem samePlatform_applyMoves (l : List EnvMove) (s : State) : SamePlatform s (applyMoves l s) := by
  induction l generalizing s with
  | nil => exact .refl s
  | cons m rest ih => exact (samePlatform_applyMove m s).trans (ih (applyMove m s))

theorem samePlatform_beginStep (s : State) : SamePlatform s (beginStep s) := by
  unfold beginStep
  split
  · exact ⟨rfl, rfl, rfl⟩
  · exact samePlatform_applyMoves _ { s with fresh := s.fresh + 1, inputs := _ }

/-! ### The software registers -/

theorem sameSoftwareRegisters_takeException (e : Exc) (s : State) : SameSoftwareRegisters s (takeException e s) := by
  simp [SameSoftwareRegisters]

/-- Of all instructions only MTCR in kernel mode writes EB, a SCRATCH register or a TB index (10_state R34, R39, R42). -/
theorem exec_sameSoftwareRegisters {i : Instr} {s t : State} (h : exec i s = .next t) :
    SameSoftwareRegisters s t ∨ s.bitU = false ∧ ∃ cr rb, i = .mtcr cr rb := by
  cases exec_effect h with
  | trap e => exact .inl (sameSoftwareRegisters_takeException e s)
  | writeControl kernel cr rb mtcr => exact .inr ⟨kernel, cr, rb, mtcr⟩
  | goto | write | link | store | storeWrite | readControl | halt | ret =>
    exact .inl ⟨rfl, rfl, rfl, rfl, rfl, rfl, rfl, rfl, rfl⟩

/-! ### A step after the environment's moves -/

/-- What a step does after the environment's moves: but for the NMI count, the NMI mask counter and the record of device
accesses it waits, takes an exception or executes the instruction fetched. -/
theorem step_after_moves {s t : State} (h : step s = .next t) :
    ∃ u, (∃ pending mask log, u = { beginStep s with nmiPending := pending, nmiMask := mask, deviceLog := log }) ∧
      (t = u ∨ (∃ e, t = takeException e u) ∨
        ∃ i, fetchInstr (tickNmi (beginStep s)) = .ok i ∧ exec i u = .next t) := by
  rcases step_cases h with ⟨-, nmi⟩ | ⟨-, -, int⟩ | ⟨-, -, -, wait⟩ | ⟨-, -, -, run⟩
  · exact ⟨_, ⟨_, _, _, rfl⟩, .inr (.inl ⟨_, nmi⟩)⟩
  · exact ⟨_, ⟨_, _, _, rfl⟩, .inr (.inl ⟨_, int⟩)⟩
  · exact ⟨_, ⟨_, _, _, rfl⟩, .inl wait⟩
  · obtain ⟨log, trap | fetched⟩ := runInstruction_cases run
    · exact ⟨_, ⟨_, _, log, rfl⟩, .inr (.inl trap)⟩
    · exact ⟨_, ⟨_, _, log, rfl⟩, .inr (.inr fetched)⟩

/-- No step changes WHAMI or the platform, whatever the environment does (10_state R33, 00_scope R5). -/
theorem step_samePlatform {s t : State} (h : step s = .next t) : SamePlatform s t := by
  obtain ⟨u, ⟨_, _, _, hu⟩, outcome⟩ := step_after_moves h
  have begun : SamePlatform s u := (samePlatform_beginStep s).trans (by rw [hu]; exact ⟨rfl, rfl, rfl⟩)
  refine begun.trans ?_
  rcases outcome with rfl | ⟨e, rfl⟩ | ⟨i, -, run⟩
  · exact .refl t
  · exact samePlatform_takeException e u
  · exact exec_samePlatform run

theorem step_sameSoftwareRegisters {s t : State} (quiet : s.inputs = []) (h : step s = .next t) :
    SameSoftwareRegisters s t ∨
      s.bitU = false ∧ ∃ cr rb, fetchInstr (tickNmi (beginStep s)) = .ok (.mtcr cr rb) := by
  obtain ⟨u, ⟨_, _, _, hu⟩, outcome⟩ := step_after_moves h
  rw [beginStep_nil quiet] at hu
  subst hu
  rcases outcome with rfl | ⟨e, rfl⟩ | ⟨i, fetched, run⟩
  · exact .inl ⟨rfl, rfl, rfl, rfl, rfl, rfl, rfl, rfl, rfl⟩
  · exact .inl (sameSoftwareRegisters_takeException e _)
  · rcases exec_sameSoftwareRegisters run with same | ⟨kernel, cr, rb, rfl⟩
    · exact .inl same
    · exact .inr ⟨kernel, cr, rb, fetched⟩

/-- Settles O58, by what a step does after the environment's moves. -/
theorem softwareRegistersChangeOnlyByMtcr : Obligations.SoftwareRegistersChangeOnlyByMtcr := by
  unfold Obligations.SoftwareRegistersChangeOnlyByMtcr
  intro s t h
  obtain ⟨whami, regions, layout⟩ := step_samePlatform h
  exact ⟨whami, regions, layout, fun quiet => step_sameSoftwareRegisters quiet h⟩

/-! ### The invariant at reset -/

/-- Settles O54: memory and both TBs are empty after reset. -/
theorem resetHasTheInvariant : Obligations.ResetHasTheInvariant :=
  ⟨⟨List.Pairwise.nil, fun _ hc => absurd hc List.not_mem_nil⟩, Tb.wf_nil _, Tb.wf_nil _⟩

/-! ### Where MFCR and MTCR stop -/

theorem privileged_kernel {s : State} (kernel : s.bitU = false) (k : Result) : privileged s k = k := by
  simp [privileged, kernel]

theorem exec_mfcr_absent {s : State} (kernel : s.bitU = false) {n : CrNum} (absent : CtrlReg.ofNum n = none)
    (r : RegNum) : exec (.mfcr r n) s = .fault (.absentControlRegister n) := by
  simp only [exec, execMfcr, privileged_kernel kernel, absent]

theorem exec_mtcr_absent {s : State} (kernel : s.bitU = false) {n : CrNum} (absent : CtrlReg.ofNum n = none)
    (r : RegNum) : exec (.mtcr n r) s = .fault (.absentControlRegister n) := by
  simp only [exec, execMtcr, privileged_kernel kernel, absent]

/-- MTCR of a register that is not absent is that register's write (45_privileged R332). -/
theorem exec_mtcr_kernel {s : State} (kernel : s.bitU = false) {n : CrNum} {c : CtrlReg}
    (names : CtrlReg.ofNum n = some c) (r : RegNum) :
    exec (.mtcr n r) s =
      (writeControl c (s.readReg r) s).finish s fun t => .next t.reloadNmiMask.advance := by
  simp only [exec, execMtcr, privileged_kernel kernel, names]

/-- Command 00 with a bit set among 11:2 is refused (20_memory R111, log 27). -/
theorem tbCommand_refused {v : Word} (command : v.toNat % 4 = 0) (bits : v.toNat % 4096 ≠ 0) (l : PteLayout) (tb : Tb) :
    tbCommand l tb v = .refused .commandBits := by
  have low : v.extractLsb' 0 2 = 0#2 := by
    apply BitVec.eq_of_toNat_eq
    simpa [BitVec.extractLsb'_toNat] using command
  have middle : v.extractLsb' 2 10 ≠ 0#10 := by
    intro zero
    have := congrArg BitVec.toNat zero
    simp only [BitVec.extractLsb'_toNat, Nat.shiftRight_eq_div_pow, BitVec.toNat_ofNat] at this
    omega
  simp [tbCommand, low, middle]

/-- Settles O45, by the register each number names. -/
theorem controlRegisterStops : Obligations.ControlRegisterStops := by
  unfold Obligations.ControlRegisterStops
  intro s r kernel
  refine ⟨fun n hn => ?_, ?_, fun command bits => ⟨?_, ?_⟩⟩
  · have absent : CtrlReg.ofNum n = none := by
      revert n
      decide
    exact ⟨exec_mfcr_absent kernel absent r, exec_mtcr_absent kernel absent r⟩
  · exact exec_mtcr_kernel kernel (n := 1) rfl r
  · rw [exec_mtcr_kernel kernel (c := .tbCtrl .itb) rfl]
    simp [writeControl, commandTb, tbCommand_refused command bits]
  · rw [exec_mtcr_kernel kernel (c := .tbCtrl .dtb) rfl]
    simp [writeControl, commandTb, tbCommand_refused command bits]

/-! ### The pc after an instruction -/

/-- Every pc an instruction but JALR and RFE can leave. -/
inductive PcAfter (s : State) : Word → Prop where
  /-- the next instruction (10_state R27) -/
  | next : PcAfter s s.nextPc
  /-- a branch that is taken (41_branch R200) -/
  | branch (imm : BitVec 21) : PcAfter s (s.pc + branchOffset imm)
  /-- J and JAL (40_jump R190, R191) -/
  | jump (imm : BitVec 29) : PcAfter s (jumpTarget s.pc imm)
  /-- the handler of an exception (60_exceptions R355) -/
  | handler (c : Cause) : PcAfter s (vectorOf c s)

theorem pcAfter_takeException (e : Exc) (s : State) : PcAfter s (takeException e s).pc := by
  cases e with
  | plain c => exact .handler c
  | bus => exact .handler .bus
  | una => exact .handler .una
  | pageFault =>
    simp only [takeException]
    split <;> exact .handler (pageFaultCause _)
  | tbMiss =>
    simp only [takeException]
    split <;> exact .handler (tbMissCause _)

/-- An instruction that ends with an access: the handler, or what its continuation leaves. -/
theorem pcAfter_finish {α : Type} {r : Access α} {s t : State} {k : α → Result} (h : r.finish s k = .next t)
    (ok : ∀ a, r = .ok a → k a = .next t → PcAfter s t.pc) : PcAfter s t.pc := by
  rcases Access.finish_next h with ⟨a, answer, done⟩ | ⟨e, -, rfl⟩
  · exact ok a answer done
  · exact pcAfter_takeException e s

theorem pcAfter_privileged {s t : State} {k : Result} (h : privileged s k = .next t)
    (kernel : k = .next t → PcAfter s t.pc) : PcAfter s t.pc := by
  rcases privileged_next h with ⟨-, rfl⟩ | ⟨-, done⟩
  · exact pcAfter_takeException _ s
  · exact kernel done

/-- Writing a register and going on, from a state that an access left at the same pc. -/
theorem pcAfter_writeAndAdvance {s u t : State} {r : RegNum} {v : Word} (same : u.pc = s.pc)
    (h : writeAndAdvance r v u = .next t) : PcAfter s t.pc := by
  cases h
  rw [State.advance_pc, State.nextPc, State.writeReg_pc, same]
  exact .next

theorem memRead_pc {s : State} {va : Word} {w : Width} {r : Word × State} (h : memRead va w s = .ok r) :
    r.2.pc = s.pc := by
  obtain ⟨log, same⟩ := memRead_eq_ok h
  rw [same]

theorem memWrite_pc {s u : State} {va v : Word} {w : Width} (h : memWrite va w v s = .ok u) : u.pc = s.pc := by
  obtain ⟨p, -, ⟨log, rfl⟩ | ⟨-, rfl⟩⟩ := memWrite_eq_ok h
  · rfl
  · rfl

theorem pcAfter_loadInto {s t : State} {r : RegNum} {va : Word} {w : Width} (h : loadInto r va w s = .next t) :
    PcAfter s t.pc :=
  pcAfter_finish h fun _ read done => pcAfter_writeAndAdvance (memRead_pc read) done

theorem pcAfter_storeFrom {s t : State} {va v : Word} {w : Width} (h : storeFrom va w v s = .next t) :
    PcAfter s t.pc := by
  refine pcAfter_finish h fun u stored done => ?_
  cases done
  rw [State.advance_pc, State.nextPc, memWrite_pc stored]
  exact .next

theorem pcAfter_branchIf {s t : State} {taken : Bool} {imm : BitVec 21} (h : branchIf taken imm s = .next t) :
    PcAfter s t.pc := by
  cases h
  cases taken
  · exact .next
  · exact .branch imm

theorem pcAfter_ll {s t : State} {ra rb : RegNum} (h : execLl ra rb s = .next t) : PcAfter s t.pc := by
  refine pcAfter_finish h fun p _ rest => pcAfter_finish rest fun r read done => ?_
  obtain ⟨log, same⟩ := physRead_eq_ok read
  exact pcAfter_writeAndAdvance (by rw [same]) done

theorem pcAfter_sc {s t : State} {ra rb rc : RegNum} (h : execSc ra rb rc s = .next t) : PcAfter s t.pc := by
  unfold execSc at h
  split at h
  · exact pcAfter_finish h fun u stored done => pcAfter_writeAndAdvance (memWrite_pc stored) done
  · exact pcAfter_writeAndAdvance rfl h

theorem pcAfter_mfcr {s t : State} {ra : RegNum} {cr : CrNum} (h : execMfcr ra cr s = .next t) : PcAfter s t.pc := by
  refine pcAfter_privileged h fun done => ?_
  split at done
  · cases done
    exact .next
  · cases done

theorem pcAfter_mtcr {s t : State} {cr : CrNum} {rb : RegNum} (h : execMtcr cr rb s = .next t) : PcAfter s t.pc := by
  refine pcAfter_privileged h fun rest => ?_
  split at rest
  · refine pcAfter_finish rest fun u written done => ?_
    cases done
    obtain ⟨-, pc, -⟩ := writeControl_frame written
    rw [State.advance_pc, State.nextPc, State.reloadNmiMask_pc, pc]
    exact .next
  · cases rest

/-- Where every instruction but JALR and RFE leaves the pc. -/
theorem exec_pcAfter {i : Instr} {s t : State} (jalr : ∀ ra rb imm, i ≠ .jalr ra rb imm) (rfe : i ≠ .rfe)
    (h : exec i s = .next t) : PcAfter s t.pc := by
  cases i with
  | j imm | jal imm =>
    cases h
    exact .jump imm
  | beq | bne | blt | bgt | ble | bge | bpe | bpo => exact pcAfter_branchIf h
  | loadByte | loadInt | loadLong | loadByteX | loadIntX | loadLongX => exact pcAfter_loadInto h
  | storeByte | storeInt | storeLong | storeByteSmall | storeIntSmall | storeLongSmall | storeByteX | storeIntX
  | storeLongX => exact pcAfter_storeFrom h
  | jalr ra rb imm => exact absurd rfl (jalr ra rb imm)
  | ll => exact pcAfter_ll h
  | sc => exact pcAfter_sc h
  | pause | mb | wmb =>
    cases h
    exact .next
  | brk | sys =>
    cases h
    exact pcAfter_takeException _ s
  | mfcr => exact pcAfter_mfcr h
  | mtcr => exact pcAfter_mtcr h
  | hlt =>
    refine pcAfter_privileged h fun done => ?_
    cases done
    exact .next
  | rfe => exact absurd rfl rfe
  | addi | subi | slti | sltiSigned | andi | xori | ori | lui | lsh | rsh | ash | ror | add | sub | slt | sltSigned
  | and | xor | or | nor | mul | div | divSigned | mod => exact pcAfter_writeAndAdvance rfl h

theorem branchOffset_aligned (imm : BitVec 21) : (branchOffset imm).toNat % 4 = 0 := by
  rw [branchOffset, BitVec.toNat_shiftLeft, Nat.shiftLeft_eq]
  omega

theorem jumpTarget_aligned (pc : Word) (imm : BitVec 29) : (jumpTarget pc imm).toNat % 4 = 0 := by
  rw [jumpTarget, BitVec.toNat_append, Nat.shiftLeft_eq]
  simp

/-- From an aligned pc with a page-aligned EB each of these pcs is a multiple of four (10_state R28). -/
theorem PcAfter.aligned {s : State} {p : Word} (h : PcAfter s p) (pc : s.pc.toNat % 4 = 0)
    (page : s.eb.toNat % 4096 = 0) : p.toNat % 4 = 0 := by
  cases h with
  | next =>
    simp only [State.nextPc, BitVec.toNat_add, BitVec.reduceToNat]
    omega
  | branch imm =>
    have offset := branchOffset_aligned imm
    rw [BitVec.toNat_add]
    omega
  | jump imm => exact jumpTarget_aligned s.pc imm
  | handler c =>
    rw [vectorOf_toNat c s page]
    omega

/-- Settles O59, by where an instruction can leave the pc. -/
theorem pcStaysAligned : Obligations.PcStaysAligned := by
  unfold Obligations.PcStaysAligned
  intro s t i pc page jalr rfe h
  exact (exec_pcAfter jalr rfe h).aligned pc page

end Sys2Proof.Machine
end

section
/-! Every step keeps memory and both TBs in their canonical form (spec/20_memory.md R80, R97, R108, R111). -/

namespace Sys2Proof.Machine

/-- An instruction's effect on memory and the TBs is none, a store, or a control register write. -/
theorem Inv_exec {i : Instr} {s t : State} (inv : Inv s) (h : exec i s = .next t) : Inv t := by
  cases exec_effect h with
  | trap e => exact Inv_takeException inv e
  | store _ pa w v => exact Inv_ownStore inv pa w v
  | storeWrite _ pa w v => exact Inv_ownStore inv pa w v
  | writeControl _ _ _ _ _ _ u written =>
    obtain ⟨mem, itb, dtb⟩ := inv
    obtain ⟨sameMem, -⟩ := writeControl_frame written
    have tbs : Tb.wf u.itb Config.itbSize ∧ Tb.wf u.dtb Config.dtbSize := writeControl_tb_wf written itb dtb
    exact ⟨show Memory.wf u.mem from sameMem ▸ mem, tbs⟩
  | goto | write | link | readControl | halt | ret => exact inv

/-- Settles O53, by what a step does after the environment's moves. -/
theorem stepKeepsTheInvariant : Obligations.StepKeepsTheInvariant := by
  unfold Obligations.StepKeepsTheInvariant
  intro s t inv h
  obtain ⟨u, ⟨_, _, _, same⟩, outcome⟩ := step_after_moves h
  have begun : Inv u := by
    rw [same]
    exact Inv_of_same (Inv_beginStep inv) rfl rfl rfl
  rcases outcome with rfl | ⟨e, rfl⟩ | ⟨i, -, run⟩
  · exact begun
  · exact Inv_takeException begun e
  · exact Inv_exec begun run

end Sys2Proof.Machine
end

section
/-! The exceptions of fetch and decoding, and what a fetch sees (spec/20_memory.md R90, R121, R135; spec/30_encoding.md
R162; spec/45_privileged_101001.md R338). -/

namespace Sys2Proof.Machine

/-! ### The normal entry, field by field -/

/-- RS after a normal entry (60_exceptions R356 to R358). -/
theorem pushed_rsEntered (code : BitVec 4) (rs : Word) : Pushed code false rs (rsEntered code rs) := by
  have bit := rsEntered_bit code rs
  refine ⟨?_, ?_, ?_, ?_, bit 3 (by decide), bit 2 (by decide), bit 1 (by decide), bit 0 (by decide)⟩
  all_goals
    apply BitVec.eq_of_getLsbD_eq
    intro i hi
    simp only [BitVec.getLsbD_extractLsb', hi, decide_true, Bool.true_and]
    rw [bit _ (by omega)]
    split_ifs <;> first | omega | (congr 1 <;> omega)

/-- Everything the normal entry does (60_exceptions R356 to R359, R365). -/
theorem normalEntry_spec (c : Cause) (bad : Option Word) (s : State) :
    NormalEntry c.code (savedPc c s) bad s (normalEntry c bad s) :=
  ⟨rfl, rfl, pushed_rsEntered c.code s.rs, vectorOf_toNat c s, rfl, rfl, fun _ => rfl, rfl⟩

/-! ### The opcode of a word that is no instruction -/

theorem opField_eq_iff (w : Word) : opField w = 0x29#6 ↔ w.toNat % 64 = 0x29 := by
  rw [← BitVec.toNat_inj, opField, BitVec.extractLsb'_toNat, Nat.shiftRight_zero]
  rfl

/-- The low three bits of opcode 0x29 select the register operate format (30_encoding R151). -/
theorem decode_of_opField {w : Word} (op : opField w = 0x29#6) : decode w = decode29 w := by
  have format : w.extractLsb' 0 3 = 1#3 := by
    rw [opField_eq_iff] at op
    apply BitVec.eq_of_toNat_eq
    simp only [BitVec.extractLsb'_toNat, Nat.shiftRight_zero, BitVec.toNat_ofNat]
    omega
  simp only [decode, format, decodeReg, op]

theorem decodeBranch_error {w : Word} {e : DecodeError} (h : decodeBranch w = .error e) :
    ∃ op, e = .unassignedOpcode op := by
  unfold decodeBranch at h
  split at h <;> cases h
  exact ⟨_, rfl⟩

theorem decodeImm_error {w : Word} {e : DecodeError} (h : decodeImm w = .error e) :
    ∃ op, e = .unassignedOpcode op := by
  unfold decodeImm at h
  split at h <;> cases h
  exact ⟨_, rfl⟩

theorem decode39_error {w : Word} {e : DecodeError} (h : decode39 w = .error e) : ∃ f, e = .unassignedFunct39 f := by
  unfold decode39 at h
  split at h <;> cases h
  exact ⟨_, rfl⟩

theorem decode31_error {w : Word} {e : DecodeError} (h : decode31 w = .error e) : ∃ f, e = .unassignedFunct31 f := by
  unfold decode31 at h
  split at h <;> cases h
  exact ⟨_, rfl⟩

theorem decode29_error {w : Word} {e : DecodeError} (h : decode29 w = .error e) : ∃ f, e = .unassignedFunct29 f := by
  unfold decode29 at h
  split at h <;> cases h
  exact ⟨_, rfl⟩

theorem decodeReg_error {w : Word} {e : DecodeError} (h : decodeReg w = .error e) :
    opField w = 0x29#6 ∨ (∃ op, e = .unassignedOpcode op) ∨ (∃ f, e = .unassignedFunct39 f) ∨
      ∃ f, e = .unassignedFunct31 f := by
  unfold decodeReg at h
  split at h
  · exact .inr (.inr (.inl (decode39_error h)))
  · exact .inr (.inr (.inr (decode31_error h)))
  · exact .inl ‹_›
  · cases h
    exact .inr (.inl ⟨_, rfl⟩)

/-- A rejected word of another opcode is rejected for its opcode, or for its function code under 0x39 or 0x31
(30_encoding R162). -/
theorem decode_error {w : Word} {e : DecodeError} (h : decode w = .error e) :
    opField w = 0x29#6 ∨ (∃ op, e = .unassignedOpcode op) ∨ (∃ f, e = .unassignedFunct39 f) ∨
      ∃ f, e = .unassignedFunct31 f := by
  unfold decode at h
  split at h
  · cases h
  · cases h
  · exact .inr (.inl (decodeBranch_error h))
  · exact decodeReg_error h
  · exact .inr (.inl (decodeImm_error h))

/-- What a word that is no instruction raises, by its opcode (30_encoding R162, 45_privileged R338). -/
theorem decodeTrap_of_error {w : Word} {e : DecodeError} (h : decode w = .error e) (s : State) :
    decodeTrap e s = .plain (if w.toNat % 64 = 0x29 ∧ s.bitU = true then .prv else .inv) := by
  by_cases op : opField w = 0x29#6
  · obtain ⟨f, rfl⟩ := decode29_error (decode_of_opField op ▸ h)
    simp [decodeTrap, (opField_eq_iff w).mp op]
  · have other : ¬(w.toNat % 64 = 0x29 ∧ s.bitU = true) := fun both => op ((opField_eq_iff w).mpr both.1)
    rw [if_neg other]
    rcases (decode_error h).resolve_left op with ⟨_, rfl⟩ | ⟨_, rfl⟩ | ⟨_, rfl⟩ <;> rfl

/-! ### Running an instruction that is not fetched or not decoded -/

theorem fetchWord_of_not_aligned {s : State} (h : s.pc.toNat % 4 ≠ 0) : fetchWord s = .trap (.una s.pc) := by
  rw [fetchWord, resolve_of_not_aligned (w := .long) h, Access.bind_trap]

theorem fetchWord_pc_mode {s u : State} {w : Word} (h : fetchWord s = .ok (w, u)) :
    u.pc = s.pc ∧ u.bitU = s.bitU := by
  obtain ⟨log, same⟩ := fetchWord_eq_ok h
  subst same
  exact ⟨rfl, rfl⟩

/-- A fetch's exception is taken from the unchanged state (20_memory R91). -/
theorem runInstruction_of_fetch_trap {s : State} {e : Exc} (h : fetchWord s = .trap e) :
    runInstruction s = .next (takeException e s) := by
  rw [runInstruction, h, Access.finish_trap]

theorem runInstruction_of_decode_error {s u : State} {w : Word} {e : DecodeError} (fetched : fetchWord s = .ok (w, u))
    (rejected : decode w = .error e) : runInstruction s = .next (takeException (decodeTrap e u) u) := by
  rw [runInstruction, fetched, Access.finish_ok, decodeFetched, decodeBytes_bytesOfWord, rejected]
  rfl

/-- Settles O6, by where the instruction stops: at the alignment of its pc, in its fetch, or in decoding. -/
theorem fetchAndDecodeExceptions : Obligations.FetchAndDecodeExceptions := by
  unfold Obligations.FetchAndDecodeExceptions
  intro s
  refine ⟨fun misaligned => ?_, fun e trap => runInstruction_of_fetch_trap trap, fun w u e fetched rejected => ?_⟩
  · exact ⟨_, runInstruction_of_fetch_trap (fetchWord_of_not_aligned misaligned), normalEntry_spec .una _ s⟩
  · refine ⟨_, runInstruction_of_decode_error fetched rejected, ?_⟩
    obtain ⟨pc, mode⟩ := fetchWord_pc_mode fetched
    rw [decodeTrap_of_error rejected, mode, ← pc]
    split
    · exact normalEntry_spec .prv none u
    · exact normalEntry_spec .inv none u

/-! ### What a read of memory gives -/

/-- A read sees memory's bytes or an older copy's (20_memory R121, R128). -/
theorem readsAs_seenThrough (copies : List StaleCopy) (n : Nat) (m : Memory) {pa : Word} {w : Width} (bypass : Bool)
    (h : pa.toNat % w.bytes = 0) : ReadsAs copies m pa w bypass (seenThrough copies n m pa w bypass) := by
  rcases seenThrough_cases copies n m pa w bypass h with current | ⟨cached, c, hc, word, older⟩
  · rw [current]
    exact ⟨Memory.readLE_lt m pa.toNat w, .inl (holdsLE_readLE m pa.toNat w)⟩
  · rw [older]
    refine ⟨?_, .inr ⟨cached, c, hc, word, lane_toNat c.word pa.toNat w⟩⟩
    rw [lane_toNat]
    exact Nat.mod_lt _ (Nat.pow_pos (by decide))

/-- A fetch from an aligned pc that translates is the physical fetch (20_memory R90). -/
theorem fetchWord_of_translated {s : State} {pa : Word} {bypass : Bool} (al : s.pc.toNat % 4 = 0)
    (tr : translateVa s.pc .fetch s = .ok (pa, bypass)) : fetchWord s = physFetch pa bypass s := by
  rw [fetchWord, resolve_of_aligned (w := .long) al, tr, Access.bind_ok]

theorem physFetch_empty {s : State} {pa : Word} (h : regionAt s.regions pa.toNat = .empty) (bypass : Bool) :
    physFetch pa bypass s = .trap (.bus pa) := by
  simp only [physFetch, h]

/-- A device's answer to a fetch: a bus error, or a free word with at most one entry in the record (log 8). -/
theorem physFetch_device {s : State} {pa : Word} {effect : Bool} (h : regionAt s.regions pa.toNat = .device effect)
    (bypass : Bool) :
    physFetch pa bypass s = .trap (.bus pa) ∨
      ∃ w log, LogsAccess ⟨.fetch, pa, .long, w, effect⟩ bypass s.deviceLog log ∧
        physFetch pa bypass s = .ok (w, { s with deviceLog := log }) := by
  simp only [physFetch, h]
  rcases deviceAnswer_cases ⟨.fetch, pa, .long, deviceValue true .long s, effect⟩ bypass s with
    bus | ⟨log, logs, answer⟩
  · exact .inl bus
  · exact .inr ⟨_, log, logs, answer⟩

/-- Settles O25, by what owns the physical address. -/
theorem fetchReadsMemoryOrAnOldCopy : Obligations.FetchReadsMemoryOrAnOldCopy := by
  unfold Obligations.FetchReadsMemoryOrAnOldCopy
  intro s pa bypass al tr
  rw [fetchWord_of_translated al tr]
  refine ⟨fun memory => ?_, fun empty => physFetch_empty empty bypass,
    fun effect device => physFetch_device device bypass⟩
  have aligned : pa.toNat % Width.long.bytes = 0 := translateVa_aligned .long tr al
  exact ⟨_, physFetch_memory memory bypass, readsAs_seenThrough _ _ _ bypass aligned⟩

end Sys2Proof.Machine
end

section
/-! The data accesses of loads, stores, LL and SC: where they do not reach RAM, and a load after a store to the same
place (spec/20_memory.md R83 to R91, R123 to R137). -/

namespace Sys2Proof.Machine

/-! ### An instruction's access -/

theorem scaledOffset_byte (imm : BitVec 16) : scaledOffset .byte imm = BitVec.ofNat 32 imm.toNat := by
  simp only [scaledOffset, zext16]
  bv_omega

theorem scaledOffset_int (imm : BitVec 16) : scaledOffset .int imm = BitVec.ofNat 32 (imm.toNat * 2) := by
  simp only [scaledOffset, zext16]
  bv_omega

theorem scaledOffset_long (imm : BitVec 16) : scaledOffset .long imm = BitVec.ofNat 32 (imm.toNat * 4) := by
  simp only [scaledOffset, zext16]
  bv_omega

/-- The six loads are the shared load at their address and width (42_imm_operate R231 to R233, 43_reg_operate R261 to
R263). -/
theorem exec_of_loadOf {s : State} {i : Instr} {ra : RegNum} {va : Word} {w : Width}
    (h : loadOf s i = some (ra, va, w)) : exec i s = loadInto ra va w s := by
  cases i with
  | loadByteX | loadIntX | loadLongX =>
    cases h
    rfl
  | loadByte =>
    cases h
    rw [← scaledOffset_byte]
    rfl
  | loadInt =>
    cases h
    rw [← scaledOffset_int]
    rfl
  | loadLong =>
    cases h
    rw [← scaledOffset_long]
    rfl
  | _ => cases h

/-- The nine stores are the shared store of their data (42_imm_operate R235 to R241, 43_reg_operate R264 to R266). -/
theorem exec_of_storeOf {s : State} {i : Instr} {va data : Word} {w : Width} (h : storeOf s i = some (va, w, data)) :
    exec i s = storeFrom va w data s := by
  cases i with
  | storeByteX | storeIntX | storeLongX =>
    cases h
    rfl
  | storeByte | storeByteSmall =>
    cases h
    rw [← scaledOffset_byte]
    rfl
  | storeInt | storeIntSmall =>
    cases h
    rw [← scaledOffset_int]
    rfl
  | storeLong | storeLongSmall =>
    cases h
    rw [← scaledOffset_long]
    rfl
  | _ => cases h

theorem storeOf_of_loadOf {s : State} {i : Instr} {x : RegNum × Word × Width} (h : loadOf s i = some x) :
    storeOf s i = none := by
  cases i with
  | loadByte | loadInt | loadLong | loadByteX | loadIntX | loadLongX => rfl
  | _ => cases h

/-- The four kinds of instruction that access data. -/
theorem accessOf_cases {s : State} {i : Instr} {va : Word} {w : Width} {kind : AccessKind}
    (h : accessOf s i = some (va, w, kind)) :
    (∃ ra, loadOf s i = some (ra, va, w) ∧ kind = .read) ∨
    (∃ data, storeOf s i = some (va, w, data) ∧ kind = .write) ∨
    (∃ ra rb, i = .ll ra rb ∧ va = s.readReg rb ∧ w = .long ∧ kind = .read) ∨
    (∃ ra rb rc, i = .sc ra rb rc ∧ s.locked = true ∧ va = s.readReg rb ∧ w = .long ∧ kind = .write) := by
  unfold accessOf at h
  split at h
  · rename_i load
    cases h
    exact .inl ⟨_, load, rfl⟩
  · rename_i store
    cases h
    exact .inr (.inl ⟨_, store, rfl⟩)
  · split at h
    · cases h
      exact .inr (.inr (.inl ⟨_, _, rfl, rfl, rfl, rfl⟩))
    · split at h
      · cases h
        exact .inr (.inr (.inr ⟨_, _, _, rfl, ‹_›, rfl, rfl, rfl⟩))
      · cases h
    · cases h

/-- An access that ends an instruction, after the part before it. -/
theorem Access.finish_bind {α β : Type} (r : Access α) (k : α → Access β) (s : State) (f : β → Result) :
    (r.bind k).finish s f = r.finish s fun a => (k a).finish s f := by
  cases r <;> rfl

theorem exec_load_eq {s : State} {i : Instr} {ra : RegNum} {va : Word} {w : Width}
    (h : loadOf s i = some (ra, va, w)) :
    exec i s =
      (resolve va w .read s).finish s fun p =>
        (physRead p.1 w p.2 s).finish s fun r => writeAndAdvance ra r.1 r.2 := by
  rw [exec_of_loadOf h, loadInto, memRead, Access.finish_bind]

theorem exec_store_eq {s : State} {i : Instr} {va data : Word} {w : Width} (h : storeOf s i = some (va, w, data)) :
    exec i s =
      (resolve va w .write s).finish s fun p => (physWrite p.1 w data p.2 s).finish s fun t => .next t.advance := by
  rw [exec_of_storeOf h, storeFrom, memWrite, Access.finish_bind]

theorem exec_ll_eq (s : State) (ra rb : RegNum) :
    exec (.ll ra rb) s =
      (resolve (s.readReg rb) .long .read s).finish s fun p =>
        (physRead p.1 .long p.2 s).finish s fun r =>
          writeAndAdvance ra r.1 { r.2 with locked := true, lockedAddr := p.1 } := rfl

theorem exec_sc_eq {s : State} (locked : s.locked = true) (ra rb rc : RegNum) :
    exec (.sc ra rb rc) s =
      (resolve (s.readReg rb) .long .write s).finish s fun p =>
        (physWrite p.1 .long (s.readReg rc) p.2 s).finish s fun t => writeAndAdvance ra 1 t := by
  simp only [exec, execSc, locked, if_true, memWrite, Access.finish_bind]
  rfl

/-! ### What answers where RAM does not -/

theorem physRead_empty {s : State} {pa : Word} (h : regionAt s.regions pa.toNat = .empty) (w : Width) (bypass : Bool) :
    physRead pa w bypass s = .trap (.bus pa) := by
  simp only [physRead, h]

theorem physWrite_empty {s : State} {pa : Word} (h : regionAt s.regions pa.toNat = .empty) (w : Width) (v : Word)
    (bypass : Bool) : physWrite pa w v bypass s = .trap (.bus pa) := by
  simp only [physWrite, h]

theorem and_mask_toNat (v : Word) (w : Width) : (v &&& w.mask).toNat = v.toNat % 256 ^ w.bytes := by
  have pow : 256 ^ w.bytes = 2 ^ (8 * w.bytes) := (Nat.pow_mul 2 8 w.bytes).symm
  rw [BitVec.toNat_and, width_mask_toNat, pow, Nat.and_two_pow_sub_one_eq_mod]

/-- A device's answer to a read: a bus error, or a free value within the width (log 8). -/
theorem physRead_device {s : State} {pa : Word} {effect : Bool} (h : regionAt s.regions pa.toNat = .device effect)
    (w : Width) (bypass : Bool) :
    physRead pa w bypass s = .trap (.bus pa) ∨
      ∃ v log, v.toNat < 256 ^ w.bytes ∧ LogsAccess ⟨.read, pa, w, v, effect⟩ bypass s.deviceLog log ∧
        physRead pa w bypass s = .ok (v, { s with deviceLog := log }) := by
  simp only [physRead, h]
  rcases deviceAnswer_cases ⟨.read, pa, w, deviceValue false w s, effect⟩ bypass s with
    bus | ⟨log, logs, answer⟩
  · exact .inl bus
  · refine .inr ⟨_, log, ?_, logs, answer⟩
    rw [deviceValue, and_mask_toNat]
    exact Nat.mod_lt _ (Nat.pow_pos (by decide))

/-- A device's answer to a store: a bus error, or it completes it (log 8). -/
theorem physWrite_device {s : State} {pa : Word} {effect : Bool} (h : regionAt s.regions pa.toNat = .device effect)
    (w : Width) (v : Word) (bypass : Bool) :
    physWrite pa w v bypass s = .trap (.bus pa) ∨
      ∃ log, LogsAccess ⟨.write, pa, w, v &&& w.mask, true⟩ bypass s.deviceLog log ∧
        physWrite pa w v bypass s = .ok { s with deviceLog := log } := by
  simp only [physWrite, h]
  rcases deviceAnswer_cases ⟨.write, pa, w, v &&& w.mask, true⟩ bypass s with bus | ⟨log, logs, answer⟩
  · exact .inl (by rw [bus, Access.bind_trap])
  · exact .inr ⟨log, logs, by rw [answer, Access.bind_ok]⟩

/-- A store to ROM: a bus error, or no effect (log 9). -/
theorem physWrite_rom {s : State} {pa : Word} (h : regionAt s.regions pa.toNat = .rom) (w : Width) (v : Word)
    (bypass : Bool) : physWrite pa w v bypass s = .trap (.bus pa) ∨ physWrite pa w v bypass s = .ok s := by
  simp only [physWrite, h]
  split
  · exact .inl rfl
  · exact .inr rfl

/-! ### How an access that reaches no RAM completes -/

/-- Writing a register and going on writes that register and nothing else but the pc (10_state R23, R27). -/
theorem writesReg_writeReg_advance (s : State) (r : RegNum) (v : Word) : WritesReg r v s (s.writeReg r v).advance :=
  ⟨readReg_writeReg_same s r v, fun _ other => readReg_writeReg_other s v other, regs_writeReg_other s r v,
    fun _ => rfl, rfl⟩

section
variable {s : State} {i : Instr} {pa v : Word} {log : List DeviceAccess}

theorem completesElsewhere_load {ra : RegNum} {va : Word} {w : Width} (h : loadOf s i = some (ra, va, w))
    (run : exec i s = writeAndAdvance ra v { s with deviceLog := log }) : CompletesElsewhere i s pa v log := by
  refine ⟨fun ra' va' w' load => ?_, fun va' w' data store => ?_, fun ra' rb ll => ?_, fun ra' rb rc sc => ?_⟩
  · obtain ⟨rfl, -⟩ : ra = ra' ∧ _ := by simpa using h.symm.trans load
    exact ⟨_, run, writesReg_writeReg_advance _ ra v, rfl⟩
  · cases (storeOf_of_loadOf h).symm.trans store
  · subst ll
    cases h
  · subst sc
    cases h

theorem completesElsewhere_store {va data : Word} {w : Width} (h : storeOf s i = some (va, w, data))
    (run : exec i s = .next ({ s with deviceLog := log } : State).advance) :
    CompletesElsewhere i s pa (data &&& w.mask) log := by
  refine ⟨fun ra va' w' load => ?_, fun va' w' data' store => ?_, fun ra rb ll => ?_, fun ra rb rc sc => ?_⟩
  · cases (storeOf_of_loadOf load).symm.trans h
  · cases h.symm.trans store
    exact ⟨and_mask_toNat data w, run⟩
  · subst ll
    cases h
  · subst sc
    cases h

theorem completesElsewhere_ll {ra rb : RegNum}
    (run : exec (.ll ra rb) s =
      writeAndAdvance ra v { s with deviceLog := log, locked := true, lockedAddr := pa }) :
    CompletesElsewhere (.ll ra rb) s pa v log := by
  refine ⟨fun _ _ _ load => ?_, fun _ _ _ store => ?_, fun ra' rb' ll => ?_, fun _ _ _ sc => ?_⟩
  · cases load
  · cases store
  · cases ll
    exact ⟨_, run, writesReg_writeReg_advance _ ra v, rfl⟩
  · cases sc

theorem completesElsewhere_sc {ra rb rc : RegNum}
    (run : exec (.sc ra rb rc) s = writeAndAdvance ra 1 { s with deviceLog := log }) :
    CompletesElsewhere (.sc ra rb rc) s pa (s.readReg rc &&& Width.long.mask) log := by
  have whole : s.readReg rc &&& Width.long.mask = s.readReg rc := BitVec.and_allOnes
  refine ⟨fun _ _ _ load => ?_, fun _ _ _ store => ?_, fun _ _ ll => ?_, fun ra' rb' rc' sc => ?_⟩
  · cases load
  · cases store
  · cases ll
  · cases sc
    exact ⟨whole, _, run, writesReg_writeReg_advance _ ra 1, rfl⟩

end

/-- What an instruction's access does at a physical address that RAM does not answer (20_memory R135, R137; logs 8, 9,
44). -/
structure MissesRam (i : Instr) (s : State) (kind : AccessKind) (w : Width) (pa : Word) (bypass : Bool) : Prop where
  empty : regionAt s.regions pa.toNat = .empty → exec i s = .next (takeException (.bus pa) s)
  device (effect : Bool) : regionAt s.regions pa.toNat = .device effect →
    exec i s = .next (takeException (.bus pa) s) ∨
      ∃ v log, v.toNat < 256 ^ w.bytes ∧
        LogsAccess ⟨kind, pa, w, v, effect || kind == .write⟩ bypass s.deviceLog log ∧ CompletesElsewhere i s pa v log
  rom : regionAt s.regions pa.toNat = .rom → kind = .write →
    exec i s = .next (takeException (.bus pa) s) ∨ ∃ v, CompletesElsewhere i s pa v s.deviceLog

theorem missesRam_read {i : Instr} {s : State} {w : Width} {pa : Word} {bypass : Bool} {k : Word × State → Result}
    (run : exec i s = (physRead pa w bypass s).finish s k)
    (completes : ∀ v log, exec i s = k (v, { s with deviceLog := log }) → CompletesElsewhere i s pa v log) :
    MissesRam i s .read w pa bypass where
  empty h := by rw [run, physRead_empty h, Access.finish_trap]
  device effect h := by
    rcases physRead_device h w bypass with bus | ⟨v, log, small, logs, answer⟩
    · exact .inl (by rw [run, bus, Access.finish_trap])
    · refine .inr ⟨v, log, small, ?_, completes v log (by rw [run, answer, Access.finish_ok])⟩
      rwa [show (effect || AccessKind.read == .write) = effect from Bool.or_false effect]
  rom _ write := nomatch write

theorem missesRam_write {i : Instr} {s : State} {w : Width} {pa data : Word} {bypass : Bool} {k : State → Result}
    (run : exec i s = (physWrite pa w data bypass s).finish s k)
    (completes : ∀ log, exec i s = k { s with deviceLog := log } →
      CompletesElsewhere i s pa (data &&& w.mask) log) :
    MissesRam i s .write w pa bypass where
  empty h := by rw [run, physWrite_empty h, Access.finish_trap]
  device effect h := by
    rcases physWrite_device h w data bypass with bus | ⟨log, logs, answer⟩
    · exact .inl (by rw [run, bus, Access.finish_trap])
    · refine .inr ⟨_, log, ?_, ?_, completes log (by rw [run, answer, Access.finish_ok])⟩
      · rw [and_mask_toNat]
        exact Nat.mod_lt _ (Nat.pow_pos (by decide))
      · rwa [show (effect || AccessKind.write == .write) = true from Bool.or_true effect]
  rom h _ := by
    rcases physWrite_rom h w data bypass with bus | ignored
    · exact .inl (by rw [run, bus, Access.finish_trap])
    · exact .inr ⟨_, completes s.deviceLog (by rw [run, ignored, Access.finish_ok])⟩

/-- Every data access ends the instruction that makes it (20_memory R87, R91), and where it is translated and RAM does
not answer, the platform says how. -/
theorem exec_access {s : State} {i : Instr} {va : Word} {w : Width} {kind : AccessKind}
    (h : accessOf s i = some (va, w, kind)) :
    (∃ k, exec i s = (resolve va w kind s).finish s k) ∧
      ∀ pa bypass, resolve va w kind s = .ok (pa, bypass) → MissesRam i s kind w pa bypass := by
  rcases accessOf_cases h with ⟨ra, load, rfl⟩ | ⟨data, store, rfl⟩ | ⟨ra, rb, rfl, rfl, rfl, rfl⟩ |
    ⟨ra, rb, rc, rfl, locked, rfl, rfl, rfl⟩
  · refine ⟨⟨_, exec_load_eq load⟩, fun pa bypass tr => ?_⟩
    exact missesRam_read (by rw [exec_load_eq load, tr, Access.finish_ok]) fun _ _ => completesElsewhere_load load
  · refine ⟨⟨_, exec_store_eq store⟩, fun pa bypass tr => ?_⟩
    exact missesRam_write (by rw [exec_store_eq store, tr, Access.finish_ok]) fun _ => completesElsewhere_store store
  · refine ⟨⟨_, exec_ll_eq s ra rb⟩, fun pa bypass tr => ?_⟩
    exact missesRam_read (by rw [exec_ll_eq, tr, Access.finish_ok]) fun _ _ => completesElsewhere_ll
  · refine ⟨⟨_, exec_sc_eq locked ra rb rc⟩, fun pa bypass tr => ?_⟩
    exact missesRam_write (by rw [exec_sc_eq locked, tr, Access.finish_ok]) fun _ => completesElsewhere_sc

theorem normalEntry_of_bus {r : Result} {s : State} {pa : Word} (h : r = .next (takeException (.bus pa) s)) :
    ∃ t, r = .next t ∧ NormalEntry 4 s.pc (some pa) s t :=
  ⟨_, h, normalEntry_spec .bus (some pa) s⟩

/-- Settles O23, by how far the access gets: its alignment, its translation, what owns the physical address. -/
theorem accessesThatDoNotReachMemory : Obligations.AccessesThatDoNotReachMemory := by
  unfold Obligations.AccessesThatDoNotReachMemory
  intro s i va w kind h
  obtain ⟨⟨k, run⟩, misses⟩ := exec_access h
  refine ⟨fun misaligned => ?_, fun al => ?_⟩
  · rw [run, resolve_of_not_aligned misaligned]
    exact ⟨_, rfl, normalEntry_spec .una (some va) s⟩
  rw [resolve_of_aligned al] at run misses
  refine ⟨fun e trap => by rw [run, trap, Access.finish_trap], fun f fault => by rw [run, fault, Access.finish_fault],
    fun r refused => by rw [run, refused, Access.finish_refused], fun pa bypass tr => ?_⟩
  have out := misses pa bypass tr
  exact ⟨fun empty => normalEntry_of_bus (out.empty empty),
    fun effect device => (out.device effect device).imp_left normalEntry_of_bus,
    fun rom write => (out.rom rom write).imp_left normalEntry_of_bus⟩

/-! ### A load after a store to the same place -/

/-- Two numbers of an access's width with the same bytes. -/
theorem eq_of_bytes (w : Width) {x y : Nat} (hx : x < 256 ^ w.bytes) (hy : y < 256 ^ w.bytes)
    (h : ∀ k, k < w.bytes → x / 256 ^ k % 256 = y / 256 ^ k % 256) : x = y := by
  cases w <;> simp only [Width.bytes] at hx hy h
  · have b0 := h 0 (by decide)
    omega
  · have b0 := h 0 (by decide)
    have b1 := h 1 (by decide)
    omega
  · have b0 := h 0 (by decide)
    have b1 := h 1 (by decide)
    have b2 := h 2 (by decide)
    have b3 := h 3 (by decide)
    omega

/-- A byte of a number is a byte of its low bytes. -/
theorem byte_mod (v : Nat) {k n : Nat} (h : k < n) : v % 256 ^ n / 256 ^ k % 256 = v / 256 ^ k % 256 := by
  obtain ⟨d, rfl⟩ : ∃ d, n = k + (d + 1) := ⟨n - k - 1, by omega⟩
  rw [Nat.pow_add, Nat.mod_mul_right_div_self, Nat.pow_succ', Nat.mod_mul_right_mod]

/-- Where memory holds the low bytes of a value, a read gives them, zero-extended (20_memory R81, R88; log 11). -/
theorem readLE_of_holdsLE {m : Memory} {a : Nat} {w : Width} {v : Word} (h : HoldsLE m a w v) :
    (m.readLE a w).toNat = v.toNat % 256 ^ w.bytes := by
  refine eq_of_bytes w (Memory.readLE_lt m a w) (Nat.mod_lt _ (Nat.pow_pos (by decide))) fun k hk => ?_
  rw [readLE_toNat_byte m a w k hk, h k hk, byte_mod _ hk]

/-- What is put into a part of a word is what an access of that part sees. -/
theorem lane_putLane (word v : Word) {a : Nat} {w : Width} (h : a % w.bytes = 0) :
    lane (putLane word a w v) a w = v &&& w.mask := by
  have fits : a % 4 + w.bytes ≤ 4 := by
    cases w <;> simp only [Width.bytes] at h ⊢ <;> omega
  apply BitVec.eq_of_getLsbD_eq
  intro i hi
  simp only [lane, putLane, BitVec.getLsbD_and, BitVec.getLsbD_or, BitVec.getLsbD_not, BitVec.getLsbD_shiftLeft,
    BitVec.getLsbD_ushiftRight, width_mask_bit]
  by_cases inside : i < 8 * w.bytes
  · have inWord : 8 * (a % 4) + i < 32 := by omega
    simp [inside, inWord]
  · simp [inside]

/-- A processor's store goes into the older copies too, so whichever copy a read sees, it sees what was stored
(20_memory R130a). -/
theorem seenThrough_ownStore {s : State} (wf : s.mem.wf) {pa : Word} {w : Width} (al : pa.toNat % w.bytes = 0) (n : Nat)
    (data : Word) (bypass : Bool) :
    (seenThrough (s.ownStore pa.toNat w data).dcacheStale n (s.ownStore pa.toNat w data).mem pa w bypass).toNat =
      data.toNat % 256 ^ w.bytes := by
  rcases seenThrough_cases (s.ownStore pa.toNat w data).dcacheStale n (s.ownStore pa.toNat w data).mem pa w bypass al
    with current | ⟨-, c, hc, word, older⟩
  · rw [current]
    exact readLE_of_holdsLE (holdsLE_writeLE wf pa.toNat w data)
  · obtain ⟨d, -, follows⟩ := List.mem_map.mp hc
    have sameWord : d.addr = wordBase pa.toNat := by
      by_contra other
      rw [if_neg other] at follows
      exact other (follows ▸ word)
    rw [if_pos sameWord] at follows
    rw [older, ← follows, lane_putLane _ _ al, and_mask_toNat]

/-- A page that allows a write allows a read (20_memory R103). -/
theorem suitable_read_of_write {l : PteLayout} {pte : Word} {user : Bool} (h : suitable l pte .write user = true) :
    suitable l pte .read user = true := by
  simp only [suitable, Bool.and_eq_true] at h ⊢
  exact ⟨h.1, rfl⟩

/-- With M = 1 the reserved ASID has no meaning (10_state R41; log 25). -/
theorem translateVa_reserved {s : State} (h : s.bitM = true) (va : Word) (kind : AccessKind)
    (asid : tagAsid (s.tagOf kind.tb) = 0xFFF) : translateVa va kind s = .fault .reservedAsid := by
  rw [translateVa, if_pos h, if_pos asid]

/-- Where a write is translated, a read is, to the same place. -/
theorem translateVa_read_of_write {s : State} {va : Word} {p : Word × Bool} (h : translateVa va .write s = .ok p) :
    translateVa va .read s = .ok p := by
  have one : ∀ e, translateBy e va .write s = .ok p → translateBy e va .read s = .ok p := by
    intro e he
    unfold translateBy at he ⊢
    split at he
    · rw [if_pos (suitable_read_of_write ‹_›)]
      exact he
    · cases he
  cases on : s.bitM with
  | false =>
    rw [translateVa_off on] at h ⊢
    exact h
  | true =>
    by_cases reserved : tagAsid (s.tagOf .dtb) = 0xFFF
    · rw [translateVa_reserved on va .write reserved] at h
      cases h
    · rw [translateVa_on on va .write reserved] at h
      rw [translateVa_on on va .read reserved]
      split at h <;> rename_i hits
      · cases h
      · simp only [AccessKind.tb] at hits ⊢
        rw [hits]
        exact one _ h
      · cases h

theorem exec_store_ram {s : State} {i : Instr} {va data pa : Word} {w : Width} {bypass : Bool}
    (h : storeOf s i = some (va, w, data)) (al : va.toNat % w.bytes = 0)
    (tr : translateVa va .write s = .ok (pa, bypass)) (ram : regionAt s.regions pa.toNat = .ram) :
    exec i s = .next (s.ownStore pa.toNat w data).advance := by
  rw [exec_of_storeOf h, storeFrom, memWrite_ram al tr ram, Access.finish_ok]

theorem exec_load_memory {s : State} {i : Instr} {ra : RegNum} {va pa : Word} {w : Width} {bypass : Bool}
    (h : loadOf s i = some (ra, va, w)) (al : va.toNat % w.bytes = 0)
    (tr : translateVa va .read s = .ok (pa, bypass)) (mem : OrdinaryMemory s pa) :
    exec i s =
      writeAndAdvance ra (seenThrough s.dcacheStale (Config.freeNat s.fresh .dcache) s.mem pa w bypass) s := by
  rw [exec_of_loadOf h, loadInto, memRead_memory al tr mem, Access.finish_ok]

/-- A load from memory into a register that is not the wired zero leaves there what the read sees. -/
theorem readReg_after_load {s : State} {i : Instr} {ra : RegNum} {va pa : Word} {w : Width} {bypass : Bool}
    (h : loadOf s i = some (ra, va, w)) (real : s.wired ra = false) (al : va.toNat % w.bytes = 0)
    (tr : translateVa va .read s = .ok (pa, bypass)) (mem : OrdinaryMemory s pa) :
    ∃ u, exec i s = .next u ∧
      u.readReg ra = seenThrough s.dcacheStale (Config.freeNat s.fresh .dcache) s.mem pa w bypass :=
  ⟨_, exec_load_memory h al tr mem, by
    rw [State.advance_readReg, readReg_writeReg_same, real, if_neg Bool.false_ne_true]⟩

/-- A load's operands come from the registers. -/
theorem loadOf_congr {s t : State} (h : ∀ r, t.readReg r = s.readReg r) (i : Instr) : loadOf t i = loadOf s i := by
  cases i with
  | loadByte | loadInt | loadLong => simp only [loadOf, h]
  | loadByteX | loadIntX | loadLongX => simp only [loadOf, State.shifted, h]
  | _ => rfl

/-- Settles O24: the store goes into RAM and into every older copy of its word, and the load sees one of these. -/
theorem loadSeesOwnStore : Obligations.LoadSeesOwnStore := by
  unfold Obligations.LoadSeesOwnStore
  intro s i j rd va w data pa bypass wf store load real al tr ram
  have load' : loadOf (s.ownStore pa.toNat w data).advance j = some (rd, va, w) := by
    rw [loadOf_congr (State.advance_readReg _), loadOf_congr (State.ownStore_readReg s _ w data), load]
  have real' : (s.ownStore pa.toNat w data).advance.wired rd = false := real
  have tr' : translateVa va .read (s.ownStore pa.toNat w data).advance = .ok (pa, bypass) := by
    rw [← translateVa_read_of_write tr]
    exact translateVa_congr va .read rfl rfl rfl rfl
  obtain ⟨u, run, value⟩ := readReg_after_load load' real' al tr' (.inl ram)
  refine ⟨_, u, exec_store_ram store al tr ram, run, ?_⟩
  rw [value, State.advance_dcacheStale, State.advance_mem]
  exact seenThrough_ownStore wf (translateVa_aligned w tr al) _ data bypass

end Sys2Proof.Machine
end

section
/-! What MTCR does to the caches and the TBs: the cache commands, TB insertion and the size probe, the TB commands
(spec/20_memory.md R108 to R111, R125; spec/45_privileged_101001.md R332). -/

namespace Sys2Proof.Machine

/-! ### The fields of a command -/

/-- The command in bits 1:0, by the number. -/
theorem command_eq_iff (v : Word) (c : BitVec 2) : v.extractLsb' 0 2 = c ↔ v.toNat % 4 = c.toNat := by
  rw [← BitVec.toNat_inj, BitVec.extractLsb'_toNat, Nat.shiftRight_zero]

/-- Bits 11:2, which commands 00 and 10 need zero (D30, log 27), by the number. -/
theorem middle_eq_zero_iff (v : Word) : v.extractLsb' 2 10 = 0#10 ↔ v.toNat % 4096 = v.toNat % 4 := by
  rw [← BitVec.toNat_inj, BitVec.extractLsb'_toNat, Nat.shiftRight_eq_div_pow]
  simp only [BitVec.toNat_ofNat]
  omega

/-- The page in bits 31:12, by the number. -/
theorem page_toNat (v : Word) : (v.extractLsb' 12 20).toNat = v.toNat / 4096 := by
  have := v.isLt
  rw [BitVec.extractLsb'_toNat, Nat.shiftRight_eq_div_pow]
  omega

/-! ### The cache commands -/

section
variable {v : Word} (copies : List StaleCopy)

theorem cacheCommand_all (h : v.toNat % 4 = 3) : cacheCommand copies v = .ok [] := by
  simp only [cacheCommand, (command_eq_iff v 3#2).mpr h]

theorem cacheCommand_frame (h : v.toNat % 4096 = 2) :
    cacheCommand copies v = .ok (dropFrame copies (v.toNat / 4096)) := by
  have command : v.toNat % 4 = 2 := by omega
  simp only [cacheCommand, (command_eq_iff v 2#2).mpr command, page_toNat]
  exact if_pos ((middle_eq_zero_iff v).mpr (by omega))

theorem cacheCommand_refused (command : v.toNat % 4 = 2) (bits : v.toNat % 4096 ≠ 2) :
    cacheCommand copies v = .refused .commandBits := by
  simp only [cacheCommand, (command_eq_iff v 2#2).mpr command]
  exact if_neg fun zero => bits (((middle_eq_zero_iff v).mp zero).trans command)

theorem cacheCommand_unpredictable (h : v.toNat % 4 < 2) :
    cacheCommand copies v = .fault .unpredictableCacheCommand := by
  unfold cacheCommand
  split
  · have command : v.toNat % 4 = 3 := (command_eq_iff v 3#2).mp ‹_›
    omega
  · have command : v.toNat % 4 = 2 := (command_eq_iff v 2#2).mp ‹_›
    omega
  · rfl

end

theorem mem_dropFrame (copies : List StaleCopy) (frame : Nat) (c : StaleCopy) :
    c ∈ dropFrame copies frame ↔ c ∈ copies ∧ c.addr / 4096 ≠ frame := by
  simp [dropFrame]

/-- MTCR of ICACHECTRL is the command on the Icache's older copies. -/
theorem exec_mtcr_icachectrl {s : State} (kernel : s.bitU = false) (rb : RegNum) :
    exec (.mtcr 20 rb) s =
      (cacheCommand s.icacheStale (s.readReg rb)).finish s fun l =>
        .next { s with pc := s.pc + 4, nmiMask := Config.nmiMaskInsns, icacheStale := l } := by
  rw [exec_mtcr_kernel kernel (c := .cacheCtrl .itb) rfl, writeControl, commandCache, Access.finish_bind]
  rfl

/-- MTCR of DCACHECTRL is the command on the Dcache's older copies. -/
theorem exec_mtcr_dcachectrl {s : State} (kernel : s.bitU = false) (rb : RegNum) :
    exec (.mtcr 28 rb) s =
      (cacheCommand s.dcacheStale (s.readReg rb)).finish s fun l =>
        .next { s with pc := s.pc + 4, nmiMask := Config.nmiMaskInsns, dcacheStale := l } := by
  rw [exec_mtcr_kernel kernel (c := .cacheCtrl .dtb) rfl, writeControl, commandCache, Access.finish_bind]
  rfl

/-- Settles O26, by the command in bits 1:0. -/
theorem cacheCommands : Obligations.CacheCommands := by
  unfold Obligations.CacheCommands
  intro s rb kernel
  rw [exec_mtcr_icachectrl kernel, exec_mtcr_dcachectrl kernel]
  refine ⟨fun all => ?_, fun frame => ?_, fun low => ?_, fun command bits => ?_⟩
  · simp only [cacheCommand_all _ all, Access.finish_ok, and_self]
  · simp only [cacheCommand_frame _ frame, Access.finish_ok]
    exact ⟨⟨_, rfl, mem_dropFrame _ _⟩, _, rfl, mem_dropFrame _ _⟩
  · simp only [cacheCommand_unpredictable _ low, Access.finish_fault, and_self]
  · simp only [cacheCommand_refused _ command bits, Access.finish_refused, and_self]

/-! ### The TB commands -/

/-- Which entries an invalidation command keeps (20_memory R111; log 27), by the number written. -/
def CommandKeeps (l : PteLayout) (v : Word) (keep : TbSlot → Prop) : Prop :=
  v.toNat % 4 = 3 ∧ (∀ x, ¬keep x) ∨
  v.toNat % 4 = 2 ∧ (∀ x, keep x ↔ x.index < 4 ∨ x.entry.pte.getLsbD l.g = true) ∨
  v.toNat % 4 = 1 ∧ (∀ x, keep x ↔ x.index < 4) ∨
  v.toNat % 4096 = 0 ∧ (∀ x, keep x ↔ x.entry.tag.toNat % 2 ^ 20 ≠ v.toNat / 2 ^ 12)

theorem tagVpn_eq_iff (tag va : Word) : tagVpn tag = vpnOf va ↔ tag.toNat % 2 ^ 20 = va.toNat / 2 ^ 12 := by
  rw [← BitVec.toNat_inj, tagVpn, vpnOf, page_toNat, BitVec.extractLsb'_toNat, Nat.shiftRight_zero]
  rfl

theorem tbCommand_keeps {l : PteLayout} {v : Word} {keep : TbSlot → Prop} (h : CommandKeeps l v keep) (tb : Tb) :
    ∃ r, tbCommand l tb v = .ok r ∧ ∀ x, x ∈ r ↔ x ∈ tb ∧ keep x := by
  rcases h with ⟨command, keeps⟩ | ⟨command, keeps⟩ | ⟨command, keeps⟩ | ⟨page, keeps⟩
  · refine ⟨[], by simp only [tbCommand, (command_eq_iff v 3#2).mpr command], fun x => ?_⟩
    simp [keeps x]
  · refine ⟨_, by simp only [tbCommand, (command_eq_iff v 2#2).mpr command]; rfl, fun x => ?_⟩
    simp [keeps x, pteG]
  · refine ⟨_, by simp only [tbCommand, (command_eq_iff v 1#2).mpr command]; rfl, fun x => ?_⟩
    simp [keeps x]
  · have command : v.extractLsb' 0 2 = 0#2 := (command_eq_iff v 0#2).mpr (show v.toNat % 4 = 0 by omega)
    have middle : v.extractLsb' 2 10 = 0 := (middle_eq_zero_iff v).mpr (by omega)
    refine ⟨_, by simp only [tbCommand, command, middle]; rfl, fun x => ?_⟩
    rw [List.mem_filter, keeps x, bne_iff_ne, Ne, tagVpn_eq_iff]

/-- MTCR of ITBCTRL is the command on the ITB. -/
theorem exec_mtcr_itbctrl {s : State} (kernel : s.bitU = false) (rb : RegNum) :
    exec (.mtcr 19 rb) s =
      (tbCommand s.pteLayout s.itb (s.readReg rb)).finish s fun tb =>
        .next { s with pc := s.pc + 4, nmiMask := Config.nmiMaskInsns, itb := tb } := by
  rw [exec_mtcr_kernel kernel (c := .tbCtrl .itb) rfl, writeControl, commandTb, Access.finish_bind]
  rfl

/-- MTCR of DTBCTRL is the command on the DTB. -/
theorem exec_mtcr_dtbctrl {s : State} (kernel : s.bitU = false) (rb : RegNum) :
    exec (.mtcr 27 rb) s =
      (tbCommand s.pteLayout s.dtb (s.readReg rb)).finish s fun tb =>
        .next { s with pc := s.pc + 4, nmiMask := Config.nmiMaskInsns, dtb := tb } := by
  rw [exec_mtcr_kernel kernel (c := .tbCtrl .dtb) rfl, writeControl, commandTb, Access.finish_bind]
  rfl

/-- Settles O31: each TB keeps what its command keeps. -/
theorem tbCommands : Obligations.TbCommands := by
  unfold Obligations.TbCommands
  intro s rb kernel keep command
  have keeps : CommandKeeps s.pteLayout (s.readReg rb) keep := command
  obtain ⟨itb, doneItb, memItb⟩ := tbCommand_keeps keeps s.itb
  obtain ⟨dtb, doneDtb, memDtb⟩ := tbCommand_keeps keeps s.dtb
  rw [exec_mtcr_itbctrl kernel, exec_mtcr_dtbctrl kernel, doneItb, doneDtb]
  exact ⟨⟨itb, rfl, memItb⟩, dtb, rfl, memDtb⟩

/-! ### Insertion -/

/-- The index after an insertion below the size (20_memory R108): the size is at most 2^32, so it does not overflow. -/
theorem insertion_index {size : Nat} {index : Word} (h : index.toNat < size) (bound : size ≤ 4294967296) (tb : Tb)
    (e : TbEntry) (n : Nat) :
    (insertion tb size index e n).2.toNat = if index.toNat + 1 = size then 4 else index.toNat + 1 := by
  rw [insertion_of_lt _ _ _ _ _ h]
  split
  · rfl
  · rw [BitVec.toNat_add]
    exact Nat.mod_eq_of_lt (show index.toNat + 1 < 4294967296 by omega)

/-- The entries and the index after an insertion below the size (20_memory R108). -/
theorem insertion_spec {tb : Tb} {size : Nat} (wf : tb.wf size) (bound : size ≤ 4294967296) {index : Word}
    (h : index.toNat < size) (e : TbEntry) (n : Nat) :
    (∀ x, x ∈ (insertion tb size index e n).1 ↔ x = ⟨index.toNat, e⟩ ∨ x ∈ tb ∧ x.index ≠ index.toNat) ∧
      (insertion tb size index e n).2.toNat = if index.toNat + 1 = size then 4 else index.toNat + 1 := by
  refine ⟨fun x => ?_, insertion_index h bound tb e n⟩
  rw [insertion_of_lt _ _ _ _ _ h]
  exact Tb.mem_put tb size index.toNat e wf x

/-- The number of the control register whose write inserts into a TB. -/
def pteRegister : TbSel → CrNum
  | .itb => 16
  | .dtb => 24

/-- MTCR of ITBPTE and DTBPTE is an insertion (20_memory R108). -/
theorem exec_mtcr_pte {s : State} (kernel : s.bitU = false) (b : TbSel) (rb : RegNum) :
    exec (.mtcr (pteRegister b) rb) s = .next (insertEntry b (s.readReg rb) s).reloadNmiMask.advance := by
  cases b <;> exact exec_mtcr_kernel kernel (c := .tbPte _) rfl rb

/-- Settles O29, by what an insertion makes of the TB and its index. -/
theorem tbInsertion : Obligations.TbInsertion := by
  unfold Obligations.TbInsertion
  intro s rb inv kernel
  obtain ⟨-, itb, dtb⟩ := inv
  exact ⟨⟨_, _, exec_mtcr_pte kernel .itb rb, insertion_wf _ _ _ _ _ itb,
      fun below => insertion_spec itb Config_itbSize_le below _ _⟩,
    _, _, exec_mtcr_pte kernel .dtb rb, insertion_wf _ _ _ _ _ dtb,
      fun below => insertion_spec dtb Config_dtbSize_le below _ _⟩

/-! ### The size probe -/

/-- xTBINDEX. -/
def State.indexOf (s : State) : TbSel → Word
  | .itb => s.itbIndex
  | .dtb => s.dtbIndex

theorem indexOf_insertEntry {s : State} (b : TbSel) (v : Word) (h : (s.indexOf b).toNat < tbSize b) :
    ((insertEntry b v s).indexOf b).toNat =
      if (s.indexOf b).toNat + 1 = tbSize b then 4 else (s.indexOf b).toNat + 1 := by
  cases b
  · exact insertion_index h Config_itbSize_le s.itb _ _
  · exact insertion_index h Config_dtbSize_le s.dtb _ _

theorem indexOf_reload_advance (b : TbSel) (s : State) : s.reloadNmiMask.advance.indexOf b = s.indexOf b := by
  cases b <;> rfl

theorem bitU_insertEntry (b : TbSel) (v : Word) (s : State) : (insertEntry b v s).bitU = s.bitU := by
  cases b <;> rfl

theorem execList_cons_of_next {i : Instr} {rest : List Instr} {s t : State} (h : exec i s = .next t) :
    execList (i :: rest) s = execList rest t := by
  simp only [execList, h]

/-- From an index below the size, insertions move the index on, up to the one that reaches the size and sets it to 4. -/
theorem execList_insertions (b : TbSel) (rb : RegNum) (n : Nat) (s : State) (kernel : s.bitU = false)
    (below : (s.indexOf b).toNat < tbSize b) (fits : (s.indexOf b).toNat + n ≤ tbSize b) :
    ∃ t, execList (List.replicate n (.mtcr (pteRegister b) rb)) s = .next t ∧
      (t.indexOf b).toNat = if (s.indexOf b).toNat + n = tbSize b then 4 else (s.indexOf b).toNat + n := by
  induction n generalizing s with
  | zero => exact ⟨s, rfl, (if_neg (by omega)).symm⟩
  | succ n ih =>
    rw [List.replicate_succ, execList_cons_of_next (exec_mtcr_pte kernel b rb)]
    have index := indexOf_insertEntry b (s.readReg rb) below
    rw [← indexOf_reload_advance] at index
    by_cases last : (s.indexOf b).toNat + 1 = tbSize b
    · obtain rfl : n = 0 := by omega
      exact ⟨_, rfl, by rw [index, if_pos last]⟩
    · rw [if_neg last] at index
      have mode : (insertEntry b (s.readReg rb) s).reloadNmiMask.advance.bitU = false :=
        (bitU_insertEntry b _ s).trans kernel
      obtain ⟨t, run, after⟩ := ih _ mode (by omega) (by omega)
      refine ⟨t, run, ?_⟩
      rw [after, index, Nat.add_right_comm, Nat.add_assoc]

/-- From index 0, as the probe starts (20_memory R110). -/
theorem probe_index (b : TbSel) (rb : RegNum) (n : Nat) (s : State) (kernel : s.bitU = false)
    (zero : s.indexOf b = 0) (fits : n ≤ tbSize b) (positive : 0 < tbSize b) :
    ∃ t, execList (List.replicate n (.mtcr (pteRegister b) rb)) s = .next t ∧
      (t.indexOf b).toNat = if n = tbSize b then 4 else n := by
  have start : (s.indexOf b).toNat = 0 := by rw [zero]; rfl
  obtain ⟨t, run, index⟩ := execList_insertions b rb n s kernel (by omega) (by omega)
  refine ⟨t, run, ?_⟩
  rw [index, start, Nat.zero_add]

/-- Settles O30, by induction on the number of insertions. -/
theorem tbSizeProbe : Obligations.TbSizeProbe := by
  unfold Obligations.TbSizeProbe
  intro s rb n kernel
  have itbPositive : 0 < Config.itbSize := Nat.zero_lt_of_lt Config_itbSize_gt
  have dtbPositive : 0 < Config.dtbSize := Nat.zero_lt_of_lt Config_dtbSize_gt
  exact ⟨fun zero fits => probe_index .itb rb n s kernel zero fits itbPositive,
    fun zero fits => probe_index .dtb rb n s kernel zero fits dtbPositive⟩

end Sys2Proof.Machine
end

section
/-! Translation by the numbers: which entries match, which accesses a PTE allows, and what the lookup answers
(spec/20_memory.md R99 to R104). -/

namespace Sys2Proof.Machine

/-! ### Matching and permission, by the numbers -/

theorem tagAsid_toNat (tag : Word) : (tagAsid tag).toNat = tag.toNat / 2 ^ 20 := by
  have := tag.isLt
  rw [tagAsid, BitVec.extractLsb'_toNat, Nat.shiftRight_eq_div_pow]
  omega

theorem tagAsid_eq_iff (tag tag' : Word) : tagAsid tag = tagAsid tag' ↔ tag.toNat / 2 ^ 20 = tag'.toNat / 2 ^ 20 := by
  rw [← BitVec.toNat_inj, tagAsid_toNat, tagAsid_toNat]

theorem tagAsid_reserved_iff (tag : Word) : tagAsid tag = 0xFFF ↔ tag.toNat / 2 ^ 20 = 0xFFF := by
  rw [← BitVec.toNat_inj, tagAsid_toNat]
  rfl

/-- The lookup's test of an entry is the statements' (20_memory R101). -/
theorem matches_iff_hit (l : PteLayout) (x : TbSlot) (va tag : Word) :
    Matches l x va tag ↔ x.entry.hit l (vpnOf va) (tagAsid tag) = true := by
  simp only [Matches, TbEntry.hit, pteG, Bool.and_eq_true, Bool.or_eq_true, beq_iff_eq, tagVpn_eq_iff, tagAsid_eq_iff]

/-- The lookup reads of the tag register its ASID only. -/
theorem matches_congr {l : PteLayout} {x : TbSlot} {va tag tag' : Word}
    (h : tag.toNat / 2 ^ 20 = tag'.toNat / 2 ^ 20) : Matches l x va tag ↔ Matches l x va tag' := by
  simp only [Matches, h]

/-- The test of a matching PTE is the statements' (20_memory R103; log 38). -/
theorem allows_iff_suitable (l : PteLayout) (pte : Word) (kind : AccessKind) (user : Bool) :
    Allows l pte kind user ↔ suitable l pte kind user = true := by
  simp only [Allows, suitable, pteV, pteK, pteW, Bool.and_eq_true, Bool.not_eq_true', Bool.and_eq_false_imp, beq_iff_eq,
    Bool.not_eq_false', and_assoc]

/-- A concatenation as a number. -/
theorem append_toNat {n m : Nat} (x : BitVec n) (y : BitVec m) : (x ++ y).toNat = x.toNat * 2 ^ m + y.toNat := by
  rw [BitVec.toNat_append, Nat.shiftLeft_eq, Nat.mul_comm, Nat.two_pow_add_eq_or_of_lt y.isLt]

/-- The address built from a PTE is in its page, at the byte offset (20_memory R96, R100). -/
theorem inPageOf_physOf (l : PteLayout) (pte va : Word) : InPageOf l pte va (physOf l pte va) := by
  have offset : (pageOffset va).toNat = va.toNat % 2 ^ 12 := by
    rw [pageOffset, BitVec.extractLsb'_toNat, Nat.shiftRight_zero]
  have page : (ptePfn l pte).toNat = pte.toNat / 2 ^ l.pfn.val % 2 ^ 20 := by
    rw [ptePfn, BitVec.extractLsb'_toNat, Nat.shiftRight_eq_div_pow]
  rw [InPageOf, physOf, append_toNat, page, offset]

/-! ### What the lookup answers -/

section
variable {s : State} {va : Word} {kind : AccessKind}

/-- No entry matches: a TB miss (20_memory R100). -/
theorem translateVa_of_no_match (on : s.bitM = true) (asid : (s.tagOf kind.tb).toNat / 2 ^ 20 ≠ 0xFFF)
    (none : ∀ y ∈ s.tbOf kind.tb, ¬Matches s.pteLayout y va (s.tagOf kind.tb)) :
    translateVa va kind s = .trap (.tbMiss kind va) := by
  have noHits := Tb.hits_eq_nil s.pteLayout (s.tbOf kind.tb) (vpnOf va) (tagAsid (s.tagOf kind.tb)) fun y hy =>
    Bool.eq_false_iff.mpr fun hit => none y hy ((matches_iff_hit _ _ _ _).mpr hit)
  rw [translateVa_on on va kind ((tagAsid_reserved_iff _).not.mpr asid), noHits]

/-- One entry matches: its PTE decides (20_memory R100, R103). -/
theorem translateVa_of_one_match {size : Nat} (wf : (s.tbOf kind.tb).wf size) (on : s.bitM = true)
    (asid : (s.tagOf kind.tb).toNat / 2 ^ 20 ≠ 0xFFF) {x : TbSlot} (used : x ∈ s.tbOf kind.tb)
    (hit : Matches s.pteLayout x va (s.tagOf kind.tb))
    (only : ∀ y ∈ s.tbOf kind.tb, Matches s.pteLayout y va (s.tagOf kind.tb) → y = x) :
    translateVa va kind s = translateBy x.entry va kind s := by
  have oneHit := Tb.hits_eq_one wf used ((matches_iff_hit _ _ _ _).mp hit) fun y hy hits =>
    only y hy ((matches_iff_hit _ _ _ _).mpr hits)
  rw [translateVa_on on va kind ((tagAsid_reserved_iff _).not.mpr asid), oneHit]

/-- Two different members make a list of at least two. -/
theorem exists_cons_cons_of_mem_ne {α : Type} {l : List α} {a b : α} (ha : a ∈ l) (hb : b ∈ l) (ne : a ≠ b) :
    ∃ x y rest, l = x :: y :: rest := by
  match l with
  | [] => cases ha
  | [c] => exact absurd ((List.mem_singleton.mp ha).trans (List.mem_singleton.mp hb).symm) ne
  | x :: y :: rest => exact ⟨x, y, rest, rfl⟩

/-- Two entries match: no meaning (20_memory R104; log 24). -/
theorem translateVa_of_two_matches (on : s.bitM = true) (asid : (s.tagOf kind.tb).toNat / 2 ^ 20 ≠ 0xFFF)
    {x y : TbSlot} (hx : x ∈ s.tbOf kind.tb) (hy : y ∈ s.tbOf kind.tb) (ne : x ≠ y)
    (matchX : Matches s.pteLayout x va (s.tagOf kind.tb)) (matchY : Matches s.pteLayout y va (s.tagOf kind.tb)) :
    translateVa va kind s = .refused .severalTbMatches := by
  have member : ∀ z ∈ s.tbOf kind.tb, Matches s.pteLayout z va (s.tagOf kind.tb) → z ∈ (s.tbOf kind.tb).filter
      ((fun e => e.hit s.pteLayout (vpnOf va) (tagAsid (s.tagOf kind.tb))) ∘ TbSlot.entry) := fun z hz matchZ =>
    List.mem_filter.mpr ⟨hz, (matches_iff_hit _ _ _ _).mp matchZ⟩
  obtain ⟨u, v, rest, hits⟩ := exists_cons_cons_of_mem_ne (member x hx matchX) (member y hy matchY) ne
  rw [translateVa_on on va kind ((tagAsid_reserved_iff _).not.mpr asid), Tb.hits, List.filter_map, hits]
  rfl

/-- An entry that allows the access gives the page and the bypass bit (20_memory R100, R103). -/
theorem translateBy_of_allows {e : TbEntry} (h : Allows s.pteLayout e.pte kind s.bitU) :
    ∃ pa : Word, translateBy e va kind s = .ok (pa, e.pte.getLsbD s.pteLayout.n) ∧ InPageOf s.pteLayout e.pte va pa :=
  ⟨_, if_pos ((allows_iff_suitable _ _ _ _).mp h), inPageOf_physOf _ _ _⟩

theorem translateBy_of_not_allows {e : TbEntry} (h : ¬Allows s.pteLayout e.pte kind s.bitU) :
    translateBy e va kind s = .trap (.pageFault kind va) :=
  if_neg ((allows_iff_suitable _ _ _ _).not.mp h)

end

/-- The canonical form of the TB that translates an access. -/
theorem Inv.tbOf_wf {s : State} (h : Inv s) (b : TbSel) : (s.tbOf b).wf (tbSize b) := by
  obtain ⟨-, itb, dtb⟩ := h
  cases b
  · exact itb
  · exact dtb

/-- Settles O27: off, and by the one entry the lookup finds. -/
theorem translationByTheOneMatch : Obligations.TranslationByTheOneMatch := by
  unfold Obligations.TranslationByTheOneMatch
  intro s va kind
  refine ⟨fun off => translateVa_off off va kind, fun inv on asid x used hit only => ?_⟩
  rw [translateVa_of_one_match (inv.tbOf_wf kind.tb) on asid used hit only]
  exact ⟨translateBy_of_allows, translateBy_of_not_allows⟩

/-- Settles O28, by what the lookup finds. -/
theorem translationWithoutOneMatch : Obligations.TranslationWithoutOneMatch := by
  unfold Obligations.TranslationWithoutOneMatch
  intro s va kind on
  refine ⟨translateVa_of_no_match on, fun asid two => ?_, fun reserved =>
    translateVa_reserved on va kind ((tagAsid_reserved_iff _).mpr reserved)⟩
  obtain ⟨x, hx, y, hy, ne, matchX, matchY⟩ := two
  exact translateVa_of_two_matches on asid hx hy ne matchX matchY

end Sys2Proof.Machine
end

section
/-! The source's miss routine (spec/20_memory.md R116): after a data access missed, MFCR, LOAD, MTCR and RFE put the PTE
of the linear page table into the DTB and return to the access. -/

namespace Sys2Proof.Machine

/-! ### The four instructions -/

/-- MFCR of a register that is not absent reads it (45_privileged R331). -/
theorem exec_mfcr_kernel {s : State} (kernel : s.bitU = false) {n : CrNum} {c : CtrlReg}
    (names : CtrlReg.ofNum n = some c) (r : RegNum) :
    exec (.mfcr r n) s = .next (s.writeReg r (readControl c s)).reloadNmiMask.advance := by
  simp only [exec, execMfcr, privileged_kernel kernel, names]

theorem exec_rfe_kernel {s : State} (kernel : s.bitU = false) : exec .rfe s = .next (returnFromException s) := by
  simp only [exec, execRfe, privileged_kernel kernel]

/-- A read around the cache, or through one without an older copy, sees memory (20_memory R121, R128). -/
theorem seenThrough_current {copies : List StaleCopy} {pa : Word} {bypass : Bool}
    (h : bypass = true ∨ ∀ c ∈ copies, c.addr ≠ pa.toNat / 4 * 4) (n : Nat) (m : Memory) (w : Width) :
    seenThrough copies n m pa w bypass = m.readLE pa.toNat w := by
  rcases h with rfl | noCopy
  · exact seenThrough_bypass copies n m pa w
  · exact seenThrough_fresh noCopy n m w bypass

/-- The handler's state after MFCR, which puts the PTE's address into register 0. -/
def addressRead (m : State) : State := (m.writeReg 0 m.dtbAddr).reloadNmiMask.advance

/-- The handler's state after the load of the PTE into register 0. -/
def pteLoaded (m : State) (pte : Word) : State := ((addressRead m).writeReg 0 pte).advance

/-- The handler's state after the insertion of the PTE, before RFE. -/
def refilled (m : State) (pte : Word) : State := (insertEntry .dtb pte (pteLoaded m pte)).reloadNmiMask.advance

section
variable {m : State} {pa pte : Word} {bypass : Bool}

theorem readReg_addressRead (t : m.bitT = true) : (addressRead m).readReg 0#5 = m.dtbAddr := by
  simp [addressRead, not_wired (.inr t)]

theorem readReg_pteLoaded (t : m.bitT = true) : (pteLoaded m pte).readReg 0#5 = pte := by
  have real : (addressRead m).wired 0#5 = false := not_wired (.inr t)
  simp [pteLoaded, real]

/-- In kernel mode with T set, where the PTE's address translates to memory that holds the PTE, the routine completes. -/
theorem execList_missRoutine (kernel : m.bitU = false) (t : m.bitT = true) (al : m.dtbAddr.toNat % 4 = 0)
    (tr : translateVa m.dtbAddr .read m = .ok (pa, bypass)) (mem : OrdinaryMemory m pa)
    (current : bypass = true ∨ ∀ c ∈ m.dcacheStale, c.addr ≠ pa.toNat / 4 * 4)
    (holds : m.mem.readLE pa.toNat .long = pte) :
    execList [.mfcr 0 29, .loadLong 0 0 0, .mtcr 24 0, .rfe] m = .next (returnFromException (refilled m pte)) := by
  have first : exec (.mfcr 0 29) m = .next (addressRead m) := exec_mfcr_kernel kernel (c := .tbAddr .dtb) rfl 0
  have second : exec (.loadLong 0 0 0) (addressRead m) = .next (pteLoaded m pte) := by
    have operands : loadOf (addressRead m) (.loadLong 0 0 0) = some (0, m.dtbAddr, .long) := by
      simp [loadOf, readReg_addressRead t]
    have tr' : translateVa m.dtbAddr .read (addressRead m) = .ok (pa, bypass) :=
      (translateVa_congr m.dtbAddr .read rfl rfl rfl rfl).trans tr
    have seen : seenThrough (addressRead m).dcacheStale (Config.freeNat (addressRead m).fresh .dcache)
        (addressRead m).mem pa .long bypass = pte := (seenThrough_current current _ m.mem .long).trans holds
    rw [exec_load_memory operands al tr' mem, seen]
    rfl
  have third : exec (.mtcr 24 0) (pteLoaded m pte) = .next (refilled m pte) := by
    have run := exec_mtcr_pte (s := pteLoaded m pte) kernel .dtb 0#5
    rw [readReg_pteLoaded t] at run
    exact run
  rw [execList_cons_of_next first, execList_cons_of_next second, execList_cons_of_next third,
    execList_cons_of_next (exec_rfe_kernel (s := refilled m pte) kernel)]
  rfl

theorem refilled_rs : (refilled m pte).rs = m.rs := rfl
theorem refilled_tbpc : (refilled m pte).tbpc = m.tbpc := rfl
theorem refilled_mem : (refilled m pte).mem = m.mem := rfl
theorem refilled_pteLayout : (refilled m pte).pteLayout = m.pteLayout := rfl
theorem refilled_dtbTag : (refilled m pte).dtbTag = m.dtbTag := rfl
theorem refilled_dtb :
    (refilled m pte).dtb = (insertion m.dtb Config.dtbSize m.dtbIndex ⟨m.dtbTag, pte⟩ m.fresh).1 := rfl

theorem refilled_bitT : (refilled m pte).bitT = m.bitT := by
  rw [State.bitT, refilled_rs, State.bitT]

/-- The routine writes no general register but number 0. -/
theorem refilled_regs_other (k : Nat) (hk : k < 32) (nonzero : k ≠ 0) : (refilled m pte).regs[k] = m.regs[k] :=
  (regs_writeReg_other (addressRead m) 0 pte k hk (.inl nonzero)).trans
    (regs_writeReg_other m 0 m.dtbAddr k hk (.inl nonzero))

end

/-! ### The handler's state after a data access missed -/

/-- The address of the PTE in the linear page table (20_memory R113). -/
def pteAddress (s : State) (va : Word) : Word :=
  BitVec.ofNat 32 (s.dtbAddr.toNat / 2 ^ 22 * 2 ^ 22 + va.toNat / 2 ^ 12 * 4)

theorem pteAddress_aligned (s : State) (va : Word) : (pteAddress s va).toNat % 4 = 0 := by
  rw [pteAddress, BitVec.toNat_ofNat]
  omega

/-- DTBADDR after a miss is the concatenation of its base bits, the page and two zeros. -/
theorem pteAddress_eq (s : State) (va : Word) : s.dtbAddr.extractLsb' 22 10 ++ vpnOf va ++ 0#2 = pteAddress s va := by
  have base := s.dtbAddr.isLt
  have address := va.isLt
  apply BitVec.eq_of_toNat_eq
  rw [append_toNat, append_toNat, vpnOf, page_toNat, BitVec.extractLsb'_toNat, Nat.shiftRight_eq_div_pow, pteAddress,
    BitVec.toNat_ofNat, BitVec.toNat_ofNat]
  omega

theorem AccessKind.tb_of_data {kind : AccessKind} (data : kind ≠ .fetch) : kind.tb = .dtb := by
  cases kind with
  | fetch => exact absurd rfl data
  | read | write => rfl

/-- RFE pops the mode that the entry of a miss pushed (60_exceptions R360, 45_privileged R336). -/
theorem rsPopped_rsEntered_withT (code : BitVec 4) (rs : Word) :
    (rsPopped (rsEntered code rs ||| 8)).extractLsb' 0 16 = rs.extractLsb' 0 16 := by
  apply BitVec.eq_of_getLsbD_eq
  intro i hi
  simp only [BitVec.getLsbD_extractLsb', Nat.zero_add, rsPopped_bit _ i (by omega), if_pos hi,
    rsEntered_withT_bit _ _ (i + 8) (by omega), rsEntered_bit _ _ (i + 8) (by omega)]
  rw [if_neg (by omega), if_neg (by omega), if_pos (by omega), decide_eq_false (by omega : ¬i + 8 = 3), Bool.or_false,
    Nat.add_sub_cancel]

/-- The mode bits are among the 16 that RFE restores. -/
theorem bit_of_low16 {a b : Word} (h : a.extractLsb' 0 16 = b.extractLsb' 0 16) {k : Nat} (hk : k < 16) :
    a.getLsbD k = b.getLsbD k := by
  have := congrArg (fun x => x.getLsbD k) h
  simpa [BitVec.getLsbD_extractLsb', hk] using this

section
variable {s : State} {kind : AccessKind} {va : Word}

theorem miss_rs (clear : s.bitT = false) :
    (takeException (.tbMiss kind va) s).rs = rsEntered (tbMissCause kind.tb).code s.rs ||| 8 := by
  rw [takeException_tbMiss clear]
  rfl

theorem miss_bitT (clear : s.bitT = false) : (takeException (.tbMiss kind va) s).bitT = true := by
  show (takeException (.tbMiss kind va) s).rs.getLsbD 3 = true
  rw [miss_rs clear, rsEntered_withT_bit _ _ 3 (by decide)]
  exact Bool.or_true _

theorem miss_bitU (clear : s.bitT = false) : (takeException (.tbMiss kind va) s).bitU = false := by
  show (takeException (.tbMiss kind va) s).rs.getLsbD 0 = false
  rw [miss_rs clear, rsEntered_withT_bit _ _ 0 (by decide), rsEntered_bit _ _ 0 (by decide)]
  rfl

theorem miss_tbpc (clear : s.bitT = false) : (takeException (.tbMiss kind va) s).tbpc = s.pc := by
  rw [takeException_tbMiss clear]
  rfl

theorem miss_dtbAddr (clear : s.bitT = false) (data : kind ≠ .fetch) :
    (takeException (.tbMiss kind va) s).dtbAddr = pteAddress s va := by
  rw [takeException_tbMiss clear, ← pteAddress_eq]
  show (noteMiss kind.tb va s).dtbAddr = _
  rw [AccessKind.tb_of_data data]
  rfl

theorem miss_dtbTag (clear : s.bitT = false) (data : kind ≠ .fetch) :
    (takeException (.tbMiss kind va) s).dtbTag = tagAsid s.dtbTag ++ vpnOf va := by
  rw [takeException_tbMiss clear]
  show (noteMiss kind.tb va s).dtbTag = _
  rw [AccessKind.tb_of_data data]
  rfl

end

/-- The tag of a miss: the ASID of before, and the page (20_memory R113). -/
theorem missTag_toNat (tag va : Word) :
    (tagAsid tag ++ vpnOf va).toNat / 2 ^ 20 = tag.toNat / 2 ^ 20 ∧
      (tagAsid tag ++ vpnOf va).toNat % 2 ^ 20 = va.toNat / 2 ^ 12 := by
  have address := va.isLt
  rw [append_toNat, tagAsid_toNat, vpnOf, page_toNat]
  omega

/-! ### Back at the access -/

/-- The state the routine returns to, after a miss in the state `s`. -/
def returned (s : State) (kind : AccessKind) (va pte : Word) : State :=
  returnFromException (refilled (takeException (.tbMiss kind va) s) pte)

section
variable {s : State} {kind : AccessKind} {va pte : Word}

theorem returned_pc (clear : s.bitT = false) : (returned s kind va pte).pc = s.pc := by
  rw [returned, returnFromException_pc, refilled_bitT, if_pos (miss_bitT clear), refilled_tbpc, miss_tbpc clear]

theorem returned_mode (clear : s.bitT = false) :
    (returned s kind va pte).rs.extractLsb' 0 16 = s.rs.extractLsb' 0 16 := by
  rw [returned, returnFromException_rs, refilled_rs, miss_rs clear, rsPopped_rsEntered_withT]

theorem returned_readReg (clear : s.bitT = false) (q : RegNum) : (returned s kind va pte).readReg q = s.readReg q := by
  by_cases zero : q = 0
  · have clear' : (returned s kind va pte).bitT = false :=
      (bit_of_low16 (returned_mode clear) (show 3 < 16 by decide)).trans clear
    rw [zero]
    exact (readReg_zero_of_not_bitT clear').trans (readReg_zero_of_not_bitT clear).symm
  · have nonzero : q.toNat ≠ 0 := fun e => zero (BitVec.eq_of_toNat_eq e)
    rw [readReg_of_not_wired (wired_of_ne_zero _ zero), readReg_of_not_wired (wired_of_ne_zero _ zero)]
    calc (returned s kind va pte).regs[q.toNat]
        = (refilled (takeException (.tbMiss kind va) s) pte).regs[q.toNat] :=
          returnFromException_regs_other _ _ q.isLt nonzero
      _ = (takeException (.tbMiss kind va) s).regs[q.toNat] := refilled_regs_other _ q.isLt nonzero
      _ = s.regs[q.toNat] := takeException_regs_other _ s _ q.isLt nonzero

theorem returned_mem : (returned s kind va pte).mem = s.mem := by
  rw [returned, returnFromException_mem, refilled_mem, takeException_mem]

theorem returned_pteLayout : (returned s kind va pte).pteLayout = s.pteLayout := by
  rw [returned, returnFromException_pteLayout, refilled_pteLayout, takeException_pteLayout]

theorem returned_dtbTag (clear : s.bitT = false) (data : kind ≠ .fetch) :
    (returned s kind va pte).dtbTag = tagAsid s.dtbTag ++ vpnOf va := by
  rw [returned, returnFromException_dtbTag, refilled_dtbTag, miss_dtbTag clear data]

/-- The DTB after the routine: the PTE under the tag of the miss, inserted at the index (20_memory R108). -/
theorem returned_dtb (clear : s.bitT = false) (data : kind ≠ .fetch) :
    (returned s kind va pte).dtb =
      (insertion s.dtb Config.dtbSize s.dtbIndex ⟨tagAsid s.dtbTag ++ vpnOf va, pte⟩ s.fresh).1 := by
  rw [returned, returnFromException_dtb, refilled_dtb, takeException_dtb, takeException_dtbIndex, takeException_fresh,
    miss_dtbTag clear data]

/-- Back at the access, the entry the routine inserted is the one that matches. -/
theorem translateVa_returned (inv : Inv s) (data : kind ≠ .fetch) (on : s.bitM = true) (clear : s.bitT = false)
    (asid : s.dtbTag.toNat / 2 ^ 20 ≠ 0xFFF) (none : ∀ y ∈ s.dtb, ¬Matches s.pteLayout y va s.dtbTag)
    (below : s.dtbIndex.toNat < Config.dtbSize) :
    translateVa va kind (returned s kind va pte) =
      translateBy ⟨tagAsid s.dtbTag ++ vpnOf va, pte⟩ va kind (returned s kind va pte) := by
  obtain ⟨-, -, wf⟩ := inv
  obtain ⟨sameAsid, page⟩ := missTag_toNat s.dtbTag va
  obtain ⟨members, -⟩ :=
    insertion_spec wf Config_dtbSize_le below ⟨tagAsid s.dtbTag ++ vpnOf va, pte⟩ s.fresh
  have tb : (returned s kind va pte).tbOf kind.tb =
      (insertion s.dtb Config.dtbSize s.dtbIndex ⟨tagAsid s.dtbTag ++ vpnOf va, pte⟩ s.fresh).1 := by
    rw [AccessKind.tb_of_data data]
    exact returned_dtb clear data
  have tag : (returned s kind va pte).tagOf kind.tb = tagAsid s.dtbTag ++ vpnOf va := by
    rw [AccessKind.tb_of_data data]
    exact returned_dtbTag clear data
  have on' : (returned s kind va pte).bitM = true :=
    (bit_of_low16 (returned_mode clear) (show 2 < 16 by decide)).trans on
  refine translateVa_of_one_match (size := Config.dtbSize)
    (x := ⟨s.dtbIndex.toNat, tagAsid s.dtbTag ++ vpnOf va, pte⟩) ?_ on' ?_ ?_ ?_ ?_
  · rw [tb]
    exact insertion_wf _ _ _ _ _ wf
  · rw [tag, sameAsid]
    exact asid
  · rw [tb]
    exact (members _).mpr (.inl rfl)
  · rw [tag]
    exact ⟨page, .inr rfl⟩
  · rw [tb, tag, returned_pteLayout]
    intro y hy hit
    rcases (members y).mp hy with new | ⟨old, -⟩
    · exact new
    · exact absurd ((matches_congr sameAsid).mp hit) (none y old)

end

/-- Settles O36: the routine runs from the entry of the miss, and the access finds the entry it inserted. -/
theorem missRoutineRefillsAndReturns : Obligations.MissRoutineRefillsAndReturns := by
  unfold Obligations.MissRoutineRefillsAndReturns
  intro s kind va pa pte bypass inv data on clear asid none below tr mem holds current
  have address : (takeException (.tbMiss kind va) s).dtbAddr = pteAddress s va := miss_dtbAddr clear data
  have word : s.mem.readLE pa.toNat .long = pte :=
    BitVec.eq_of_toNat_eq ((readLE_of_holdsLE holds).trans (Nat.mod_eq_of_lt pte.isLt))
  have run : execList [.mfcr 0 29, .loadLong 0 0 0, .mtcr 24 0, .rfe] (takeException (.tbMiss kind va) s) =
      .next (returned s kind va pte) := by
    refine execList_missRoutine (pa := pa) (bypass := bypass) (miss_bitU clear) (miss_bitT clear) ?_ ?_ ?_ ?_ ?_
    · rw [address]
      exact pteAddress_aligned s va
    · rw [address]
      exact tr
    · rw [OrdinaryMemory, takeException_regions]
      exact mem
    · rw [takeException_dcacheStale]
      exact current
    · rw [takeException_mem]
      exact word
  have found := translateVa_returned (pte := pte) inv data on clear asid none below
  have mode : (returned s kind va pte).bitU = s.bitU := bit_of_low16 (returned_mode clear) (show 0 < 16 by decide)
  have layout : (returned s kind va pte).pteLayout = s.pteLayout := returned_pteLayout
  refine ⟨_, run, returned_pc clear, returned_mode clear, returned_readReg clear, fun a => by rw [returned_mem], ?_⟩
  rw [found, ← mode, ← layout]
  exact ⟨translateBy_of_allows (e := ⟨_, pte⟩), translateBy_of_not_allows (e := ⟨_, pte⟩)⟩

end Sys2Proof.Machine
end

section
/-! Decoding (spec/30_encoding.md R150 to R164): the decoder an opcode selects, what it makes of an encoded word, and the
words it rejects. -/

namespace Sys2Proof.Machine

/-! ### The decoder an opcode selects (R151, R164) -/

/-- The low three bits of a word are those of its opcode (R151). -/
theorem format_opField (w : Word) : (opField w).extractLsb' 0 3 = w.extractLsb' 0 3 :=
  BitVec.extractLsb'_extractLsb'_of_le (by decide)

theorem decode_of_opField_39 {w : Word} (op : opField w = 0x39#6) : decode w = decode39 w := by
  have format : w.extractLsb' 0 3 = 1#3 := by rw [← format_opField, op]; rfl
  simp only [decode, format, decodeReg, op]

theorem decode_of_opField_31 {w : Word} (op : opField w = 0x31#6) : decode w = decode31 w := by
  have format : w.extractLsb' 0 3 = 1#3 := by rw [← format_opField, op]; rfl
  simp only [decode, format, decodeReg, op]

/-- The low three bits that R151 gives to the jumps, the branches and the register operations. -/
def nonImmFormats : List (BitVec 3) := [7, 6, 5, 1]

theorem decode_of_immFormat {w : Word} (format : w.extractLsb' 0 3 ∉ nonImmFormats) : decode w = decodeImm w := by
  unfold decode
  split <;> simp_all [nonImmFormats]

theorem decode_encBranch {op : BitVec 6} (format : op.extractLsb' 0 3 = 5#3) (ra : RegNum) (imm : BitVec 21) :
    decode (encBranch op ra imm) = decodeBranch (encBranch op ra imm) := by
  simp only [decode, encBranch_format, format]

theorem decode_encImm {op : BitVec 6} (format : op.extractLsb' 0 3 ∉ nonImmFormats) (ra rb : RegNum) (imm : BitVec 16) :
    decode (encImm op ra rb imm) = decodeImm (encImm op ra rb imm) :=
  decode_of_immFormat (by rwa [encImm_format])

/-! ### Decoding an encoded word -/

section
variable (f : BitVec 4) (ra rb : RegNum) (sc : ShiftedReg)

theorem shiftedField_encReg (op : BitVec 6) : shiftedField (encReg op f ra rb sc) = sc := by
  simp only [shiftedField, encReg_rc, encReg_shift, ShiftType.ofBits_toBits, encReg_shamt]

theorem decode_encReg_39 : decode (encReg 0x39 f ra rb sc) = decode39 (encReg 0x39 f ra rb sc) :=
  decode_of_opField_39 (encReg_op _ _ _ _ _)

theorem decode_encReg_31 : decode (encReg 0x31 f ra rb sc) = decode31 (encReg 0x31 f ra rb sc) :=
  decode_of_opField_31 (encReg_op _ _ _ _ _)

theorem decode_encReg_29 : decode (encReg 0x29 f ra rb sc) = decode29 (encReg 0x29 f ra rb sc) :=
  decode_of_opField (encReg_op _ _ _ _ _)

end

/-- The decoder undoes the encoder, format by format: the opcode selects the decoder, the opcode or the function code its
arm, and the arm reads the operands' fields. -/
theorem decode_encode (i : Instr) : decode (encode i) = .ok i := by
  cases i with
  | j | jal => simp [encode, decode]
  | beq | bne | blt | bgt | ble | bge | bpe | bpo =>
    rw [encode, decode_encBranch (by decide)]
    simp [decodeBranch]
  | addi | subi | slti | sltiSigned | andi | xori | ori | lui | loadByte | loadInt | loadLong | storeByte | storeInt
  | storeLong | storeByteSmall | storeIntSmall | storeLongSmall | jalr =>
    rw [encode, decode_encImm (by decide)]
    simp [decodeImm]
  | loadByteX | loadIntX | loadLongX | storeByteX | storeIntX | storeLongX | add | sub | slt | sltSigned | and | xor | or
  | nor =>
    rw [encode, decode_encReg_39]
    simp [decode39, shiftedField_encReg]
  | lsh | rsh | ash | ror =>
    rw [encode, decode_encReg_39]
    simp [decode39, decodeShift]
  | mul | div | divSigned | mod | ll | sc | pause | mb | wmb | brk | sys =>
    rw [encode, decode_encReg_31]
    simp [decode31, plainReg]
  | mfcr | mtcr | hlt | rfe =>
    rw [encode, decode_encReg_29]
    simp [decode29, plainReg]

/-- Settles O1: the bytes give the word back, and the decoder undoes the encoder on words. -/
theorem decodeUndoesEncode : Obligations.DecodeUndoesEncode := by
  unfold Obligations.DecodeUndoesEncode
  intro i
  rw [decodeBytes_bytesOfWord, decode_encode]

/-- Settles O3: the words are evaluated, and an encoded word decodes to its instruction. -/
theorem matchWordsOfTheTable : Obligations.MatchWordsOfTheTable := by
  unfold Obligations.MatchWordsOfTheTable
  intro p inTable
  have word : encode p.1 = p.2 := by
    revert p
    decide
  exact ⟨word, word ▸ decode_encode p.1⟩

/-- Settles O5: the opcode selects the decoder, the function code its arm, and the arm reads no field but those the
instruction uses. -/
theorem unusedFieldsAreIgnored : Obligations.UnusedFieldsAreIgnored := by
  unfold Obligations.UnusedFieldsAreIgnored
  intro ra rb sc
  simp only [decode_encReg_31, decode_encReg_29, decode_encReg_39]
  simp [decode31, decode29, decode39, decodeShift]

/-! ### The words the decoder rejects -/

/-- The answer of a decoder to a word that is no instruction. -/
def Rejects (r : Except DecodeError Instr) : Prop := ∃ e, r = .error e

theorem rejects_error (e : DecodeError) : Rejects (.error e) := ⟨e, rfl⟩

theorem not_rejects_ok (i : Instr) : ¬Rejects (.ok i) := fun ⟨_, h⟩ => nomatch h

/-- The opcodes left unassigned (R159). -/
def unassignedOpcodes : List (BitVec 6) :=
  [0x00, 0x01, 0x02, 0x03, 0x08, 0x09, 0x0B, 0x10, 0x11, 0x13, 0x18, 0x19, 0x1B, 0x20, 0x21, 0x22, 0x23, 0x28, 0x30]

/-- The opcodes of the immediate operate format (R159). -/
def immOpcodes : List (BitVec 6) :=
  [0x3C, 0x34, 0x2C, 0x24, 0x1C, 0x14, 0x0C, 0x04, 0x3B, 0x33, 0x2B, 0x3A, 0x32, 0x2A, 0x1A, 0x12, 0x0A, 0x38]

/-- The function codes that opcode 0x31 leaves unassigned (44_reg_operate R315). -/
def unassignedFuncts31 : List (BitVec 4) := [0xE, 0xA, 0x7, 0x5, 0x4]

/-- The function codes that opcode 0x29 leaves unassigned (45_privileged R338). -/
def unassignedFuncts29 : List (BitVec 4) := [0xD, 0xA, 0x9, 0x8, 0x7, 0x6, 0x5, 0x4, 0x3, 0x2, 0x1, 0x0]

theorem jump_opcode_assigned :
    ∀ op : BitVec 6, op.extractLsb' 0 3 = 7#3 ∨ op.extractLsb' 0 3 = 6#3 → op ∉ unassignedOpcodes := by
  decide

theorem imm_or_unassigned_opcode :
    ∀ op : BitVec 6, op.extractLsb' 0 3 ∉ nonImmFormats → op ∈ immOpcodes ∨ op ∈ unassignedOpcodes := by
  decide

section
variable {w : Word}

theorem decode39_rejects_iff : Rejects (decode39 w) ↔ functField w = 0xC#4 := by
  unfold decode39
  generalize functField w = f
  split
  case h_16 => exact iff_of_true (rejects_error _) (by revert f; decide)
  all_goals exact iff_of_false (not_rejects_ok _) (by decide)

theorem decode31_rejects_iff : Rejects (decode31 w) ↔ functField w ∈ unassignedFuncts31 := by
  unfold decode31
  generalize functField w = f
  split
  case h_12 => exact iff_of_true (rejects_error _) (by revert f; decide)
  all_goals exact iff_of_false (not_rejects_ok _) (by decide)

theorem decode29_rejects_iff : Rejects (decode29 w) ↔ functField w ∈ unassignedFuncts29 := by
  unfold decode29
  generalize functField w = f
  split
  case h_5 => exact iff_of_true (rejects_error _) (by revert f; decide)
  all_goals exact iff_of_false (not_rejects_ok _) (by decide)

/-- All eight opcodes of the branch format are assigned. -/
theorem decodeBranch_rejects_iff (format : (opField w).extractLsb' 0 3 = 5#3) :
    Rejects (decodeBranch w) ↔ opField w ∈ unassignedOpcodes := by
  unfold decodeBranch
  generalize opField w = op at format ⊢
  split
  case h_9 => exact iff_of_true (rejects_error _) (by revert op; decide)
  all_goals exact iff_of_false (not_rejects_ok _) (by decide)

theorem decodeImm_rejects_iff (format : (opField w).extractLsb' 0 3 ∉ nonImmFormats) :
    Rejects (decodeImm w) ↔ opField w ∈ unassignedOpcodes := by
  unfold decodeImm
  generalize opField w = op at format ⊢
  split
  case h_19 =>
    have noImm : op ∉ immOpcodes := by simp_all [immOpcodes]
    exact iff_of_true (rejects_error _) ((imm_or_unassigned_opcode op format).resolve_left noImm)
  all_goals exact iff_of_false (not_rejects_ok _) (by decide)

theorem decodeReg_rejects_iff (format : (opField w).extractLsb' 0 3 = 1#3) (not39 : opField w ≠ 0x39#6)
    (not31 : opField w ≠ 0x31#6) (not29 : opField w ≠ 0x29#6) :
    Rejects (decodeReg w) ↔ opField w ∈ unassignedOpcodes := by
  unfold decodeReg
  generalize opField w = op at format not39 not31 not29 ⊢
  split
  case h_4 => exact iff_of_true (rejects_error _) (by revert op; decide)
  all_goals contradiction

/-- Of a word without a function code, the opcode decides. -/
theorem decode_rejects_iff_of_no_funct (not39 : opField w ≠ 0x39#6) (not31 : opField w ≠ 0x31#6)
    (not29 : opField w ≠ 0x29#6) : Rejects (decode w) ↔ opField w ∈ unassignedOpcodes := by
  unfold decode
  rw [← format_opField]
  split <;> rename_i format
  · exact iff_of_false (not_rejects_ok _) (jump_opcode_assigned _ (.inl format))
  · exact iff_of_false (not_rejects_ok _) (jump_opcode_assigned _ (.inr format))
  · exact decodeBranch_rejects_iff format
  · exact decodeReg_rejects_iff format not39 not31 not29
  · exact decodeImm_rejects_iff (by simp_all [nonImmFormats])

/-- The rejected words, by their fields (R162). -/
theorem decode_rejects_iff :
    Rejects (decode w) ↔
      opField w ∈ unassignedOpcodes ∨
      opField w = 0x39#6 ∧ functField w = 0xC#4 ∨
      opField w = 0x31#6 ∧ functField w ∈ unassignedFuncts31 ∨
      opField w = 0x29#6 ∧ functField w ∈ unassignedFuncts29 := by
  by_cases op39 : opField w = 0x39#6
  · rw [decode_of_opField_39 op39, decode39_rejects_iff]
    simp [op39, unassignedOpcodes]
  by_cases op31 : opField w = 0x31#6
  · rw [decode_of_opField_31 op31, decode31_rejects_iff]
    simp [op31, unassignedOpcodes]
  by_cases op29 : opField w = 0x29#6
  · rw [decode_of_opField op29, decode29_rejects_iff]
    simp [op29, unassignedOpcodes]
  rw [decode_rejects_iff_of_no_funct op39 op31 op29]
  simp [op39, op31, op29]

theorem opField_toNat : (opField w).toNat = w.toNat % 64 := by
  rw [opField, BitVec.extractLsb'_toNat, Nat.shiftRight_zero]

theorem functField_toNat : (functField w).toNat = w.toNat / 2 ^ 28 := by
  have := w.isLt
  rw [functField, BitVec.extractLsb'_toNat, Nat.shiftRight_eq_div_pow]
  omega

end

theorem mem_iff_toNat_mem {n : Nat} (x : BitVec n) (l : List (BitVec n)) : x ∈ l ↔ x.toNat ∈ l.map BitVec.toNat :=
  (List.mem_map_of_injective fun _ _ => BitVec.eq_of_toNat_eq).symm

/-- Settles O4: the rejected words by their fields, read as numbers. -/
theorem rejectedWordsAreTheUnassignedOnes : Obligations.RejectedWordsAreTheUnassignedOnes := by
  unfold Obligations.RejectedWordsAreTheUnassignedOnes
  intro w
  refine decode_rejects_iff.trans ?_
  simp only [mem_iff_toNat_mem, ← BitVec.toNat_inj, opField_toNat, functField_toNat]
  rfl

end Sys2Proof.Machine
end

section
/-! The four formats and the four shifts as numbers (spec/30_encoding.md R152 to R157, R180). -/

namespace Sys2Proof.Machine

/-! ### The formats -/

theorem toBits_toNat (t : ShiftType) : t.toBits.toNat = shiftNumber t := by
  cases t <;> rfl

theorem encJump_toNat (op : BitVec 3) (imm : BitVec 29) : (encJump op imm).toNat = imm.toNat * 2 ^ 3 + op.toNat := by
  rw [encJump, append_toNat]

theorem encBranch_toNat (op : BitVec 6) (ra : RegNum) (imm : BitVec 21) :
    (encBranch op ra imm).toNat = branchNumber op.toNat ra imm := by
  simp only [encBranch, append_toNat, branchNumber]
  omega

theorem encImm_toNat (op : BitVec 6) (ra rb : RegNum) (imm : BitVec 16) :
    (encImm op ra rb imm).toNat = immNumber op.toNat ra rb imm := by
  simp only [encImm, append_toNat, immNumber]
  omega

theorem encReg_toNat (op : BitVec 6) (funct : BitVec 4) (ra rb : RegNum) (sc : ShiftedReg) :
    (encReg op funct ra rb sc).toNat = regNumber op.toNat funct.toNat ra rb sc := by
  simp only [encReg, append_toNat, regNumber, toBits_toNat]
  omega

/-- Settles O2: a concatenation of fields is the sum of the fields at their positions. -/
theorem encodingFormulas : Obligations.EncodingFormulas := by
  unfold Obligations.EncodingFormulas
  intro op3 op funct ra rb sc imm29 imm21 imm16
  exact ⟨encJump_toNat op3 imm29, encBranch_toNat op ra imm21, encImm_toNat op ra rb imm16,
    encReg_toNat op funct ra rb sc⟩

/-! ### The shifts (R157; log 43) -/

theorem shiftBy_lsh_toNat (v : Word) (a : BitVec 5) : (shiftBy .lsh v a).toNat = v.toNat * 2 ^ a.toNat % 2 ^ 32 := by
  rw [shiftBy, BitVec.toNat_shiftLeft, Nat.shiftLeft_eq]

theorem shiftBy_rsh_toNat (v : Word) (a : BitVec 5) : (shiftBy .rsh v a).toNat = v.toNat / 2 ^ a.toNat := by
  rw [shiftBy, BitVec.toNat_ushiftRight, Nat.shiftRight_eq_div_pow]

theorem shiftBy_ash_toInt (v : Word) (a : BitVec 5) : (shiftBy .ash v a).toInt = v.toInt / 2 ^ a.toNat := by
  rw [shiftBy, BitVec.toInt_sshiftRight, Int.shiftRight_eq_div_pow, Nat.cast_pow, Nat.cast_ofNat]

/-- The rotation puts the low bits on top of the high ones; the two parts share no bit, so they add. -/
theorem shiftBy_ror_toNat (v : Word) (a : BitVec 5) :
    (shiftBy .ror v a).toNat = v.toNat / 2 ^ a.toNat + v.toNat % 2 ^ a.toNat * 2 ^ (32 - a.toNat) := by
  have amount : a.toNat < 32 := a.isLt
  have word : 2 ^ 32 = 2 ^ a.toNat * 2 ^ (32 - a.toNat) := by rw [← Nat.pow_add, Nat.add_sub_cancel' amount.le]
  have top : v.toNat * 2 ^ (32 - a.toNat) % 2 ^ 32 = 2 ^ (32 - a.toNat) * (v.toNat % 2 ^ a.toNat) := by
    rw [word, Nat.mul_mod_mul_right, Nat.mul_comm]
  have below : v.toNat / 2 ^ a.toNat < 2 ^ (32 - a.toNat) := Nat.div_lt_of_lt_mul (word ▸ v.isLt)
  rw [shiftBy, BitVec.toNat_rotateRight, Nat.mod_eq_of_lt amount, Nat.shiftRight_eq_div_pow, Nat.shiftLeft_eq, top,
    Nat.or_comm, ← Nat.two_pow_add_eq_or_of_lt below, Nat.add_comm, Nat.mul_comm (2 ^ _)]

/-- Settles O16, shift type by shift type. -/
theorem shiftMeaning : Obligations.ShiftMeaning := by
  unfold Obligations.ShiftMeaning
  intro kind v a
  cases kind with
  | lsh => exact shiftBy_lsh_toNat v a
  | rsh => exact shiftBy_rsh_toNat v a
  | ash => exact shiftBy_ash_toInt v a
  | ror => exact shiftBy_ror_toNat v a

end Sys2Proof.Machine
end

section
/-! The pseudo-instructions (spec/30_encoding.md R166 to R179): what each expansion computes while register 0 is wired. -/

namespace Sys2Proof.Machine

/-! ### Sequences and registers -/

theorem execList_single {i : Instr} {s t : State} (h : exec i s = .next t) : execList [i] s = .next t :=
  execList_cons_of_next h

/-- Two instructions that write the same register and change nothing else but the pc. -/
theorem WritesReg.trans {r : RegNum} {v v' : Word} {s t u : State} (first : WritesReg r v s t)
    (second : WritesReg r v' t u) : WritesReg r v' s u := by
  obtain ⟨-, others, stored, mem, same⟩ := first
  obtain ⟨value', others', stored', mem', same'⟩ := second
  have wired : t.wired r = s.wired r := by rw [same]; rfl
  rw [wired] at value' stored'
  refine ⟨value', fun q other => (others' q other).trans (others q other),
    fun i hi other => (stored' i hi other).trans (stored i hi other), fun a => (mem' a).trans (mem a), ?_⟩
  rw [same', same]

/-- What is written to the wired zero does not matter. -/
theorem WritesReg.of_wired {r : RegNum} {v v' : Word} {s t : State} (wired : s.wired r = true) (h : WritesReg r v s t) :
    WritesReg r v' s t := by
  obtain ⟨value, rest⟩ := h
  rw [if_pos wired] at value
  exact ⟨by rw [value, if_pos wired], rest⟩

/-- Writing back what a register reads changes nothing. -/
theorem writeReg_readReg (s : State) (r : RegNum) : s.writeReg r (s.readReg r) = s := by
  cases wired : s.wired r <;> simp [State.writeReg, State.readReg, wired]

/-- A write to the wired zero changes nothing (10_state R23). -/
theorem writeReg_of_wired {s : State} {r : RegNum} (wired : s.wired r = true) (v : Word) : s.writeReg r v = s := by
  simp [State.writeReg, wired]

theorem onlyPc_goto (s : State) (v : Word) : OnlyPc s (s.goto v) := ⟨rfl, fun _ => rfl⟩

/-! ### The instructions the expansions are made of -/

theorem branchOffset_eq_ofInt (imm : BitVec 21) : branchOffset imm = BitVec.ofInt 32 (4 * imm.toInt) := by
  rw [branchOffset, BitVec.shiftLeft_eq_mul_twoPow, BitVec.mul_comm, BitVec.ofInt_mul]
  rfl

/-- The target of a branch, by the signed offset (41_branch R200). -/
theorem add_branchOffset_toNat (pc : Word) (imm : BitVec 21) :
    ((pc + branchOffset imm).toNat : Int) = ((pc.toNat : Int) + 4 * imm.toInt) % 2 ^ 32 := by
  rw [branchOffset_eq_ofInt, BitVec.toNat_add, BitVec.toNat_ofInt]
  omega

theorem zext16_eq_ofNat (imm : BitVec 16) : zext16 imm = BitVec.ofNat 32 imm.toNat :=
  scaledOffset_byte imm

theorem exec_nop (s : State) : exec (.addi 0#5 0#5 0#16) s = .next s.advance := by
  have value : s.readReg 0#5 + zext16 0#16 = s.readReg 0#5 := by simp [zext16]
  simp only [exec, execAddi, writeAndAdvance, value, writeReg_readReg]

section
variable {s : State} (clear : s.bitT = false)
include clear

theorem exec_beq_zero (imm : BitVec 21) : exec (.beq 0#5 imm) s = .next (s.goto (s.pc + branchOffset imm)) := by
  simp [exec, execBeq, branchIf, readReg_zero_of_not_bitT clear, isZero]

/-- A jump through a register, which discards its link (42_imm_operate R243). -/
theorem exec_jalr_zero (rb : RegNum) : exec (.jalr 0#5 rb 0#16) s = .next (s.goto (s.readReg rb)) := by
  have wired : s.wired 0#5 = true := (wired_iff s 0#5).mpr ⟨rfl, clear⟩
  have offset : jalrOffset 0#16 = 0 := by decide
  simp [exec, execJalr, jalrBase, writeReg_of_wired wired, wired, offset]

theorem exec_add_zero_right (ra rb : RegNum) :
    exec (.add ra rb ⟨0#5, .lsh, 0#5⟩) s = .next (s.writeReg ra (s.readReg rb)).advance := by
  simp [exec, execAdd, writeAndAdvance, State.shifted, readReg_zero_of_not_bitT clear, shiftBy]

theorem exec_add_zero_left (ra : RegNum) (sc : ShiftedReg) :
    exec (.add ra 0#5 sc) s = .next (s.writeReg ra (s.shifted sc)).advance := by
  simp [exec, execAdd, writeAndAdvance, readReg_zero_of_not_bitT clear]

theorem exec_addi_zero (ra : RegNum) (imm : BitVec 16) :
    exec (.addi ra 0#5 imm) s = .next (s.writeReg ra (BitVec.ofNat 32 imm.toNat)).advance := by
  simp only [exec, execAddi, writeAndAdvance, readReg_zero_of_not_bitT clear, zero_add, zext16_eq_ofNat]

end

/-! ### The upper half of a 32-bit operand in a register -/

theorem upper16_upperHalf_toNat (v : Word) : (upper16 (upperHalf v)).toNat = v.toNat / 2 ^ 16 * 2 ^ 16 := by
  have := v.isLt
  rw [upper16, append_toNat, upperHalf, BitVec.extractLsb'_toNat, Nat.shiftRight_eq_div_pow, BitVec.toNat_ofNat]
  omega

theorem lowerHalf_toNat (v : Word) : (lowerHalf v).toNat = v.toNat % 2 ^ 16 := by
  rw [lowerHalf, BitVec.extractLsb'_toNat, Nat.shiftRight_zero]

/-- The halves of a word, put together again. -/
theorem upper_or_lower (v : Word) : upper16 (upperHalf v) ||| zext16 (lowerHalf v) = v := by
  apply BitVec.eq_of_getLsbD_eq
  intro i hi
  simp only [upper16, upperHalf, zext16, lowerHalf, BitVec.getLsbD_or, BitVec.getLsbD_append, BitVec.getLsbD_extractLsb',
    BitVec.truncate_eq_setWidth, BitVec.getLsbD_setWidth]
  by_cases low : i < 16
  · simp [low, hi]
  · have top : i - 16 < 16 := by omega
    simp [low, top, Nat.add_sub_cancel' (Nat.le_of_not_lt low)]

/-- The state after the first instruction of LA, or of an access to a 32-bit address: the register holds the upper half. -/
def upperLoaded (s : State) (r : RegNum) (v : Word) : State := (s.writeReg r (upper16 (upperHalf v))).advance

section
variable {s : State} {r : RegNum} {v : Word}

theorem exec_lui_upperHalf (clear : s.bitT = false) :
    exec (.lui r 0#5 (upperHalf v)) s = .next (upperLoaded s r v) := by
  simp [exec, execLui, writeAndAdvance, readReg_zero_of_not_bitT clear, upperLoaded]

theorem writesReg_upperLoaded : WritesReg r (upper16 (upperHalf v)) s (upperLoaded s r v) :=
  writesReg_writeReg_advance s r _

theorem readReg_upperLoaded_other {q : RegNum} (other : q ≠ r) : (upperLoaded s r v).readReg q = s.readReg q :=
  readReg_writeReg_other s _ other

/-- The wired zero does not take the upper half. -/
theorem readReg_upperLoaded_toNat (clear : s.bitT = false) :
    ((upperLoaded s r v).readReg r).toNat = if r = 0 then 0 else v.toNat / 2 ^ 16 * 2 ^ 16 := by
  have value : (upperLoaded s r v).readReg r = if s.wired r then 0 else upper16 (upperHalf v) :=
    readReg_writeReg_same s r _
  rw [value]
  by_cases zero : r = 0
  · rw [if_pos ((wired_iff s r).mpr ⟨zero, clear⟩), if_pos zero]
    rfl
  · rw [wired_of_ne_zero s zero, if_neg Bool.false_ne_true, if_neg zero, upper16_upperHalf_toNat]

theorem translateVa_upperLoaded (va : Word) (kind : AccessKind) :
    translateVa va kind (upperLoaded s r v) = translateVa va kind s :=
  translateVa_congr va kind rfl (by cases kind <;> rfl) (by cases kind <;> rfl) rfl

/-! ### Accesses to a 32-bit address -/

/-- The lower half, divided by the access size as R166 says, is the offset of the access again. -/
theorem offsetField_scaled {w : Width} (al : v.toNat % w.bytes = 0) :
    (offsetField w (lowerHalf v)).toNat * w.bytes = v.toNat % 2 ^ 16 := by
  have lower := lowerHalf_toNat v
  cases w <;> simp only [Width.bytes, offsetField, BitVec.toNat_ushiftRight, Nat.shiftRight_eq_div_pow] at al ⊢ <;> omega

/-- The upper half in the register and the lower half as the offset make the address; where the register is the wired zero,
the lower half alone. -/
theorem upperLoaded_address (clear : s.bitT = false) {va : Word} {w : Width}
    (address : va.toNat = if r = 0 then v.toNat % 2 ^ 16 else v.toNat) (al : v.toNat % w.bytes = 0) :
    (upperLoaded s r v).readReg r + BitVec.ofNat 32 ((offsetField w (lowerHalf v)).toNat * w.bytes) = va := by
  apply BitVec.eq_of_toNat_eq
  have := v.isLt
  rw [BitVec.toNat_add, readReg_upperLoaded_toNat clear, offsetField_scaled al, BitVec.toNat_ofNat, address]
  split <;> omega

/-- The upper half is a multiple of every access size. -/
theorem address_aligned {va : Word} {w : Width}
    (address : va.toNat = if r = 0 then v.toNat % 2 ^ 16 else v.toNat) (al : v.toNat % w.bytes = 0) :
    va.toNat % w.bytes = 0 := by
  rw [address]
  cases w <;> simp only [Width.bytes] at al ⊢ <;> split <;> omega

/-- The state after a store to a 32-bit address, of `data` at the physical address `a`. -/
def storedAt (s : State) (r : RegNum) (v : Word) (a : Nat) (w : Width) (data : Word) : State :=
  ((upperLoaded s r v).ownStore a w data).advance

theorem storesBytes_storedAt (wf : s.mem.wf) (a : Nat) (w : Width) (data : Word) :
    StoresBytes a w data s (storedAt s r v a w data) :=
  storesBytes_ownStore (s := upperLoaded s r v) wf a w data

theorem readReg_storedAt (a : Nat) (w : Width) (data : Word) (q : RegNum) :
    (storedAt s r v a w data).readReg q = (upperLoaded s r v).readReg q := rfl

theorem storedAt_frame (a : Nat) (w : Width) (data : Word) :
    storedAt s r v a w data =
      { s with
        pc := s.pc + 8, regs := (storedAt s r v a w data).regs, mem := (storedAt s r v a w data).mem,
        icacheStale := (storedAt s r v a w data).icacheStale,
        dcacheStale := (storedAt s r v a w data).dcacheStale } := by
  have pc : s.pc + 8 = (storedAt s r v a w data).pc := by
    simp [storedAt, upperLoaded, State.nextPc, BitVec.add_assoc]
  rw [pc]
  rfl

theorem loadOf_loadImm (w : Width) (ra rb : RegNum) (imm : BitVec 16) :
    loadOf s (loadImm w ra rb imm) = some (ra, s.readReg rb + BitVec.ofNat 32 (imm.toNat * w.bytes), w) := by
  cases w with
  | byte => rw [Width.bytes, Nat.mul_one]; rfl
  | int | long => rfl

theorem storeOf_storeImm (w : Width) (ra rb : RegNum) (imm : BitVec 16) :
    storeOf s (storeImm w ra rb imm) =
      some (s.readReg ra + BitVec.ofNat 32 (imm.toNat * w.bytes), w, s.readReg rb) := by
  cases w with
  | byte => rw [Width.bytes, Nat.mul_one]; rfl
  | int | long => rfl

end

/-! ### The pseudo-instructions -/

section
variable {s : State} (clear : s.bitT = false) (ra rb : RegNum)
include clear

/-- LA (R175): the upper half goes into the register, the lower half is put below it. -/
theorem execList_la (imm : Word) :
    ∃ t, execList (expand (.la ra imm)) s = .next t ∧ WritesReg ra imm s t ∧ t.pc = s.pc + 8 := by
  have first := exec_lui_upperHalf (r := ra) (v := imm) clear
  refine ⟨_, (execList_cons_of_next first).trans (execList_single rfl), ?_, ?_⟩
  · have both := (writesReg_upperLoaded (s := s)).trans (writesReg_writeReg_advance (upperLoaded s ra imm) ra
      ((upperLoaded s ra imm).readReg ra ||| zext16 (lowerHalf imm)))
    cases wired : s.wired ra with
    | true => exact both.of_wired wired
    | false =>
      have value : (upperLoaded s ra imm).readReg ra = upper16 (upperHalf imm) := by
        simp [upperLoaded, wired]
      rw [value, upper_or_lower] at both
      rw [value, upper_or_lower]
      exact both
  · simp [State.nextPc, upperLoaded, BitVec.add_assoc]

/-- The load from a 32-bit address (R178). -/
theorem execList_loadAt {w : Width} {address va pa : Word} {bypass : Bool}
    (value : va.toNat = if ra = 0 then address.toNat % 2 ^ 16 else address.toNat) (al : address.toNat % w.bytes = 0)
    (tr : translateVa va .read s = .ok (pa, bypass)) (mem : OrdinaryMemory s pa) :
    ∃ v t, execList (expand (.loadAt w ra address)) s = .next t ∧ ReadsAs s.dcacheStale s.mem pa w bypass v ∧
      WritesReg ra v s t ∧ t.pc = s.pc + 8 := by
  have load := loadOf_loadImm (s := upperLoaded s ra address) w ra ra (offsetField w (lowerHalf address))
  rw [upperLoaded_address clear value al] at load
  have aligned := address_aligned value al
  have run := exec_load_memory load aligned ((translateVa_upperLoaded va .read).trans tr) mem
  refine ⟨_, _, (execList_cons_of_next (exec_lui_upperHalf clear)).trans (execList_single run),
    readsAs_seenThrough _ _ _ _ (translateVa_aligned w tr aligned),
    writesReg_upperLoaded.trans (writesReg_writeReg_advance _ ra _), ?_⟩
  simp [State.nextPc, upperLoaded, BitVec.add_assoc]

/-- The store to a 32-bit address (R179). -/
theorem execList_storeAt {w : Width} {address va pa : Word} {bypass : Bool}
    (value : va.toNat = if rb = 0 then address.toNat % 2 ^ 16 else address.toNat) (al : address.toNat % w.bytes = 0)
    (tr : translateVa va .write s = .ok (pa, bypass)) (ram : regionAt s.regions pa.toNat = .ram) :
    execList (expand (.storeAt w address ra rb)) s =
      .next (storedAt s rb address pa.toNat w ((upperLoaded s rb address).readReg ra)) := by
  have store := storeOf_storeImm (s := upperLoaded s rb address) w rb ra (offsetField w (lowerHalf address))
  rw [upperLoaded_address clear value al] at store
  have run := exec_store_ram store (address_aligned value al) ((translateVa_upperLoaded va .write).trans tr) ram
  exact (execList_cons_of_next (exec_lui_upperHalf clear)).trans (execList_single run)

/-- What the store to a 32-bit address stores: its register, which may be the one that took the upper half. -/
theorem stored_toNat (v : Word) :
    ((upperLoaded s rb v).readReg ra).toNat =
      if ra = rb ∧ ra ≠ 0 then v.toNat / 2 ^ 16 * 2 ^ 16 else (s.readReg ra).toNat := by
  by_cases same : ra = rb
  · subst same
    rw [readReg_upperLoaded_toNat clear]
    by_cases zero : ra = 0
    · rw [if_pos zero, if_neg fun both => both.2 zero, zero]
      exact congrArg BitVec.toNat (readReg_zero_of_not_bitT clear).symm
    · rw [if_neg zero, if_pos ⟨rfl, zero⟩]
  · rw [readReg_upperLoaded_other same, if_neg fun both => same both.1]

end

/-- Settles O60, expansion by expansion. -/
theorem pseudoInstructions : Obligations.PseudoInstructions := by
  unfold Obligations.PseudoInstructions
  intro s ra rb
  refine ⟨⟨_, execList_single (exec_nop s), onlyPc_goto s _, rfl⟩, fun clear => ⟨fun imm => ?b, ?ret, ?jr, ?mov,
    fun imm => ?li, execList_la clear ra, fun kind a => ?shift,
    fun w address va pa bypass value al tr mem => ?load,
    fun w address va pa bypass wf value al tr ram => ?store⟩⟩
  case b => exact ⟨_, execList_single (exec_beq_zero clear imm), onlyPc_goto s _, add_branchOffset_toNat s.pc imm⟩
  case ret => exact ⟨_, execList_single (exec_jalr_zero clear 31), onlyPc_goto s _, rfl⟩
  case jr => exact ⟨_, execList_single (exec_jalr_zero clear ra), onlyPc_goto s _, rfl⟩
  case mov =>
    exact ⟨_, execList_single (exec_add_zero_right clear ra rb), writesReg_writeReg_advance s ra _, rfl⟩
  case li => exact ⟨_, execList_single (exec_addi_zero clear ra imm), writesReg_writeReg_advance s ra _, rfl⟩
  case shift =>
    exact ⟨_, _, execList_single (exec_add_zero_left clear ra ⟨rb, kind, a⟩), shiftMeaning kind (s.readReg rb) a,
      writesReg_writeReg_advance s ra _, rfl⟩
  case load => exact execList_loadAt clear ra value al tr mem
  case store =>
    have run := execList_storeAt clear ra rb value al tr ram
    refine ⟨_, _, run, storesBytes_storedAt wf pa.toNat w _, ?_, ?_, ?_, ?_⟩
    · exact stored_toNat clear ra rb address
    · rw [readReg_storedAt]
      exact readReg_upperLoaded_toNat clear
    · intro r other
      rw [readReg_storedAt]
      exact readReg_upperLoaded_other other
    · exact storedAt_frame pa.toNat w _

end Sys2Proof.Machine
end

section
/-! Jumps (spec/40_jump.md R190, R191; spec/10_state.md R25, R27): the target and the link as numbers. -/

namespace Sys2Proof.Machine

/-- Bit 31 of the pc is the half of the address space it lies in (R190). -/
theorem jumpTarget_toNat (pc : Word) (imm : BitVec 29) :
    (jumpTarget pc imm).toNat = imm.toNat * 4 + pc.toNat / 2 ^ 31 * 2 ^ 31 := by
  have half : (pc.extractLsb' 31 1).toNat = pc.toNat / 2 ^ 31 := by
    rw [BitVec.extractLsb'_toNat, Nat.shiftRight_eq_div_pow]
    omega
  simp only [jumpTarget, append_toNat, half, BitVec.toNat_ofNat]
  omega

theorem nextPc_eq_ofNat (s : State) : s.nextPc = BitVec.ofNat 32 (s.pc.toNat + 4) := by
  rw [State.nextPc, BitVec.ofNat_add, BitVec.ofNat_toNat, BitVec.setWidth_eq]
  rfl

/-- Writing a register and jumping writes that register and nothing else but the pc (R191). -/
theorem writesReg_writeReg_goto (s : State) (r : RegNum) (v target : Word) :
    WritesReg r v s ((s.writeReg r v).goto target) := by
  obtain ⟨value, others, stored, mem, -⟩ := writesReg_writeReg_advance s r v
  exact ⟨value, others, stored, mem, rfl⟩

theorem exec_j (imm : BitVec 29) (s : State) : exec (.j imm) s = .next (s.goto (jumpTarget s.pc imm)) := rfl

/-- JAL's link is the next sequential pc (R191). -/
theorem exec_jal (imm : BitVec 29) (s : State) :
    exec (.jal imm) s =
      .next ((s.writeReg 31 (BitVec.ofNat 32 (s.pc.toNat + 4))).goto (jumpTarget s.pc imm)) := by
  rw [← nextPc_eq_ofNat]
  rfl

/-- Register 31 is never the wired zero, so it holds what is written whatever T is (10_state R22, R23). -/
theorem readReg_writeReg_link (s : State) (v : Word) : (s.writeReg 31 v).readReg 31 = v := by
  rw [readReg_writeReg_same, wired_of_ne_zero s (by decide)]
  rfl

/-- Settles O10: J leaves all but the pc; JAL is a write of register 31 before the same jump. -/
theorem jumpTargets : Obligations.JumpTargets := by
  unfold Obligations.JumpTargets
  intro s imm
  refine ⟨⟨encJump_toNat 6 imm, ?j⟩, encJump_toNat 7 imm, ?jal⟩
  case j => exact ⟨_, exec_j imm s, onlyPc_goto s _, jumpTarget_toNat s.pc imm⟩
  case jal =>
    exact ⟨_, exec_jal imm s, writesReg_writeReg_goto s 31 _ _, readReg_writeReg_link s _, jumpTarget_toNat s.pc imm⟩

end Sys2Proof.Machine
end

section
/-! Branches (spec/41_branch.md R200 to R208; spec/30_encoding.md R153): the tests of a register as numbers, and what a
branch does whichever way its test goes. -/

namespace Sys2Proof.Machine

/-! ### The tests of a register -/

theorem isZero_iff (v : Word) : isZero v = true ↔ v.toNat = 0 := by
  rw [isZero, beq_iff_eq, ← BitVec.toNat_inj]
  rfl

theorem isNonzero_iff (v : Word) : isNonzero v = true ↔ v.toNat ≠ 0 := by
  rw [isNonzero, bne_iff_ne, ne_eq, ← BitVec.toNat_inj]
  rfl

/-- Bit 31 is the sign of a word (R203). -/
theorem isNegative_iff (v : Word) : isNegative v = true ↔ v.toInt < 0 := by
  have sign : isNegative v = v.msb := (BitVec.msb_eq_getLsbD_last v).symm
  rw [sign, BitVec.msb_eq_toInt, decide_eq_true_iff]

theorem isNotNegative_iff (v : Word) : isNotNegative v = true ↔ 0 ≤ v.toInt := by
  have sign : isNotNegative v = !isNegative v := rfl
  rw [sign, Bool.not_eq_true', ← Bool.not_eq_true, isNegative_iff, not_lt]

/-- Zero is the word whose signed value is zero, so the tests of the sign and of zero speak of one number. -/
theorem toInt_eq_zero_iff (v : Word) : v.toInt = 0 ↔ v.toNat = 0 := by
  rw [← BitVec.toInt_zero (w := 32), BitVec.toInt_inj, ← BitVec.toNat_inj]
  rfl

theorem isPositive_iff (v : Word) : isPositive v = true ↔ 0 < v.toInt := by
  have tests : isPositive v = (isNotNegative v && isNonzero v) := rfl
  rw [tests, Bool.and_eq_true, isNotNegative_iff, isNonzero_iff, ne_eq, ← toInt_eq_zero_iff]
  omega

theorem isNotPositive_iff (v : Word) : isNotPositive v = true ↔ v.toInt ≤ 0 := by
  have tests : isNotPositive v = (isNegative v || isZero v) := rfl
  rw [tests, Bool.or_eq_true, isNegative_iff, isZero_iff, ← toInt_eq_zero_iff]
  omega

/-- Bit 0 is the remainder by two (R207, R208). -/
theorem isOdd_iff (v : Word) : isOdd v = true ↔ v.toNat % 2 = 1 := by
  rw [isOdd, BitVec.getElem_eq_testBit_toNat, Nat.testBit_zero, decide_eq_true_iff]

theorem isEven_iff (v : Word) : isEven v = true ↔ v.toNat % 2 = 0 := by
  have test : isEven v = !isOdd v := rfl
  rw [test, Bool.not_eq_true', ← Bool.not_eq_true, isOdd_iff]
  exact Nat.mod_two_ne_one

/-! ### The branch -/

theorem nextPc_toNat (s : State) : s.nextPc.toNat = (s.pc.toNat + 4) % 2 ^ 32 := by
  rw [nextPc_eq_ofNat, BitVec.toNat_ofNat]

/-- A branch whose test decides a condition takes its target when the condition holds, else the next pc (R200). -/
theorem branches_of_branchIf {i : Instr} {s : State} {imm : BitVec 21} {taken : Bool} {cond : Prop}
    (run : exec i s = branchIf taken imm s) (test : taken = true ↔ cond) : Branches i s imm cond := by
  refine ⟨_, run, onlyPc_goto s _, fun holds => ?taken, fun fails => ?passed⟩
  case taken =>
    rw [State.goto_pc, if_pos (test.mpr holds)]
    exact add_branchOffset_toNat s.pc imm
  case passed =>
    rw [State.goto_pc, if_neg (mt test.mp fails)]
    exact nextPc_toNat s

/-- Settles O11: each branch is `branchIf` of its test, and its word is the branch word of its opcode. -/
theorem branchConditions : Obligations.BranchConditions := by
  unfold Obligations.BranchConditions
  intro s ra imm
  refine ⟨⟨encBranch_toNat 0x3D ra imm, ?beq⟩, ⟨encBranch_toNat 0x35 ra imm, ?bne⟩,
    ⟨encBranch_toNat 0x2D ra imm, ?blt⟩, ⟨encBranch_toNat 0x25 ra imm, ?bgt⟩,
    ⟨encBranch_toNat 0x1D ra imm, ?ble⟩, ⟨encBranch_toNat 0x15 ra imm, ?bge⟩,
    ⟨encBranch_toNat 0x0D ra imm, ?bpe⟩, ⟨encBranch_toNat 0x05 ra imm, ?bpo⟩⟩
  case beq => exact branches_of_branchIf rfl (isZero_iff _)
  case bne => exact branches_of_branchIf rfl (isNonzero_iff _)
  case blt => exact branches_of_branchIf rfl (isNegative_iff _)
  case bgt => exact branches_of_branchIf rfl (isPositive_iff _)
  case ble => exact branches_of_branchIf rfl (isNotPositive_iff _)
  case bge => exact branches_of_branchIf rfl (isNotNegative_iff _)
  case bpe => exact branches_of_branchIf rfl (isEven_iff _)
  case bpo => exact branches_of_branchIf rfl (isOdd_iff _)

end Sys2Proof.Machine
end

section
/-! The immediate operate group (spec/42_imm_operate.md): the loads and stores that reach memory, with those of
spec/43_reg_operate_111001.md section 1, what JALR jumps to and links, and what arithmetic and logic with an immediate
write. -/

namespace Sys2Proof.Machine

/-! ### The immediate, widened -/

theorem zext16_toNat (imm : BitVec 16) : (zext16 imm).toNat = imm.toNat :=
  BitVec.toNat_setWidth_of_le (by decide)

theorem sext16_toInt (imm : BitVec 16) : (sext16 imm).toInt = imm.toInt :=
  BitVec.toInt_signExtend_of_le (by decide)

/-! ### Loads and stores -/

/-- Writing the result of an instruction and going on completes it, with every property its value has. -/
theorem completes_of_writeAndAdvance {i : Instr} {s : State} {ra : RegNum} {v : Word} {value : Word → Prop}
    (run : exec i s = writeAndAdvance ra v s) (holds : value v) : Completes i s ra value :=
  ⟨v, _, run, holds, writesReg_writeReg_advance s ra v, rfl⟩

/-- Settles O21: a load from memory writes what the read sees. -/
theorem loadsReadTheirBytes : Obligations.LoadsReadTheirBytes := by
  unfold Obligations.LoadsReadTheirBytes
  intro s i ra va w pa bypass load al tr mem
  have aligned : pa.toNat % w.bytes = 0 := translateVa_aligned w tr al
  exact completes_of_writeAndAdvance (exec_load_memory load al tr mem) (readsAs_seenThrough _ _ _ bypass aligned)

/-- This processor's store and the next pc are all that a store into RAM does. -/
theorem storesAt_of_ownStore {i : Instr} {s : State} {a : Nat} {w : Width} {data : Word} (wf : s.mem.wf)
    (run : exec i s = .next (s.ownStore a w data).advance) : StoresAt i s a w data :=
  ⟨_, run, storesBytes_ownStore wf a w data, State.ownStore_readReg s a w data, rfl⟩

/-- Settles O22: a store to RAM is this processor's own store. -/
theorem storesWriteTheirBytes : Obligations.StoresWriteTheirBytes := by
  unfold Obligations.StoresWriteTheirBytes
  intro s i va w data pa bypass wf store al tr ram
  exact storesAt_of_ownStore wf (exec_store_ram store al tr ram)

/-! ### JALR -/

/-- JALR's offset is a branch's whose field holds the same signed number. -/
theorem jalrOffset_eq_branchOffset (imm : BitVec 16) : jalrOffset imm = branchOffset (imm.signExtend 21) := by
  have field : sext16 imm = (imm.signExtend 21).signExtend 32 := by
    apply BitVec.eq_of_toInt_eq
    rw [sext16_toInt, BitVec.toInt_signExtend_of_le (by decide), BitVec.toInt_signExtend_of_le (by decide)]
  rw [jalrOffset, field, branchOffset]

/-- The target of JALR, by its base and the signed field (R243). -/
theorem add_jalrOffset_toNat (base : Word) (imm : BitVec 16) :
    ((base + jalrOffset imm).toNat : Int) = ((base.toNat : Int) + 4 * imm.toInt) % 2 ^ 32 := by
  rw [jalrOffset_eq_branchOffset, add_branchOffset_toNat, BitVec.toInt_signExtend_of_le (by decide)]

/-- JALR is a write of its link before the jump (R243). -/
theorem exec_jalr (ra rb : RegNum) (imm : BitVec 16) (s : State) :
    exec (.jalr ra rb imm) s =
      .next ((s.writeReg ra (BitVec.ofNat 32 (s.pc.toNat + 4))).goto (jalrBase ra rb s + jalrOffset imm)) := by
  rw [← nextPc_eq_ofNat]
  rfl

/-- Where the link does not go into the register jumped through, or is discarded, the base is that register (R243). -/
theorem jalrBase_of_no_link {ra rb : RegNum} {s : State} (h : ra ≠ rb ∨ s.wired ra = true) :
    jalrBase ra rb s = s.readReg rb := by
  rw [jalrBase, if_neg]
  rintro ⟨same, real, -⟩
  rcases h with other | wired
  · exact other same
  · exact Bool.false_ne_true (real.symm.trans wired)

/-- The two readings of R244b. -/
theorem jalrBase_cases (ra rb : RegNum) (s : State) :
    jalrBase ra rb s = s.readReg rb ∨ jalrBase ra rb s = s.nextPc := by
  rw [jalrBase]
  exact (ite_eq_or_eq _ _ _).symm

/-- Settles O12: the base is register B. -/
theorem jalrTarget : Obligations.JalrTarget := by
  unfold Obligations.JalrTarget
  intro s ra rb imm
  refine ⟨encImm_toNat 0x38 ra rb imm, fun h => ⟨_, exec_jalr ra rb imm s, writesReg_writeReg_goto s ra _ _, ?_⟩⟩
  rw [State.goto_pc, jalrBase_of_no_link (h.imp_right (wired_iff s ra).mpr)]
  exact add_jalrOffset_toNat _ imm

/-- Settles O13, by the reading the free choice follows. -/
theorem jalrThroughItsLinkRegister : Obligations.JalrThroughItsLinkRegister := by
  unfold Obligations.JalrThroughItsLinkRegister
  intro s ra imm _
  refine ⟨_, exec_jalr ra ra imm s, writesReg_writeReg_goto s ra _ _, ?_⟩
  rw [State.goto_pc]
  rcases jalrBase_cases ra ra s with old | link
  · rw [old]
    exact .inl (add_jalrOffset_toNat _ imm)
  · rw [link]
    refine .inr ?_
    rw [add_jalrOffset_toNat, nextPc_toNat]
    omega

/-! ### Arithmetic -/

/-- A difference modulo 2^32, as an integer. -/
theorem sub_toNat_int (a b : Word) : ((a - b).toNat : Int) = ((a.toNat : Int) - (b.toNat : Int)) % 2 ^ 32 := by
  have := a.isLt
  have := b.isLt
  rw [BitVec.toNat_sub]
  omega

theorem truthWord_toNat (b : Bool) : (truthWord b).toNat = if b then 1 else 0 := by
  cases b <;> rfl

/-- The unsigned comparison, as the number it writes (R222, R277). -/
theorem lessUnsigned_toNat (a b : Word) : (lessUnsigned a b).toNat = if a.toNat < b.toNat then 1 else 0 := by
  simp only [lessUnsigned, truthWord_toNat, BitVec.ult, decide_eq_true_eq]

/-- The signed comparison, as the number it writes (R223, R278). -/
theorem lessSigned_toNat (a b : Word) : (lessSigned a b).toNat = if a.toInt < b.toInt then 1 else 0 := by
  simp only [lessSigned, truthWord_toNat, BitVec.slt, decide_eq_true_eq]

/-- Settles O14: each writes its result on register B and the immediate as widened. -/
theorem immediateArithmetic : Obligations.ImmediateArithmetic := by
  unfold Obligations.ImmediateArithmetic
  intro s ra rb imm
  refine ⟨⟨encImm_toNat 0x3C ra rb imm, completes_of_writeAndAdvance rfl ?addi⟩,
    ⟨encImm_toNat 0x34 ra rb imm, completes_of_writeAndAdvance rfl ?subi⟩,
    ⟨encImm_toNat 0x2C ra rb imm, completes_of_writeAndAdvance rfl ?slti⟩,
    ⟨encImm_toNat 0x24 ra rb imm, completes_of_writeAndAdvance rfl ?sltiSigned⟩⟩
  case addi => rw [BitVec.toNat_add, zext16_toNat]
  case subi => rw [sub_toNat_int, zext16_toNat]
  case slti => rw [lessUnsigned_toNat, zext16_toNat]
  case sltiSigned => rw [lessSigned_toNat, sext16_toInt]

/-! ### Logic -/

theorem getLsbD_zext16 (imm : BitVec 16) (k : Nat) : (zext16 imm).getLsbD k = imm.toNat.testBit k := by
  rw [← BitVec.testBit_toNat, zext16_toNat]

/-- LUI's immediate stands 16 places up (R227). -/
theorem getLsbD_upper16 (imm : BitVec 16) (k : Nat) :
    (upper16 imm).getLsbD k = (imm.toNat * 2 ^ 16).testBit k := by
  rw [← BitVec.testBit_toNat, upper16, append_toNat, BitVec.toNat_ofNat, Nat.zero_mod, Nat.add_zero]

/-- Settles O15: each writes its result on register B and the immediate in its place, bit by bit. -/
theorem immediateLogic : Obligations.ImmediateLogic := by
  unfold Obligations.ImmediateLogic
  intro s ra rb imm
  refine ⟨⟨encImm_toNat 0x1C ra rb imm, completes_of_writeAndAdvance rfl fun k _ => ?andi⟩,
    ⟨encImm_toNat 0x14 ra rb imm, completes_of_writeAndAdvance rfl fun k _ => ?xori⟩,
    ⟨encImm_toNat 0x0C ra rb imm, completes_of_writeAndAdvance rfl fun k _ => ?ori⟩,
    ⟨encImm_toNat 0x04 ra rb imm, completes_of_writeAndAdvance rfl fun k _ => ?lui⟩⟩
  case andi => rw [BitVec.getLsbD_and, getLsbD_zext16]
  case xori => rw [BitVec.getLsbD_xor, getLsbD_zext16, Bool.bne_eq_xor]
  case ori => rw [BitVec.getLsbD_or, getLsbD_zext16]
  case lui => rw [BitVec.getLsbD_or, getLsbD_upper16]

end Sys2Proof.Machine
end

section
/-! The register operate group (spec/43_reg_operate_111001.md sections 2 and 3): shifts by a register's contents, and
arithmetic and logic with a shifted register. -/

namespace Sys2Proof.Machine

/-! ### The shifted operands -/

/-- Register C as the instruction shifts it (R260; log 43). -/
theorem shiftsTo_shifted (s : State) (sc : ShiftedReg) :
    ShiftsTo sc.kind (s.readReg sc.rc) sc.amount.toNat (s.shifted sc) :=
  shiftMeaning sc.kind (s.readReg sc.rc) sc.amount

/-- An amount below 32 is its own low five bits, so the shift by a word is the shift by that field (R270). -/
theorem shiftsTo_shiftByWord (n : Nat) (kind : ShiftType) (v : Word) {amount : Word} (small : amount.toNat < 32) :
    ShiftsTo kind v amount.toNat (shiftByWord n kind v amount) := by
  have field : (amount.extractLsb' 0 5).toNat = amount.toNat := by
    rw [BitVec.extractLsb'_toNat, Nat.shiftRight_zero, Nat.mod_eq_of_lt small]
  have meaning := shiftMeaning kind v (amount.extractLsb' 0 5)
  rw [field] at meaning
  rw [shiftByWord, if_pos (BitVec.lt_def.mpr small)]
  exact meaning

/-! ### Arithmetic and logic -/

/-- Settles O17: each writes its result on register B and register C as shifted. -/
theorem registerArithmetic : Obligations.RegisterArithmetic := by
  unfold Obligations.RegisterArithmetic
  intro s ra rb sc
  refine ⟨s.shifted sc, shiftsTo_shifted s sc, completes_of_writeAndAdvance rfl ?add,
    completes_of_writeAndAdvance rfl ?sub, completes_of_writeAndAdvance rfl ?slt,
    completes_of_writeAndAdvance rfl ?sltSigned⟩
  case add => exact BitVec.toNat_add _ _
  case sub => exact sub_toNat_int _ _
  case slt => exact lessUnsigned_toNat _ _
  case sltSigned => exact lessSigned_toNat _ _

/-- Settles O18: each writes its result on register B and register C as shifted, bit by bit. NOR's negation is that of
the bits a word has. -/
theorem registerLogic : Obligations.RegisterLogic := by
  unfold Obligations.RegisterLogic
  intro s ra rb sc
  refine ⟨s.shifted sc, shiftsTo_shifted s sc, completes_of_writeAndAdvance rfl fun k _ => ?and,
    completes_of_writeAndAdvance rfl fun k _ => ?xor, completes_of_writeAndAdvance rfl fun k _ => ?or,
    completes_of_writeAndAdvance rfl fun k inWord => ?nor⟩
  case and => exact BitVec.getLsbD_and
  case xor => rw [BitVec.getLsbD_xor, Bool.bne_eq_xor]
  case or => exact BitVec.getLsbD_or
  case nor => rw [BitVec.getLsbD_not, decide_eq_true inWord, Bool.true_and, BitVec.getLsbD_or]

/-! ### Shifts by register -/

/-- Settles O19: each writes register C shifted by register B as a word. -/
theorem shiftByRegister : Obligations.ShiftByRegister := by
  unfold Obligations.ShiftByRegister
  intro s ra rc rb
  exact ⟨completes_of_writeAndAdvance rfl (shiftsTo_shiftByWord s.fresh .lsh _),
    completes_of_writeAndAdvance rfl (shiftsTo_shiftByWord s.fresh .rsh _),
    completes_of_writeAndAdvance rfl (shiftsTo_shiftByWord s.fresh .ash _),
    completes_of_writeAndAdvance rfl (shiftsTo_shiftByWord s.fresh .ror _)⟩

end Sys2Proof.Machine
end

section
/-! The register operate group of opcode 0x31 (spec/44_reg_operate_110001.md): multiply and divide, load locked and
store conditional, hints and barriers, and the software exceptions. -/

namespace Sys2Proof.Machine

/-! ### Quotients and remainders -/

/-- A divisor that is not the number zero is not the zero word. -/
theorem ne_zero_of_toNat_ne_zero {b : Word} (h : b.toNat ≠ 0) : b ≠ 0 := by
  rintro rfl
  exact h rfl

theorem quotient_toNat (n : Nat) (a : Word) {b : Word} (h : b.toNat ≠ 0) :
    (quotient n a b).toNat = a.toNat / b.toNat := by
  rw [quotient, if_neg (ne_zero_of_toNat_ne_zero h)]
  exact BitVec.toNat_udiv

theorem remainder_toNat (n : Nat) (a : Word) {b : Word} (h : b.toNat ≠ 0) :
    (remainder n a b).toNat = a.toNat % b.toNat := by
  rw [remainder, if_neg (ne_zero_of_toNat_ne_zero h)]
  exact BitVec.toNat_umod

/-- The one signed quotient that does not fit: -2^31 by -1 (R305). -/
theorem signedQuotient_fits {a b : Word} (h : ¬(a.toInt = -2 ^ 31 ∧ b.toInt = -1)) :
    ¬(a = 0x80000000 ∧ b = 0xFFFFFFFF) := by
  rintro ⟨rfl, rfl⟩
  exact h ⟨rfl, rfl⟩

/-- The signed quotient, where the spec gives one, is the one rounded toward zero (R303). -/
theorem signedQuotient_toInt (n : Nat) {a b : Word} (nonzero : b.toNat ≠ 0)
    (h : ¬(a.toInt = -2 ^ 31 ∧ b.toInt = -1)) : (signedQuotient n a b).toInt = a.toInt.tdiv b.toInt := by
  have fits : ¬(a = 0x80000000 ∧ b = 0xFFFFFFFF) := signedQuotient_fits h
  rw [signedQuotient, if_neg (ne_zero_of_toNat_ne_zero nonzero), if_neg fits]
  exact BitVec.toInt_sdiv_of_ne_or_ne a b (not_and_or.mp fits)

/-- Settles O20: each writes its result on registers B and C. -/
theorem multiplyAndDivide : Obligations.MultiplyAndDivide := by
  unfold Obligations.MultiplyAndDivide
  intro s ra rb rc
  refine ⟨completes_of_writeAndAdvance rfl ?mul, completes_of_writeAndAdvance rfl fun nonzero => ?div,
    completes_of_writeAndAdvance rfl fun nonzero fits => ?divSigned,
    completes_of_writeAndAdvance rfl fun nonzero => ?mod⟩
  case mul => exact BitVec.toNat_mul _ _
  case div => exact quotient_toNat s.fresh _ nonzero
  case divSigned => exact signedQuotient_toInt s.fresh nonzero fits
  case mod => rw [remainder_toNat s.fresh _ nonzero, Nat.mod_def]

/-! ### Load locked -/

/-- LL from memory writes what the read sees, in the state that holds the reservation (R308). -/
theorem exec_ll_memory {s : State} {ra rb : RegNum} {pa : Word} {bypass : Bool} (al : (s.readReg rb).toNat % 4 = 0)
    (tr : translateVa (s.readReg rb) .read s = .ok (pa, bypass)) (mem : OrdinaryMemory s pa) :
    exec (.ll ra rb) s =
      writeAndAdvance ra (seenThrough s.dcacheStale (Config.freeNat s.fresh .dcache) s.mem pa .long bypass)
        { s with locked := true, lockedAddr := pa } := by
  rw [exec_ll_eq, resolve_of_aligned (w := .long) al, tr, Access.finish_ok, physRead_memory mem, Access.finish_ok]

/-- Settles O49: what the read sees is written, and the reservation is the address the translation gave. -/
theorem loadLocked : Obligations.LoadLocked := by
  unfold Obligations.LoadLocked
  intro s ra rb pa bypass al tr mem
  have aligned : pa.toNat % Width.long.bytes = 0 := translateVa_aligned .long tr al
  exact ⟨_, _, exec_ll_memory al tr mem, readsAs_seenThrough _ _ _ bypass aligned,
    writesReg_writeReg_advance _ ra _, rfl⟩

/-! ### Store conditional -/

/-- A store to RAM is this processor's own store, through the caches or around them (20_memory R130a, R135). -/
theorem physWrite_ram {s : State} {pa : Word} (h : regionAt s.regions pa.toNat = .ram) (w : Width) (v : Word)
    (bypass : Bool) : physWrite pa w v bypass s = .ok (s.ownStore pa.toNat w v) := by
  simp only [physWrite, h]

/-- Without the flag SC is a write of 0 (R309). -/
theorem exec_sc_unlocked {s : State} (clear : s.locked = false) (ra rb rc : RegNum) :
    exec (.sc ra rb rc) s = writeAndAdvance ra 0 s := by
  simp only [exec, execSc, clear]
  rfl

/-- With the flag SC to RAM is this processor's store before a write of 1 (R309). -/
theorem exec_sc_ram {s : State} {ra rb rc : RegNum} {pa : Word} {bypass : Bool} (locked : s.locked = true)
    (al : (s.readReg rb).toNat % 4 = 0) (tr : translateVa (s.readReg rb) .write s = .ok (pa, bypass))
    (ram : regionAt s.regions pa.toNat = .ram) :
    exec (.sc ra rb rc) s = writeAndAdvance ra 1 (s.ownStore pa.toNat .long (s.readReg rc)) := by
  rw [exec_sc_eq locked, resolve_of_aligned (w := .long) al, tr, Access.finish_ok, physWrite_ram ram, Access.finish_ok]

/-- Settles O50, by the flag. -/
theorem storeConditional : Obligations.StoreConditional := by
  unfold Obligations.StoreConditional
  intro s ra rb rc
  refine ⟨fun clear => ?unlocked, fun pa bypass locked wf al tr ram => ?locked⟩
  case unlocked => exact completes_of_writeAndAdvance (exec_sc_unlocked clear ra rb rc) rfl
  case locked =>
    have stored : StoresBytes pa.toNat .long (s.readReg rc) s (s.ownStore pa.toNat .long (s.readReg rc)) :=
      storesBytes_ownStore wf pa.toNat .long (s.readReg rc)
    obtain ⟨value, others, -⟩ :=
      writesReg_writeReg_advance (s.ownStore pa.toNat .long (s.readReg rc)) ra 1
    exact ⟨_, exec_sc_ram locked al tr ram, stored, value, others, rfl⟩

/-! ### Hints, barriers and software exceptions -/

/-- Settles O52: each goes on to the next pc. -/
theorem hintsAndBarriers : Obligations.HintsAndBarriers := by
  unfold Obligations.HintsAndBarriers
  intro s i hi
  have run : exec i s = .next (s.goto s.nextPc) := by
    simp only [List.mem_cons, List.not_mem_nil, or_false] at hi
    obtain rfl | rfl | rfl := hi <;> rfl
  exact ⟨_, run, onlyPc_goto s _, nextPc_toNat s⟩

/-- Settles O37: both save the pc that the parameter TRAP_EPC chooses. -/
theorem systemCallAndBreakpoint : Obligations.SystemCallAndBreakpoint := by
  unfold Obligations.SystemCallAndBreakpoint
  exact ⟨Config.trapEpcNext, fun s => ⟨⟨_, rfl, normalEntry_spec .sys none s⟩, ⟨_, rfl, normalEntry_spec .brk none s⟩⟩⟩

end Sys2Proof.Machine
end

section
/-! The privileged instructions (spec/45_privileged_101001.md R330 to R336): where they trap, the moves from and to
control registers, HLT, and RFE. -/

namespace Sys2Proof.Machine

/-! ### Usermode (R330) -/

theorem privileged_user {s : State} (user : s.bitU = true) (k : Result) :
    privileged s k = .next (takeException (.plain .prv) s) := by
  simp [privileged, user]

/-- A privileged instruction in usermode enters PRV by the normal entry, at its own address (60_exceptions R359). -/
theorem normalEntry_of_privileged_user {s : State} (user : s.bitU = true) {i : Instr} {k : Result}
    (h : exec i s = privileged s k) : ∃ t, exec i s = .next t ∧ NormalEntry 8 s.pc none s t :=
  ⟨_, h.trans (privileged_user user k), normalEntry_spec .prv none s⟩

/-- Settles O41: the meaning of each of the four is behind the check of the mode. -/
theorem privilegedInstructionsInUsermode : Obligations.PrivilegedInstructionsInUsermode := by
  unfold Obligations.PrivilegedInstructionsInUsermode
  intro s r n user i hi
  have guarded : ∃ k, exec i s = privileged s k := by
    simp only [List.mem_cons, List.not_mem_nil, or_false] at hi
    obtain rfl | rfl | rfl | rfl := hi <;> exact ⟨_, rfl⟩
  obtain ⟨k, run⟩ := guarded
  exact normalEntry_of_privileged_user user run

/-! ### MFCR (R331) -/

/-- MFCR completes with what a register that is not absent reads as. -/
theorem readsControl_of_names {s : State} (kernel : s.bitU = false) {n : CrNum} {c : CtrlReg}
    (names : CtrlReg.ofNum n = some c) (ra : RegNum) {value : Word → Prop} (holds : value (readControl c s)) :
    ReadsControl s ra n value :=
  ⟨_, _, exec_mfcr_kernel kernel names ra, holds, writesReg_writeReg_advance s.reloadNmiMask ra _, rfl⟩

/-- Settles O42, by the register each number names. -/
theorem moveFromControlRegister : Obligations.MoveFromControlRegister := by
  unfold Obligations.MoveFromControlRegister
  intro s ra kernel
  have reads {n : CrNum} (c : CtrlReg) (names : CtrlReg.ofNum n = some c) :
      ReadsControl s ra n (· = readControl c s) := readsControl_of_names kernel names ra rfl
  have free {n : CrNum} (c : CtrlReg) (names : CtrlReg.ofNum n = some c) :
      ReadsControl s ra n (fun _ => True) := readsControl_of_names kernel names ra trivial
  exact ⟨reads .rs rfl, reads .whami rfl, reads .eb rfl, reads .epc rfl, reads .ebadaddr rfl, reads .tbmissaddr rfl,
    reads .tbpc rfl, reads .scratch0 rfl, reads .scratch1 rfl, reads .scratch2 rfl, reads .scratch3 rfl,
    reads .scratch4 rfl, reads (.tbTag .itb) rfl, reads (.tbTag .dtb) rfl, reads (.tbIndex .itb) rfl,
    reads (.tbIndex .dtb) rfl, reads (.tbAddr .itb) rfl, reads (.tbAddr .dtb) rfl, reads (.cacheCtrl .itb) rfl,
    reads (.cacheCtrl .dtb) rfl, free (.tbPte .itb) rfl, free (.tbPte .dtb) rfl, free (.tbCtrl .itb) rfl,
    free (.tbCtrl .dtb) rfl⟩

/-! ### MTCR (R332) -/

/-- Settles O43: the write of each of the sixteen registers stores the value in its field. -/
theorem moveToStoringControlRegister : Obligations.MoveToStoringControlRegister := by
  unfold Obligations.MoveToStoringControlRegister
  rintro s rb kernel u rfl
  have stores {n : CrNum} (c : CtrlReg) (names : CtrlReg.ofNum n = some c) := exec_mtcr_kernel kernel names rb
  exact ⟨stores .eb rfl, stores .epc rfl, stores .ebadaddr rfl, stores .tbmissaddr rfl, stores .tbpc rfl,
    stores .scratch0 rfl, stores .scratch1 rfl, stores .scratch2 rfl, stores .scratch3 rfl, stores .scratch4 rfl,
    stores (.tbTag .itb) rfl, stores (.tbTag .dtb) rfl, stores (.tbIndex .itb) rfl, stores (.tbIndex .dtb) rfl,
    stores (.tbAddr .itb) rfl, stores (.tbAddr .dtb) rfl⟩

/-- The MBZ bits of RS (10_state R30). -/
theorem rsMbz_bit : ∀ k < 32, rsMbz.getLsbD k = decide (24 ≤ k ∧ k < 28 ∨ 4 ≤ k ∧ k < 8) := by decide

/-- Settles O44, by the bits a write of RS stores and when it makes T rise. -/
theorem moveToStatusRegister : Obligations.MoveToStatusRegister := by
  unfold Obligations.MoveToStatusRegister
  intro s rb kernel
  have bits (k : Nat) (hk : k < 32)
      (keeps : (s.readReg rb).getLsbD k = false ∨ ¬(24 ≤ k ∧ k < 28 ∨ 4 ≤ k ∧ k < 8)) :
      (rsWritten s.fresh (s.readReg rb)).getLsbD k = (s.readReg rb).getLsbD k :=
    rsWritten_bit s.fresh _ k hk (keeps.imp_right fun outside => (rsMbz_bit k hk).trans (decide_eq_false outside))
  have stays (clear : (s.readReg rb).getLsbD 3 = false) : (rsWritten s.fresh (s.readReg rb)).getLsbD 3 = false :=
    (bits 3 (by decide) (.inl clear)).trans clear
  exact ⟨(s.setRs (rsWritten s.fresh (s.readReg rb))).reloadNmiMask.advance,
    exec_mtcr_kernel kernel (c := .rs) rfl rb, bits, regs_setRs_other s _,
    fun still => regs_setRs_of_not_rising s _ (still.imp_right stays), fun _ => rfl, rfl⟩

/-! ### HLT (R334) -/

/-- No NMI is taken without a request, or while the mask counter runs (60_exceptions R376, R377). -/
theorem nmiDeliverable_eq_false {s : State} (h : s.nmiPending = 0 ∨ s.nmiMask ≠ 0) : nmiDeliverable s = false := by
  rcases h with none | masked
  · simp [nmiDeliverable, none]
  · simp [nmiDeliverable, masked]

/-- No external interrupt is taken without a request, or while RS.I is clear (60_exceptions R372). -/
theorem intDeliverable_eq_false {s : State} (h : s.intLine = false ∨ s.bitI = false) : intDeliverable s = false := by
  rcases h with low | disabled
  · simp [intDeliverable, low]
  · simp [intDeliverable, disabled]

/-- A step in which no interrupt is taken leaves a halted processor waiting. -/
theorem step_wait {s : State} (nmi : nmiDeliverable (beginStep s) = false) (int : intDeliverable (beginStep s) = false)
    (halt : (beginStep s).halted = true) : step s = .next (tickNmi (beginStep s)) := by
  simp [step, nmi, int, halt]

theorem exec_hlt_kernel {s : State} (kernel : s.bitU = false) :
    exec .hlt s = .next { s with pc := s.pc + 4, halted := true } :=
  privileged_kernel kernel _

/-- Settles O46, by the step of a halted processor. -/
theorem haltWaits : Obligations.HaltWaits := by
  unfold Obligations.HaltWaits
  refine fun s => ⟨exec_hlt_kernel, fun halt quiet int nmi => ?_⟩
  have waits := step_wait (s := s)
  rw [beginStep_nil quiet] at waits
  exact waits (nmiDeliverable_eq_false nmi) (intDeliverable_eq_false int) halt

/-! ### RFE (R336) -/

/-- The pop moves the two saved levels down. -/
theorem rsPopped_saved (rs : Word) : (rsPopped rs).extractLsb' 0 16 = rs.extractLsb' 8 16 :=
  BitVec.extractLsb'_append_eq_right

/-- The pop clears the older saved level. -/
theorem rsPopped_cleared (rs : Word) : (rsPopped rs).extractLsb' 16 8 = 0 := by
  rw [rsPopped, BitVec.extractLsb'_append_eq_of_le (by decide)]
  exact BitVec.extractLsb'_append_eq_right

/-- The pop leaves ECAUSE and bits 27:24. -/
theorem rsPopped_kept (rs : Word) : (rsPopped rs).extractLsb' 24 8 = rs.extractLsb' 24 8 := by
  rw [rsPopped, BitVec.extractLsb'_append_eq_of_le (by decide)]
  exact BitVec.extractLsb'_append_eq_left

/-- Only a pop that sets T touches the stored register 0 (10_state R24). -/
theorem returnFromException_regs {s : State} (h : s.bitT = true ∨ s.rs.getLsbD 11 = false) :
    (returnFromException s).regs = s.regs :=
  regs_setRs_of_not_rising s _ (h.imp_right (rsPopped_bit s.rs 3 (by decide)).trans)

/-- Settles O39: PRV in usermode, otherwise the return, field by field. -/
theorem returnFromExceptionPops : Obligations.ReturnFromException := by
  unfold Obligations.ReturnFromException
  exact fun s => ⟨fun user => normalEntry_of_privileged_user user rfl, fun kernel =>
    ⟨_, exec_rfe_kernel kernel, rfl, rsPopped_saved s.rs, rsPopped_cleared s.rs, rsPopped_kept s.rs, rfl,
      returnFromException_regs_other s, returnFromException_regs, fun _ => rfl, rfl⟩⟩

/-! ### RFE right after an entry -/

/-- In the state `m` of a handler RFE returns to the pc and the current and old mode of `s`. -/
def ReturnsTo (s m : State) : Prop :=
  m.bitU = false ∧ (returnFromException m).pc = s.pc ∧
    (returnFromException m).rs.extractLsb' 0 16 = s.rs.extractLsb' 0 16

/-- Every cause but SYS and BRK saves the pc itself (60_exceptions R359). -/
theorem savedPc_eq_pc {c : Cause} (sys : c ≠ .sys) (brk : c ≠ .brk) (s : State) : savedPc c s = s.pc := by
  cases c with
  | sys => exact absurd rfl sys
  | brk => exact absurd rfl brk
  | _ => rfl

/-- The normal entry keeps T, so RFE takes EPC, and the pop undoes the push. -/
theorem returnsTo_normalEntry {s : State} (clear : s.bitT = false) {c : Cause} (saved : savedPc c s = s.pc)
    (bad : Option Word) : ReturnsTo s (normalEntry c bad s) := by
  obtain ⟨-, -, pushed, -, keepsT, -, -, kernel⟩ := pushed_rsEntered c.code s.rs
  have clear' : (normalEntry c bad s).bitT = false := keepsT.trans clear
  refine ⟨kernel, ?_, (rsPopped_saved _).trans pushed⟩
  rw [returnFromException_pc, clear']
  exact saved

/-- The first miss sets T, so RFE takes TBPC, and the pop undoes the push. -/
theorem returnsTo_miss {s : State} (clear : s.bitT = false) (kind : AccessKind) (va : Word) :
    ReturnsTo s (takeException (.tbMiss kind va) s) := by
  refine ⟨miss_bitU clear, ?_, ?_⟩
  · rw [returnFromException_pc, if_pos (miss_bitT clear), miss_tbpc clear]
  · rw [returnFromException_rs, miss_rs clear, rsPopped_rsEntered_withT]

/-- Where T is clear only SYS and BRK may save another pc than that of the exception (60_exceptions R359, R360). -/
theorem returnsTo_takeException {s : State} (clear : s.bitT = false) {e : Exc} (sys : e ≠ .plain .sys)
    (brk : e ≠ .plain .brk) : ReturnsTo s (takeException e s) := by
  cases e with
  | plain c =>
    exact returnsTo_normalEntry clear (savedPc_eq_pc (fun h => sys (congrArg _ h)) (fun h => brk (congrArg _ h)) s) none
  | bus pa => exact returnsTo_normalEntry clear rfl (some pa)
  | una va => exact returnsTo_normalEntry clear rfl (some va)
  | pageFault kind va =>
    rw [takeException_pageFault clear]
    exact returnsTo_normalEntry clear (by cases kind <;> rfl) (some va)
  | tbMiss kind va => exact returnsTo_miss clear kind va

/-- While T is clear what the registers read as does not depend on the stored register 0 (10_state R22). -/
theorem readReg_eq_of_regs_other {s u : State} (clear : s.bitT = false) (clear' : u.bitT = false)
    (same : ∀ (k : Nat) (h : k < 32), k ≠ 0 → u.regs[k] = s.regs[k]) (q : RegNum) : u.readReg q = s.readReg q := by
  by_cases zero : q = 0
  · rw [zero]
    exact (readReg_zero_of_not_bitT clear').trans (readReg_zero_of_not_bitT clear).symm
  · have nonzero : q.toNat ≠ 0 := fun h => zero (BitVec.eq_of_toNat_eq h)
    rw [readReg_of_not_wired (wired_of_ne_zero u zero), readReg_of_not_wired (wired_of_ne_zero s zero)]
    exact same q.toNat q.isLt nonzero

/-- Settles O40: the handler's state returns to the pc and mode, and neither the entry nor RFE writes memory or a stored
register but number 0. -/
theorem returnResumesWhereTheExceptionWasTaken : Obligations.ReturnResumesWhereTheExceptionWasTaken := by
  unfold Obligations.ReturnResumesWhereTheExceptionWasTaken
  intro s e clear sys brk
  obtain ⟨kernel, pc, mode⟩ := returnsTo_takeException clear sys brk
  have clear' : (returnFromException (takeException e s)).bitT = false :=
    (bit_of_low16 mode (show 3 < 16 by decide)).trans clear
  have registers (k : Nat) (h : k < 32) (nonzero : k ≠ 0) :
      (returnFromException (takeException e s)).regs[k] = s.regs[k] :=
    (returnFromException_regs_other _ k h nonzero).trans (takeException_regs_other e s k h nonzero)
  exact ⟨_, exec_rfe_kernel kernel, pc, mode, readReg_eq_of_regs_other clear clear' registers,
    fun a => by rw [returnFromException_mem, takeException_mem]⟩

end Sys2Proof.Machine
end

section
/-! Exception entries (spec/60_exceptions.md R350 to R363): which of the four entries an exception takes, what each does
to RS, and where it goes. -/

namespace Sys2Proof.Machine

/-! ### Which entry an exception takes -/

/-- The four entries: the normal one, which here may belong to any exception, while T is clear the first miss, and while T
is set the nested miss and the nested page fault (60_exceptions R356, R360, R361, R363). -/
inductive Entry (s : State) : Exc → State → Prop where
  | normal (c : Cause) (bad : Option Word) (e : Exc) : Entry s e (normalEntry c bad s)
  | firstMiss (clear : s.bitT = false) (kind : AccessKind) (va : Word) :
      Entry s (.tbMiss kind va) (firstMissEntry kind va s)
  | nestedMiss (set : s.bitT = true) (kind : AccessKind) (va : Word) :
      Entry s (.tbMiss kind va) (nestedMissEntry kind va s)
  | nestedFault (set : s.bitT = true) (kind : AccessKind) (va : Word) :
      Entry s (.pageFault kind va) (nestedFaultEntry s)

theorem entry_takeException (e : Exc) (s : State) : Entry s e (takeException e s) := by
  cases e with
  | plain c => exact .normal c none _
  | bus pa => exact .normal .bus (some pa) _
  | una va => exact .normal .una (some va) _
  | pageFault kind va =>
    cases t : s.bitT with
    | false =>
      rw [takeException_pageFault t]
      exact .normal _ _ _
    | true =>
      rw [takeException_pageFault_nested t]
      exact .nestedFault t kind va
  | tbMiss kind va =>
    cases t : s.bitT with
    | false =>
      rw [takeException_tbMiss t]
      exact .firstMiss t kind va
    | true =>
      rw [takeException_tbMiss_nested t]
      exact .nestedMiss t kind va

/-- Every entry goes to the vector of one of the twelve causes (60_exceptions R355). -/
theorem Entry.pc {s t : State} {e : Exc} (h : Entry s e t) : ∃ c, t.pc = vectorOf c s := by
  cases h with
  | normal c => exact ⟨c, rfl⟩
  | firstMiss _ kind => exact ⟨tbMissCause kind.tb, rfl⟩
  | nestedMiss _ kind => exact ⟨tbMissCause kind.tb, rfl⟩
  | nestedFault => exact ⟨pageFaultCause s.missWasWrite, rfl⟩

/-! ### RS after an entry -/

/-- RS after the first miss: the push of a normal entry, and T set (60_exceptions R360). -/
theorem pushed_rsEntered_withT (code : BitVec 4) (rs : Word) : Pushed code true rs (rsEntered code rs ||| 8) := by
  obtain ⟨cause, upper, saved, reserved, -, m, i, u⟩ := pushed_rsEntered code rs
  have bit := rsEntered_withT_bit code rs
  have above (k n : Nat) (hk : 3 < k) (hn : k + n ≤ 32) :
      (rsEntered code rs ||| 8).extractLsb' k n = (rsEntered code rs).extractLsb' k n := by
    apply BitVec.eq_of_getLsbD_eq
    intro j hj
    simp only [BitVec.getLsbD_extractLsb', bit (k + j) (by omega), show k + j ≠ 3 by omega, decide_false, Bool.or_false]
  refine ⟨(above 28 4 (by decide) (by decide)).trans cause, (above 24 4 (by decide) (by decide)).trans upper,
    (above 8 16 (by decide) (by decide)).trans saved, (above 4 4 (by decide) (by decide)).trans reserved, ?_, ?_, ?_, ?_⟩
  · exact (bit 3 (by decide)).trans (Bool.or_true _)
  · exact ((bit 2 (by decide)).trans (Bool.or_false _)).trans m
  · exact ((bit 1 (by decide)).trans (Bool.or_false _)).trans i
  · exact ((bit 0 (by decide)).trans (Bool.or_false _)).trans u

/-- The two special entries keep every bit of RS below ECAUSE, before the nested fault clears T (60_exceptions R361,
R363). -/
theorem rsSpecial_bit (c : Cause) (s : State) {k : Nat} (hk : k < 28) :
    (rsSpecial c s).getLsbD k = s.rs.getLsbD k := by
  unfold rsSpecial
  split
  · rfl
  · rw [rsWithCause, BitVec.getLsbD_append, if_pos hk, BitVec.getLsbD_extractLsb', decide_eq_true hk, Bool.true_and,
      Nat.zero_add]

/-- ECAUSE after a special entry: as it was, or the code (log 18). -/
theorem rsSpecial_cause (c : Cause) (s : State) :
    (rsSpecial c s).extractLsb' 28 4 = s.ecause ∨ (rsSpecial c s).extractLsb' 28 4 = c.code := by
  unfold rsSpecial
  split
  · exact .inl rfl
  · exact .inr BitVec.extractLsb'_append_eq_left

/-- Clearing T leaves the other bits. -/
theorem clearT_bit (rs : Word) (k : Nat) (hk : k < 32) : (rs &&& ~~~8).getLsbD k = (rs.getLsbD k && decide (k ≠ 3)) := by
  rw [BitVec.getLsbD_and]
  congr 1
  interval_cases k <;> rfl

theorem nestedFaultEntry_bit (s : State) {k : Nat} (hk : k < 28) (notT : k ≠ 3) :
    (nestedFaultEntry s).rs.getLsbD k = s.rs.getLsbD k := by
  show (rsSpecial _ s &&& ~~~8).getLsbD k = _
  rw [clearT_bit _ k (by omega), decide_eq_true notT, Bool.and_true, rsSpecial_bit _ s hk]

/-- No entry changes M (60_exceptions R358). -/
theorem Entry.bitM {s t : State} {e : Exc} (h : Entry s e t) : t.bitM = s.bitM := by
  cases h with
  | normal c =>
    obtain ⟨-, -, -, -, -, m, -, -⟩ := pushed_rsEntered c.code s.rs
    exact m
  | firstMiss _ kind =>
    obtain ⟨-, -, -, -, -, m, -, -⟩ := pushed_rsEntered_withT (tbMissCause kind.tb).code s.rs
    exact m
  | nestedMiss _ kind => exact rsSpecial_bit _ s (k := 2) (by decide)
  | nestedFault => exact nestedFaultEntry_bit s (k := 2) (by decide) (by decide)

/-- Every entry but the two special ones, which keep U and I, leaves kernel mode with interrupts off
(60_exceptions R358, R361, R363). -/
theorem Entry.bitU_bitI {s t : State} {e : Exc} (h : Entry s e t) :
    (t.bitU = false ∧ t.bitI = false) ∨
      (s.bitT = true ∧ ((∃ k va, e = .tbMiss k va) ∨ ∃ k va, e = .pageFault k va) ∧ t.bitU = s.bitU) := by
  cases h with
  | normal c =>
    obtain ⟨-, -, -, -, -, -, i, u⟩ := pushed_rsEntered c.code s.rs
    exact .inl ⟨u, i⟩
  | firstMiss _ kind =>
    obtain ⟨-, -, -, -, -, -, i, u⟩ := pushed_rsEntered_withT (tbMissCause kind.tb).code s.rs
    exact .inl ⟨u, i⟩
  | nestedMiss set kind va => exact .inr ⟨set, .inl ⟨kind, va, rfl⟩, rsSpecial_bit _ s (k := 0) (by decide)⟩
  | nestedFault set kind va =>
    exact .inr ⟨set, .inr ⟨kind, va, rfl⟩, nestedFaultEntry_bit s (k := 0) (by decide) (by decide)⟩

/-- No entry leaves kernel mode. -/
theorem takeException_keeps_kernel {s : State} (kernel : s.bitU = false) (e : Exc) :
    (takeException e s).bitU = false := by
  rcases (entry_takeException e s).bitU_bitI with ⟨u, -⟩ | ⟨-, -, same⟩
  · exact u
  · exact same.trans kernel

end Sys2Proof.Machine
end

section
/-! Usermode (spec/60_exceptions.md R391, R392): what an instruction can do to the privileged state there, and how a step
gets there. -/

namespace Sys2Proof.Machine

/-- Settles O55: of the effects an instruction can have, those on the privileged state need kernel mode. -/
theorem usermodeCannotTouchPrivilegedState : Obligations.UsermodeCannotTouchPrivilegedState := by
  unfold Obligations.UsermodeCannotTouchPrivilegedState
  intro s t i user h
  have notKernel : s.bitU ≠ false := by simp [user]
  cases exec_effect h with
  | trap e => exact .inl ⟨e, rfl⟩
  | goto | write | link | store | storeWrite =>
    exact .inr ⟨⟨rfl, rfl, rfl, rfl, rfl, rfl, rfl, rfl, rfl⟩,
      rfl, rfl, rfl, rfl, rfl, rfl, rfl, rfl, rfl, rfl, rfl, rfl, rfl, rfl⟩
  | readControl kernel | writeControl kernel | halt kernel | ret kernel => exact absurd kernel notKernel

/-- RS has the number 0 and no other (10_state R48). -/
theorem ofNum_eq_rs {n : CrNum} (h : CtrlReg.ofNum n = some .rs) : n = 0 := by
  revert n
  decide

/-- A control register write that sets U is one of RS, with bit 0 set (45_privileged R332). -/
theorem writeControl_sets_bitU {c : CtrlReg} {v : Word} {s u : State} (kernel : s.bitU = false)
    (h : writeControl c v s = .ok u) (user : u.bitU = true) : c = .rs ∧ v.getLsbD 0 = true := by
  have notKept (same : u.bitU = s.bitU) : c = .rs ∧ v.getLsbD 0 = true := by
    simp [same, kernel] at user
  rcases writeControl_eq_ok h with ⟨rfl, rfl⟩ | ⟨b, -, rfl⟩ | ⟨-, _, -, rfl⟩ | ⟨-, _, -, rfl⟩ | ⟨-, _, -, rfl⟩ |
    ⟨-, _, -, rfl⟩ | ⟨_, _, _, _, _, _, _, _, _, _, _, _, _, _, _, _, rfl⟩
  · exact ⟨rfl, rsWritten_bit_imp user⟩
  · exact notKept (bitU_insertEntry b v s)
  all_goals exact notKept rfl

/-- An instruction goes from kernel mode to usermode only by RFE into an old mode with U set, or by MTCR of RS with U
written. -/
theorem exec_enters_usermode {i : Instr} {s t : State} (kernel : s.bitU = false) (h : exec i s = .next t)
    (user : t.bitU = true) :
    i = .rfe ∧ s.rs.getLsbD 8 = true ∨ ∃ rb, i = .mtcr 0 rb ∧ (s.readReg rb).getLsbD 0 = true := by
  have notKept {P : Prop} (stays : t.bitU = false) : P := by simp [stays] at user
  cases exec_effect h with
  | trap e => exact notKept (takeException_keeps_kernel kernel e)
  | goto | write | link | store | storeWrite | readControl | halt => exact notKept kernel
  | writeControl _ cr rb mtcr c names u written =>
    obtain ⟨rfl, bit⟩ := writeControl_sets_bitU kernel written user
    exact .inr ⟨rb, by rw [mtcr, ofNum_eq_rs names], bit⟩
  | ret _ rfe => exact .inl ⟨rfe, (rsPopped_bit s.rs 0 (by decide)).symm.trans user⟩

/-- Settles O56, by what a step does after the environment's moves. -/
theorem usermodeIsEnteredOnlyByRfeOrMtcr : Obligations.UsermodeIsEnteredOnlyByRfeOrMtcr := by
  unfold Obligations.UsermodeIsEnteredOnlyByRfeOrMtcr
  intro s t quiet kernel h user
  obtain ⟨u, ⟨_, _, _, same⟩, outcome⟩ := step_after_moves h
  rw [beginStep_nil quiet] at same
  have kernel' : u.bitU = false := by
    rw [same]
    exact kernel
  rcases outcome with rfl | ⟨e, rfl⟩ | ⟨i, fetched, run⟩
  · simp [kernel'] at user
  · simp [takeException_keeps_kernel kernel' e] at user
  · have entered := exec_enters_usermode kernel' run user
    subst same
    exact ⟨i, fetched, entered⟩

end Sys2Proof.Machine
end

section
/-! The four entries, field by field (spec/60_exceptions.md R350 to R363; spec/20_memory.md R113). -/

namespace Sys2Proof.Machine

/-! ### The page and the PTE's address of a miss (20_memory R113) -/

/-- An address register after a miss: its base bits, the page and two zeros. -/
theorem missAddress_toNat (addr va : Word) :
    (addr.extractLsb' 22 10 ++ vpnOf va ++ 0#2).toNat = addr.toNat / 2 ^ 22 * 2 ^ 22 + va.toNat / 2 ^ 12 * 4 := by
  have base := addr.isLt
  have address := va.isLt
  rw [append_toNat, append_toNat, vpnOf, page_toNat, BitVec.extractLsb'_toNat, Nat.shiftRight_eq_div_pow,
    BitVec.toNat_ofNat]
  omega

/-- A tag register after a miss: its ASID and the page. -/
theorem missTag_toNat_eq (tag va : Word) :
    (tagAsid tag ++ vpnOf va).toNat = tag.toNat / 2 ^ 20 * 2 ^ 20 + va.toNat / 2 ^ 12 := by
  obtain ⟨asid, page⟩ := missTag_toNat tag va
  omega

theorem notesMiss_noteMiss (b : TbSel) (va : Word) (s : State) : NotesMiss b va s (noteMiss b va s) := by
  cases b with
  | itb => exact ⟨missTag_toNat_eq s.itbTag va, missAddress_toNat s.itbAddr va, rfl, rfl⟩
  | dtb => exact ⟨missTag_toNat_eq s.dtbTag va, missAddress_toNat s.dtbAddr va, rfl, rfl⟩

/-! ### RS and ECAUSE -/

/-- The nested miss keeps RS below ECAUSE (60_exceptions R361). -/
theorem extract_rsSpecial (c : Cause) (s : State) : (rsSpecial c s).extractLsb' 0 28 = s.rs.extractLsb' 0 28 := by
  apply BitVec.eq_of_getLsbD_eq
  intro k hk
  simp only [BitVec.getLsbD_extractLsb', Nat.zero_add, rsSpecial_bit c s hk]

/-- Clearing T leaves ECAUSE. -/
theorem nestedFaultEntry_ecause (s : State) :
    (nestedFaultEntry s).ecause = (rsSpecial (pageFaultCause s.missWasWrite) s).extractLsb' 28 4 := by
  apply BitVec.eq_of_getLsbD_eq
  intro k hk
  show (BitVec.extractLsb' 28 4 (rsSpecial _ s &&& ~~~8)).getLsbD k = _
  rw [BitVec.getLsbD_extractLsb', BitVec.getLsbD_extractLsb', clearT_bit _ (28 + k) (by omega),
    decide_eq_true (by omega : 28 + k ≠ 3), Bool.and_true]

/-- The code of a miss: 14 for a fetch, 15 otherwise (60_exceptions R350, R379). -/
theorem tbMissCause_code (kind : AccessKind) : (tbMissCause kind.tb).code = if kind = .fetch then 14 else 15 := by
  cases kind <;> rfl

/-- The code of a page fault: 13 for a write, 12 otherwise (60_exceptions R350, R362). -/
theorem pageFaultCause_code (write : Bool) : (pageFaultCause write).code = if write then 13 else 12 := by
  cases write <;> rfl

/-! ### The statements -/

/-- Settles O32: the first miss, field by field. -/
theorem firstTbMissEntry : Obligations.FirstTbMissEntry := by
  unfold Obligations.FirstTbMissEntry
  intro s kind va clear
  have notes : NotesMiss kind.tb va s (firstMissEntry kind va s) := notesMiss_noteMiss kind.tb va s
  refine ⟨firstMissEntry kind va s, takeException_tbMiss clear kind va, notes, rfl, rfl, ?epc, ?ebadaddr, ?latch, ?rs,
    ?vector, rfl, ?regs, ?frame⟩
  case epc => exact noteMiss_epc kind.tb va s
  case ebadaddr => exact noteMiss_ebadaddr kind.tb va s
  case latch => exact beq_iff_eq
  case rs =>
    rw [← tbMissCause_code]
    exact pushed_rsEntered_withT _ s.rs
  case vector =>
    rw [← tbMissCause_code]
    exact vectorOf_toNat (tbMissCause kind.tb) s
  case regs =>
    rw [← takeException_tbMiss clear]
    exact takeException_regs_other (.tbMiss kind va) s
  case frame => cases kind <;> rfl

/-- Settles O33: the nested miss, field by field. -/
theorem nestedTbMissEntry : Obligations.NestedTbMissEntry := by
  unfold Obligations.NestedTbMissEntry
  intro s kind va set
  have notes : NotesMiss kind.tb va s (nestedMissEntry kind va s) := notesMiss_noteMiss kind.tb va s
  refine ⟨nestedMissEntry kind va s, takeException_tbMiss_nested set kind va, notes, ?rs, ?cause, ?vector, rfl, ?frame⟩
  case rs => exact extract_rsSpecial (tbMissCause kind.tb) s
  case cause =>
    rw [← tbMissCause_code]
    exact rsSpecial_cause (tbMissCause kind.tb) s
  case vector =>
    rw [← tbMissCause_code]
    exact vectorOf_toNat (tbMissCause kind.tb) s
  case frame => cases kind <;> rfl

/-- Settles O34: the normal entry of the fault's cause. -/
theorem pageFaultEntry : Obligations.PageFaultEntry := by
  unfold Obligations.PageFaultEntry
  intro s kind va clear
  rw [takeException_pageFault clear]
  have entry := normalEntry_spec (pageFaultCause (kind == .write)) (some va) s
  cases kind <;> exact entry

/-- Settles O35: the nested fault, field by field. -/
theorem nestedPageFaultEntry : Obligations.NestedPageFaultEntry := by
  unfold Obligations.NestedPageFaultEntry
  intro s kind va set
  refine ⟨nestedFaultEntry s, takeException_pageFault_nested set kind va, rfl, rfl, ?t, fun k hk notT => ?bits, ?cause,
    ?vector, rfl, rfl⟩
  case t => exact (clearT_bit _ 3 (by decide)).trans (Bool.and_false _)
  case bits => exact nestedFaultEntry_bit s hk notT
  case cause =>
    rw [← pageFaultCause_code, nestedFaultEntry_ecause]
    exact rsSpecial_cause (pageFaultCause s.missWasWrite) s
  case vector =>
    rw [← pageFaultCause_code]
    exact vectorOf_toNat (pageFaultCause s.missWasWrite) s

/-- The twelve codes (60_exceptions R350). -/
theorem code_mem (c : Cause) : c.code.toNat ∈ [1, 2, 4, 5, 6, 7, 8, 9, 12, 13, 14, 15] := by
  cases c <;> decide

/-- Settles O38, by the entry the exception takes. -/
theorem entriesGoToTheVectorsInKernelMode : Obligations.EntriesGoToTheVectorsInKernelMode := by
  unfold Obligations.EntriesGoToTheVectorsInKernelMode
  intro s e
  have entry := entry_takeException e s
  refine ⟨fun aligned => ?vector, entry.bitM, fun ordinary => ?mode⟩
  case vector =>
    obtain ⟨c, pc⟩ := entry.pc
    exact ⟨c.code.toNat, code_mem c, by rw [pc, vectorOf_toNat c s aligned]⟩
  case mode =>
    rcases entry.bitU_bitI with kernel | ⟨set, special, -⟩
    · exact kernel
    · rcases ordinary with clear | other
      · simp [clear] at set
      · rcases special with ⟨k, va, rfl⟩ | ⟨k, va, rfl⟩
        · exact absurd rfl (other k va).1
        · exact absurd rfl (other k va).2

end Sys2Proof.Machine
end

section
/-! Instruction boundaries: external interrupts, NMI and its mask counter, and the step that executes the instruction at
the pc (spec/60_exceptions.md R354, R372, R376, R377; spec/20_memory.md R121). -/

namespace Sys2Proof.Machine

/-! ### Which of its outcomes a step has -/

/-- An NMI goes before everything else at the boundary (60_exceptions R354). -/
theorem step_nmi {s : State} (nmi : nmiDeliverable (beginStep s) = true) : step s = .next (takeNmi (beginStep s)) := by
  simp [step, nmi]

/-- An external interrupt goes before the halt and the instruction (60_exceptions R354). -/
theorem step_int {s : State} (nmi : nmiDeliverable (beginStep s) = false) (int : intDeliverable (beginStep s) = true) :
    step s = .next (takeInt (beginStep s)) := by
  simp [step, nmi, int]

theorem intDeliverable_iff (s : State) : intDeliverable s = true ↔ s.intLine = true ∧ s.bitI = true := by
  simp [intDeliverable]

/-- When an NMI is taken (60_exceptions R376, R377; log 33). -/
theorem nmiDeliverable_iff (s : State) :
    nmiDeliverable s = true ↔ s.nmiPending ≠ 0 ∧ s.nmiMask = 0 ∧ (s.halted = false ∨ Config.hltNmiWake = true) := by
  simp [nmiDeliverable, and_assoc]

/-- A step that takes an external interrupt is the normal entry with code 1. -/
theorem step_int_entry {s : State} (quiet : s.inputs = []) (nmi : nmiDeliverable s = false) (line : s.intLine = true)
    (enabled : s.bitI = true) :
    ∃ t, step s = .next t ∧ NormalEntry 1 s.pc none { s with fresh := s.fresh + 1 } t := by
  have taken := step_int (s := s)
  rw [beginStep_nil quiet] at taken
  exact ⟨_, taken nmi ((intDeliverable_iff s).mpr ⟨line, enabled⟩), normalEntry_spec .int none _⟩

/-- Settles O47: no NMI goes first. -/
theorem externalInterruptEntry : Obligations.ExternalInterruptEntry := by
  unfold Obligations.ExternalInterruptEntry
  exact fun s quiet line enabled nmi => step_int_entry quiet (nmiDeliverable_eq_false nmi) line enabled

/-! ### NMI -/

/-- A step that takes an NMI is the normal entry with code 5, with one request gone. -/
theorem step_nmi_entry {s : State} (quiet : s.inputs = []) (nmi : nmiDeliverable s = true) :
    ∃ t, step s = .next t ∧
      NormalEntry 5 s.pc none { s with fresh := s.fresh + 1, nmiPending := s.nmiPending - 1 } t := by
  have taken := step_nmi (s := s)
  rw [beginStep_nil quiet] at taken
  exact ⟨_, taken nmi, normalEntry_spec .nmi none _⟩

/-- What a step that takes no NMI does to the requests and the mask counter: from `s` to `t` the requests stay, and the
counter stays or is reloaded. -/
def KeepsNmi (s t : State) : Prop :=
  t.nmiPending = s.nmiPending ∧ (t.nmiMask = s.nmiMask ∨ t.nmiMask = Config.nmiMaskInsns)

theorem keepsNmi_takeException (e : Exc) (s : State) : KeepsNmi s (takeException e s) :=
  ⟨takeException_nmiPending e s, .inr (takeException_nmiMask e s)⟩

/-- No instruction takes a request, and those that write the mask counter reload it (60_exceptions R377). -/
theorem exec_keepsNmi {i : Instr} {s t : State} (h : exec i s = .next t) : KeepsNmi s t := by
  cases exec_effect h with
  | trap e => exact keepsNmi_takeException e s
  | goto | write | link | store | storeWrite | halt | ret => exact ⟨rfl, .inl rfl⟩
  | readControl => exact ⟨rfl, .inr rfl⟩
  | writeControl _ _ _ _ _ _ u written =>
    obtain ⟨-, -, -, -, -, -, -, -, -, -, pending, -⟩ := writeControl_frame written
    exact ⟨pending, .inr rfl⟩

theorem runInstruction_keepsNmi {s t : State} (h : runInstruction s = .next t) : KeepsNmi s t := by
  obtain ⟨log, ⟨e, rfl⟩ | ⟨i, -, run⟩⟩ := runInstruction_cases h
  · exact keepsNmi_takeException e { s with deviceLog := log }
  · exact exec_keepsNmi (s := { s with deviceLog := log }) run

/-- While the mask counter runs a step takes no NMI, and the counter ticks or is reloaded (60_exceptions R377; log 31). -/
theorem step_masked {s t : State} (quiet : s.inputs = []) (masked : s.nmiMask ≠ 0) (h : step s = .next t) :
    t.nmiPending = s.nmiPending ∧ (t.nmiMask = s.nmiMask - 1 ∨ t.nmiMask = Config.nmiMaskInsns) := by
  have outcome := step_cases h
  rw [beginStep_nil quiet] at outcome
  rcases outcome with ⟨nmi, -⟩ | ⟨-, -, rfl⟩ | ⟨-, -, -, rfl⟩ | ⟨-, -, -, run⟩
  · obtain ⟨-, unmasked, -⟩ := (nmiDeliverable_iff _).mp nmi
    exact absurd unmasked masked
  · exact ⟨takeException_nmiPending _ _, .inr (takeException_nmiMask _ _)⟩
  · exact ⟨rfl, .inl rfl⟩
  · exact runInstruction_keepsNmi run

/-- A halt that an NMI does not end, with no enabled interrupt: the counter, at zero, stays there. -/
theorem step_halted_unmasked {s : State} (quiet : s.inputs = []) (nmi : nmiDeliverable s = false)
    (int : s.intLine = false ∨ s.bitI = false) (halted : s.halted = true) (unmasked : s.nmiMask = 0) :
    step s = .next { s with fresh := s.fresh + 1 } := by
  have waits := step_wait (s := s)
  rw [beginStep_nil quiet] at waits
  rw [waits nmi (intDeliverable_eq_false int) halted, tickNmi, unmasked]

/-- Settles O48: the choice is the parameter HLT_NMI_WAKE. -/
theorem nmiEntryAndMask : Obligations.NmiEntryAndMask := by
  unfold Obligations.NmiEntryAndMask
  refine ⟨Config.hltNmiWake, fun s quiet => ⟨fun pending unmasked => ⟨fun wakes => ?taken, fun halted sleeps => ?halted⟩,
    fun masked t => step_masked quiet masked⟩⟩
  case taken => exact step_nmi_entry quiet ((nmiDeliverable_iff s).mpr ⟨pending, unmasked, wakes⟩)
  case halted =>
    have nmi : nmiDeliverable s = false := by simp [nmiDeliverable, halted, sleeps]
    exact ⟨step_int_entry quiet nmi, fun int => step_halted_unmasked quiet nmi int halted unmasked⟩

/-! ### The instruction at the pc -/

/-- The four bytes of a word in memory are those of the word read (20_memory R81). -/
theorem bytesOfWord_readLE (m : Memory) (a : Nat) :
    bytesOfWord (m.readLE a .long) = [m.read a, m.read (a + 1), m.read (a + 2), m.read (a + 3)] := by
  have byte (k : Nat) (hk : k < 4) : (m.readLE a .long).extractLsb' (8 * k) 8 = m.read (a + k) :=
    Memory.readLE_byte m a .long k hk
  rw [bytesOfWord, byte 0 (by decide), byte 1 (by decide), byte 2 (by decide), byte 3 (by decide), Nat.add_zero]

/-- An instruction that stands in memory, of which the Icache may hold no older copy, is fetched and executed. -/
theorem runInstruction_memory {s : State} {pa : Word} {bypass : Bool} {i : Instr} (al : s.pc.toNat % 4 = 0)
    (tr : translateVa s.pc .fetch s = .ok (pa, bypass)) (mem : OrdinaryMemory s pa)
    (current : bypass = true ∨ ∀ c ∈ s.icacheStale, c.addr ≠ pa.toNat / 4 * 4)
    (decodes : decodeBytes [s.mem.read pa.toNat, s.mem.read (pa.toNat + 1), s.mem.read (pa.toNat + 2),
      s.mem.read (pa.toNat + 3)] = .ok i) : runInstruction s = exec i s := by
  have fetched : fetchWord s = .ok (s.mem.readLE pa.toNat .long, s) := by
    rw [fetchWord_of_translated al tr, physFetch_memory mem, seenThrough_current current]
  have decoded : decodeFetched (s.mem.readLE pa.toNat .long) s = .ok i := by
    rw [decodeFetched, bytesOfWord_readLE, decodes]
  rw [runInstruction, fetched, Access.finish_ok, decoded, Access.finish_ok]

/-- Settles O7: the step runs an instruction, and it is the one that stands at the pc. -/
theorem stepRunsTheDecodedInstruction : Obligations.StepRunsTheDecodedInstruction := by
  unfold Obligations.StepRunsTheDecodedInstruction
  intro s pa bypass i quiet nmi int halt al tr mem current decodes
  rw [step_run quiet (nmiDeliverable_eq_false nmi) (intDeliverable_eq_false int) halt]
  exact runInstruction_memory al tr mem current decodes

end Sys2Proof.Machine
end

section
/-! Stores by other processors and devices, and what ends a reservation (spec/60_exceptions.md R404; spec/20_memory.md
R121, R127, R128). -/

namespace Sys2Proof.Machine

/-! ### The address of a store -/

/-- The aligned address at or below an address, as a number (log 47). -/
theorem alignDown_toNat (w : Width) (pa : Word) : (w.alignDown pa).toNat = pa.toNat / w.bytes * w.bytes := by
  cases w with
  | byte => simp [Width.alignDown, Width.bytes]
  | int | long =>
    have := pa.isLt
    rw [Width.alignDown, append_toNat, BitVec.extractLsb'_toNat, Nat.shiftRight_eq_div_pow]
    simp only [Width.bytes, BitVec.toNat_ofNat]
    omega

/-- Aligning an address stays in its word. -/
theorem aligned_word (w : Width) (a : Nat) : a / w.bytes * w.bytes / 4 = a / 4 := by
  cases w <;> simp only [Width.bytes] <;> omega

/-- Two addresses lie in different words when their word addresses differ. -/
theorem wordBase_bne (a b : Nat) : (wordBase a != wordBase b) = decide (b / 4 ≠ a / 4) := by
  have words : wordBase a = wordBase b ↔ b / 4 = a / 4 := by
    unfold wordBase
    omega
  rw [bne, beq_eq_decide, ← decide_not]
  exact decide_eq_decide.mpr (not_congr words)

/-! ### Other agents' stores -/

section
variable (s : State) (pa : Word) (w : Width) (v : Word)

/-- Another processor's store clears the flag exactly where it falls into the locked word (60_exceptions R404; log 36). -/
theorem otherProcessorStore_locked :
    (otherProcessorStore pa w v s).locked = (s.locked && decide (pa.toNat / 4 ≠ s.lockedAddr.toNat / 4)) := by
  show (s.locked && wordBase s.lockedAddr.toNat != wordBase (w.alignDown pa).toNat) = _
  rw [wordBase_bne, alignDown_toNat, aligned_word]

variable {s pa w v}

/-- Another processor's store to RAM is as this processor's own, but for the flag (20_memory R127). -/
theorem otherProcessorStore_ram (ram : regionAt s.regions (w.alignDown pa).toNat = .ram) :
    otherProcessorStore pa w v s =
      { s.ownStore (w.alignDown pa).toNat w v with locked := (otherProcessorStore pa w v s).locked } := by
  simp only [otherProcessorStore, if_pos ram]

theorem otherProcessorStore_elsewhere (other : regionAt s.regions (w.alignDown pa).toNat ≠ .ram) :
    otherProcessorStore pa w v s = { s with locked := (otherProcessorStore pa w v s).locked } := by
  simp only [otherProcessorStore, if_neg other]

theorem deviceWrite_ram (ram : regionAt s.regions (w.alignDown pa).toNat = .ram) :
    deviceWrite pa w v s = s.deviceBytes (w.alignDown pa).toNat w v := if_pos ram

theorem deviceWrite_elsewhere (other : regionAt s.regions (w.alignDown pa).toNat ≠ .ram) :
    deviceWrite pa w v s = s := if_neg other

end

/-- Everything a device's store to RAM does: the Dcache follows it where the platform keeps it coherent, and otherwise
may keep the word replaced (20_memory R121, R128; logs 29, 30). -/
theorem deviceBytes_stores {s : State} (wf : s.mem.wf) (a : Nat) (w : Width) (v : Word) :
    HoldsLE (s.deviceBytes a w v).mem a w v ∧
      (∀ b, b < a ∨ a + w.bytes ≤ b → (s.deviceBytes a w v).mem.read b = s.mem.read b) ∧
      KeepsOldWord a s.mem (s.deviceBytes a w v).mem s.icacheStale (s.deviceBytes a w v).icacheStale ∧
      (if Config.dcacheDmaCoherent then List.Forall₂ (FollowsStore a w v) s.dcacheStale (s.deviceBytes a w v).dcacheStale
        else KeepsOldWord a s.mem (s.deviceBytes a w v).mem s.dcacheStale (s.deviceBytes a w v).dcacheStale) ∧
      s.deviceBytes a w v =
        { s with
          mem := (s.deviceBytes a w v).mem, icacheStale := (s.deviceBytes a w v).icacheStale,
          dcacheStale := (s.deviceBytes a w v).dcacheStale } := by
  have bytes : HoldsLE (s.mem.writeLE a w v) a w v := holdsLE_writeLE wf a w v
  have others (b : Nat) (hb : b < a ∨ a + w.bytes ≤ b) : (s.mem.writeLE a w v).read b = s.mem.read b :=
    Memory.read_writeLE_other s.mem a w v b hb
  have keeps := keepsOldWord_noteStale a s.mem (s.mem.writeLE a w v)
  unfold State.deviceBytes
  split
  · exact ⟨bytes, others, keeps s.icacheStale, followsStore_storeIntoStale a w v s.dcacheStale, rfl⟩
  · exact ⟨bytes, others, keeps s.icacheStale, keeps s.dcacheStale, rfl⟩

/-! ### What ends a reservation -/

/-- Of this processor's instructions only RFE clears the locked flag (45_privileged R336). -/
theorem exec_clears_locked {i : Instr} {s t : State} (h : exec i s = .next t) (locked : s.locked = true)
    (clear : t.locked = false) : i = .rfe := by
  have notKept (same : t.locked = s.locked) : i = .rfe := by simp [same, locked] at clear
  cases exec_effect h with
  | ret _ rfe => exact rfe
  | link => exact nomatch (clear : true = false)
  | trap e => exact notKept (takeException_locked e s)
  | writeControl _ _ _ _ _ _ u written =>
    obtain ⟨-, -, -, same, -⟩ := writeControl_frame written
    exact notKept same
  | goto | write | store | storeWrite | readControl | halt => exact notKept rfl

/-- Settles O51, by what owns the aligned address. -/
theorem storesOfOtherAgentsAndTheReservation : Obligations.StoresOfOtherAgentsAndTheReservation := by
  unfold Obligations.StoresOfOtherAgentsAndTheReservation
  refine ⟨fun s pa w v a ha => ?stores, fun s t i => exec_clears_locked⟩
  rw [← alignDown_toNat] at ha
  subst ha
  refine ⟨⟨_, rfl, otherProcessorStore_locked s pa w v, fun wf ram => ?processor, otherProcessorStore_elsewhere⟩,
    ⟨_, rfl, fun wf ram => ?device, deviceWrite_elsewhere⟩⟩
  case processor =>
    have stored := storesBytes_ownStore wf (w.alignDown pa).toNat w v
    rw [applyMove, otherProcessorStore_ram ram]
    exact ⟨stored, rfl⟩
  case device =>
    rw [applyMove, deviceWrite_ram ram]
    exact deviceBytes_stores wf (w.alignDown pa).toNat w v

end Sys2Proof.Machine
end

section
/-! Reset, at the start and during a run (spec/70_reset_and_hazards.md R420; spec/10_state.md R60), and the processor's id
(R33; log 5). -/

namespace Sys2Proof.Machine

/-- The state after reset, or any state the environment has just reset. -/
def IsReset (s : State) : Prop := s = State.reset ∨ ∃ r, s = applyMove .reset r

/-- What R420 states of both resets; every other value is the model's choice or free. -/
theorem IsReset.pc_rs_halted {s : State} (h : IsReset s) : s.pc = 0xFFFE1000 ∧ s.rs = 0 ∧ s.halted = false := by
  rcases h with rfl | ⟨r, rfl⟩ <;> exact ⟨rfl, rfl, rfl⟩

theorem bits_of_rs_zero {s : State} (zero : s.rs = 0) :
    s.bitU = false ∧ s.bitI = false ∧ s.bitM = false ∧ s.bitT = false := by
  simp [State.bitU, State.bitI, State.bitM, State.bitT, zero]

theorem ecause_of_rs_zero {s : State} (zero : s.rs = 0) : s.ecause = 0 := by
  simp [State.ecause, zero]

/-- The id is a remainder modulo MAXPROC, which its 32 bits can only make smaller. -/
theorem procId_lt_maxProc : Config.procId.toNat < Config.maxProc := by
  have remainder : Config.procSeed % Config.maxProc < Config.maxProc := Nat.mod_lt _ (Nat.succ_pos _)
  calc Config.procId.toNat
      = Config.procSeed % Config.maxProc % 2 ^ 32 := BitVec.toNat_ofNat _ _
    _ ≤ Config.procSeed % Config.maxProc := Nat.mod_le _ _
    _ < Config.maxProc := remainder

/-- Settles O9: all the rest follows from RS being zero; register 0 reads as zero because T is clear, whatever the stored
register 0 holds. -/
theorem resetState : Obligations.ResetState := by
  unfold Obligations.ResetState
  refine ⟨fun s reset => ?state, rfl, procId_lt_maxProc⟩
  obtain ⟨pc, rs, halted⟩ := IsReset.pc_rs_halted reset
  obtain ⟨u, i, m, t⟩ := bits_of_rs_zero rs
  have modes : s.rs.extractLsb' 8 8 = 0 ∧ s.rs.extractLsb' 16 8 = 0 := by simp [rs]
  exact ⟨pc, rs, u, i, m, t, readReg_zero_of_not_bitT t, modes.1, modes.2, ecause_of_rs_zero rs, halted⟩

end Sys2Proof.Machine
end
